-- ==== Sys2Proof/Word.lean ====
section
/-! DEFINITION. The two word types of the machine (rule R5: `XLEN` 8, `ALEN` 16). -/

namespace Sys2Proof

/-- A byte: the width of `A`, `X`, `Y`, `S`, of the data path and of every memory access (R5, R53). -/
abbrev Byte := BitVec 8

/-- A 16-bit address: the width of `PC` and of every address on the bus (R5, R50). -/
abbrev Addr := BitVec 16

end Sys2Proof
end

