-- ==== Sys2Proof/Syntax.lean ====
section
/-! DEFINITION. The instruction set as syntax: the thirteen operand forms (R84 to R96, R112), and one
constructor of `Instr` per mnemonic and rule of spec/opcode_table.json. The rows that share a mnemonic
and differ in the operand form only are told apart by the constructor's operand, so that every one of
the table's 256 rows is one constructor with one form (assumption 11). -/

namespace Sys2Proof

/-- The thirteen operand forms (R84 to R96, R98). -/
inductive Mode where
  | imp | acc | imm | zp | zpx | zpy | abs | abx | aby | rel | izx | izy | ind
  deriving DecidableEq, Repr

/-- An operand in memory: the forms that deliver an effective address, with their operand bytes.
`b1` is the byte after the opcode; a 16-bit address is `b2:b1` (R90). -/
inductive MemForm where
  /-- zero page (R87) -/
  | zp (b1 : Byte)
  /-- zero page indexed by `X` (R88) -/
  | zpx (b1 : Byte)
  /-- zero page indexed by `Y` (R89) -/
  | zpy (b1 : Byte)
  /-- absolute (R90) -/
  | abs (addr : Addr)
  /-- absolute indexed by `X` (R91) -/
  | abx (addr : Addr)
  /-- absolute indexed by `Y` (R92) -/
  | aby (addr : Addr)
  /-- indexed indirect `(zp,X)` (R94) -/
  | izx (b1 : Byte)
  /-- indirect indexed `(zp),Y` (R95) -/
  | izy (b1 : Byte)
  deriving DecidableEq, Repr

/-- An operand that is read: an immediate byte (R86) or a byte of memory. -/
inductive Source where
  | imm (b1 : Byte)
  | mem (f : MemForm)
  deriving DecidableEq, Repr

/-- What a shift or rotate works on: the accumulator (R85) or a byte of memory. -/
inductive Target where
  | acc
  | mem (f : MemForm)
  deriving DecidableEq, Repr

/-- The operand of an undocumented `NOP` (R105, R209): none (IMP), or an operand that is fetched. -/
inductive NopOperand where
  | imp
  | src (o : Source)
  deriving DecidableEq, Repr

/-- The 64 mnemonics of the Opcode Table (R99): 56 documented ones and the eight undocumented
`LAX SAX DCP ISC SLO RLA SRE RRA`. -/
inductive Mnemonic where
  | LDA | LDX | LDY | STA | STX | STY | TAX | TAY | TXA | TYA | TSX | TXS
  | PHA | PHP | PLA | PLP
  | ADC | SBC | AND | ORA | EOR | CMP | CPX | CPY | BIT | INC | DEC | INX | INY | DEX | DEY
  | ASL | LSR | ROL | ROR
  | JMP | JSR | RTS | BPL | BMI | BVC | BVS | BCC | BCS | BNE | BEQ
  | CLC | SEC | CLI | SEI | CLV | CLD | SED | NOP | BRK | RTI
  | LAX | SAX | SLO | RLA | SRE | RRA | DCP | ISC
  deriving DecidableEq, Repr

/-- An instruction. -/
inductive Instr where
  -- loads and stores (R120 to R125)
  | lda (o : Source)
  | ldx (o : Source)
  | ldy (o : Source)
  | sta (f : MemForm)
  | stx (f : MemForm)
  | sty (f : MemForm)
  -- register transfers (R126 to R131)
  | tax
  | tay
  | txa
  | tya
  | tsx
  | txs
  -- stack (R135 to R138)
  | pha
  | php
  | pla
  | plp
  -- arithmetic, logic, compare, increment, decrement (R140 to R154)
  | adc (o : Source)
  | sbc (o : Source)
  | and (o : Source)
  | ora (o : Source)
  | eor (o : Source)
  | cmp (o : Source)
  | cpx (o : Source)
  | cpy (o : Source)
  | bit (f : MemForm)
  | inc (f : MemForm)
  | dec (f : MemForm)
  | inx
  | iny
  | dex
  | dey
  -- shifts and rotates (R161 to R164)
  | asl (t : Target)
  | lsr (t : Target)
  | rol (t : Target)
  | ror (t : Target)
  -- jumps, call, return (R170 to R173)
  | jmp (addr : Addr)
  | jmpInd (ptr : Addr)
  | jsr (addr : Addr)
  | rts
  -- conditional branches (R175 to R182)
  | bpl (off : Byte)
  | bmi (off : Byte)
  | bvc (off : Byte)
  | bvs (off : Byte)
  | bcc (off : Byte)
  | bcs (off : Byte)
  | bne (off : Byte)
  | beq (off : Byte)
  -- flags, NOP, BRK, RTI (R185 to R195)
  | clc
  | sec
  | cli
  | sei
  | clv
  | cld
  | sed
  | nop
  | brk
  | rti
  -- undocumented (R200 to R210)
  | lax (f : MemForm)
  | sax (f : MemForm)
  | slo (f : MemForm)
  | rla (f : MemForm)
  | sre (f : MemForm)
  | rra (f : MemForm)
  | dcp (f : MemForm)
  | isc (f : MemForm)
  /-- one of the 27 undocumented `NOP` entries, by its opcode byte (R105, R209) -/
  | nopu (opc : Byte) (o : NopOperand)
  /-- the undocumented second `SBC #`, byte 0xEB (R106, R210) -/
  | sbcu (b1 : Byte)
  /-- one of the 25 bytes with no Opcode Table entry (R108) -/
  | unassigned (opc : Byte)
  deriving DecidableEq, Repr

end Sys2Proof
end

