-- ==== Sys2Proof/WellFormed.lean ====
section
/-! DEFINITION. Which terms of `Instr` have an encoding: for each mnemonic the operand forms of its
table in files 40_ to 46_ of spec/, for the undocumented `NOP` and the unassigned bytes the opcode
bytes of R105 and R108. -/

namespace Sys2Proof

/-- The operand form of a memory operand. -/
def MemForm.mode : MemForm → Mode
  | .zp _ => .zp
  | .zpx _ => .zpx
  | .zpy _ => .zpy
  | .abs _ => .abs
  | .abx _ => .abx
  | .aby _ => .aby
  | .izx _ => .izx
  | .izy _ => .izy

/-- The operand form of an operand that is read. -/
def Source.mode : Source → Mode
  | .imm _ => .imm
  | .mem f => f.mode

/-- The operand form of a shift's operand. -/
def Target.mode : Target → Mode
  | .acc => .acc
  | .mem f => f.mode

/-- The operand form of an undocumented `NOP`. -/
def NopOperand.mode : NopOperand → Mode
  | .imp => .imp
  | .src o => o.mode

/-- The eight forms of `LDA ADC SBC AND ORA EOR CMP` (R120, R140 to R145). -/
def aluModes : List Mode := [.imm, .zp, .zpx, .abs, .abx, .aby, .izx, .izy]

/-- The five forms of the shifts and, without ACC, the four of `INC` and `DEC` (R149, R150, R161). -/
def shiftModes : List Mode := [.acc, .zp, .zpx, .abs, .abx]

/-- The seven forms of `STA` (R123) and of the combined read-modify-writes (R208). -/
def storeModes : List Mode := [.zp, .zpx, .abs, .abx, .aby, .izx, .izy]

/-- The opcode bytes of the undocumented `NOP` in each form (R105). -/
def nopBytes : Mode → List Byte
  | .imp => [0x1A, 0x3A, 0x5A, 0x7A, 0xDA, 0xFA]
  | .imm => [0x80, 0x82, 0x89, 0xC2, 0xE2]
  | .zp => [0x04, 0x44, 0x64]
  | .zpx => [0x14, 0x34, 0x54, 0x74, 0xD4, 0xF4]
  | .abs => [0x0C]
  | .abx => [0x1C, 0x3C, 0x5C, 0x7C, 0xDC, 0xFC]
  | .acc | .zpy | .aby | .rel | .izx | .izy | .ind => []

/-- The 25 bytes with no Opcode Table entry (R108). -/
def unassignedBytes : List Byte :=
  [0x02, 0x0B, 0x12, 0x22, 0x2B, 0x32, 0x42, 0x4B, 0x52, 0x62, 0x6B, 0x72, 0x8B,
   0x92, 0x93, 0x9B, 0x9C, 0x9E, 0x9F, 0xAB, 0xB2, 0xBB, 0xCB, 0xD2, 0xF2]

/-- The instruction has an encoding. Every operand byte of an admitted form is legal (R109). -/
def Instr.wf : Instr → Bool
  | .lda o | .adc o | .sbc o | .and o | .ora o | .eor o | .cmp o => o.mode ∈ aluModes
  | .ldx o => o.mode ∈ [Mode.imm, .zp, .zpy, .abs, .aby]
  | .ldy o => o.mode ∈ [Mode.imm, .zp, .zpx, .abs, .abx]
  | .cpx o | .cpy o => o.mode ∈ [Mode.imm, .zp, .abs]
  | .sta f => f.mode ∈ storeModes
  | .stx f => f.mode ∈ [Mode.zp, .zpy, .abs]
  | .sty f => f.mode ∈ [Mode.zp, .zpx, .abs]
  | .bit f => f.mode ∈ [Mode.zp, .abs]
  | .inc f | .dec f => f.mode ∈ shiftModes
  | .asl t | .lsr t | .rol t | .ror t => t.mode ∈ shiftModes
  | .lax f => f.mode ∈ [Mode.zp, .zpy, .abs, .aby, .izx, .izy]
  | .sax f => f.mode ∈ [Mode.zp, .zpy, .abs, .izx]
  | .slo f | .rla f | .sre f | .rra f | .dcp f | .isc f => f.mode ∈ storeModes
  | .nopu opc o => opc ∈ nopBytes o.mode
  | .unassigned opc => opc ∈ unassignedBytes
  | .tax | .tay | .txa | .tya | .tsx | .txs | .pha | .php | .pla | .plp
  | .inx | .iny | .dex | .dey | .rts
  | .clc | .sec | .cli | .sei | .clv | .cld | .sed | .nop | .brk | .rti => true
  | .jmp _ | .jmpInd _ | .jsr _ => true
  | .bpl _ | .bmi _ | .bvc _ | .bvs _ | .bcc _ | .bcs _ | .bne _ | .beq _ => true
  | .sbcu _ => true

end Sys2Proof
end

