-- ==== Sys2Proof/Decode.lean ====
section
/-! DEFINITION. The Opcode Table as the decoder (R80 to R83, R99, R100, R108): first the byte helpers
and the decoder, total on any bytes; then the encoder, written from the operand tables of files 40_ to
46_; last the four fields of an Opcode Table entry (mnemonic, mode, base cycles, documented) with the
derived `penalty`, and the reading of a word of spec/opcode_table.json. -/

namespace Sys2Proof

/-! ## Bytes and addresses -/

/-- `hi:lo`, the 16-bit value `hi * 256 + lo` (R6, R54). -/
def addrOf (lo hi : Byte) : Addr := BitVec.ofNat 16 (hi.toNat * 256 + lo.toNat)

/-- `v[7:0]` of a 16-bit value. -/
def loByte (v : Addr) : Byte := BitVec.ofNat 8 v.toNat

/-- `v[15:8]` of a 16-bit value. -/
def hiByte (v : Addr) : Byte := BitVec.ofNat 8 (v.toNat / 256)

/-! ## Decoding -/

/-- A cell of the matrix of R100: the instruction, given the operand bytes `b1` and `b2` (a byte that
the instruction does not have is not looked at). -/
abbrev Cell := Byte → Byte → Instr

namespace OpMap

/-- An entry with no operand byte: form IMP (R84). -/
def imp (i : Instr) : Cell := fun _ _ => i

/-- Form ACC (R85). -/
def acc (k : Target → Instr) : Cell := fun _ _ => k .acc

/-- Form IMM (R86). -/
def imm (k : Source → Instr) : Cell := fun b1 _ => k (.imm b1)

/-- An instruction over one operand byte: form REL (R93), and the second `SBC #` (R210). -/
def byte (k : Byte → Instr) : Cell := fun b1 _ => k b1

/-- An instruction over the address `b2:b1`: the jumps, forms ABS (R90) and IND (R96). -/
def addr (k : Addr → Instr) : Cell := fun b1 b2 => k (addrOf b1 b2)

/-- Form ZP (R87). -/
def zp (k : MemForm → Instr) : Cell := fun b1 _ => k (.zp b1)

/-- Form ZPX (R88). -/
def zpx (k : MemForm → Instr) : Cell := fun b1 _ => k (.zpx b1)

/-- Form ZPY (R89). -/
def zpy (k : MemForm → Instr) : Cell := fun b1 _ => k (.zpy b1)

/-- Form ABS (R90). -/
def abs (k : MemForm → Instr) : Cell := fun b1 b2 => k (.abs (addrOf b1 b2))

/-- Form ABX (R91). -/
def abx (k : MemForm → Instr) : Cell := fun b1 b2 => k (.abx (addrOf b1 b2))

/-- Form ABY (R92). -/
def aby (k : MemForm → Instr) : Cell := fun b1 b2 => k (.aby (addrOf b1 b2))

/-- Form IZX (R94). -/
def izx (k : MemForm → Instr) : Cell := fun b1 _ => k (.izx b1)

/-- Form IZY (R95). -/
def izy (k : MemForm → Instr) : Cell := fun b1 _ => k (.izy b1)

/-- An instruction that reads a memory operand. -/
def src (k : Source → Instr) : MemForm → Instr := fun f => k (.mem f)

/-- A shift or rotate of a memory operand. -/
def tgt (k : Target → Instr) : MemForm → Instr := fun f => k (.mem f)

/-- An undocumented `NOP` with an operand (R105). -/
def nopu (opc : Byte) : Source → Instr := fun o => .nopu opc (.src o)

/-- An undocumented `NOP` without operand (R105). -/
def nopImp (opc : Byte) : Cell := fun _ _ => .nopu opc .imp

/-- A byte with no entry (R108). -/
def un (opc : Byte) : Cell := fun _ _ => .unassigned opc

/-- Opcodes 0x00 to 0x0F: row 0x of the matrix of R100. -/
def row0 : List Cell :=
  [imp .brk, izx (src .ora), un 0x02, izx .slo, zp (src (nopu 0x04)), zp (src .ora), zp (tgt .asl),
   zp .slo, imp .php, imm .ora, acc .asl, un 0x0B, abs (src (nopu 0x0C)), abs (src .ora),
   abs (tgt .asl), abs .slo]

/-- Opcodes 0x10 to 0x1F: row 1x of the matrix of R100. -/
def row1 : List Cell :=
  [byte .bpl, izy (src .ora), un 0x12, izy .slo, zpx (src (nopu 0x14)), zpx (src .ora), zpx (tgt .asl),
   zpx .slo, imp .clc, aby (src .ora), nopImp 0x1A, aby .slo, abx (src (nopu 0x1C)), abx (src .ora),
   abx (tgt .asl), abx .slo]

/-- Opcodes 0x20 to 0x2F: row 2x of the matrix of R100. -/
def row2 : List Cell :=
  [addr .jsr, izx (src .and), un 0x22, izx .rla, zp .bit, zp (src .and), zp (tgt .rol), zp .rla,
   imp .plp, imm .and, acc .rol, un 0x2B, abs .bit, abs (src .and), abs (tgt .rol), abs .rla]

/-- Opcodes 0x30 to 0x3F: row 3x of the matrix of R100. -/
def row3 : List Cell :=
  [byte .bmi, izy (src .and), un 0x32, izy .rla, zpx (src (nopu 0x34)), zpx (src .and), zpx (tgt .rol),
   zpx .rla, imp .sec, aby (src .and), nopImp 0x3A, aby .rla, abx (src (nopu 0x3C)), abx (src .and),
   abx (tgt .rol), abx .rla]

/-- Opcodes 0x40 to 0x4F: row 4x of the matrix of R100. -/
def row4 : List Cell :=
  [imp .rti, izx (src .eor), un 0x42, izx .sre, zp (src (nopu 0x44)), zp (src .eor), zp (tgt .lsr),
   zp .sre, imp .pha, imm .eor, acc .lsr, un 0x4B, addr .jmp, abs (src .eor), abs (tgt .lsr), abs .sre]

/-- Opcodes 0x50 to 0x5F: row 5x of the matrix of R100. -/
def row5 : List Cell :=
  [byte .bvc, izy (src .eor), un 0x52, izy .sre, zpx (src (nopu 0x54)), zpx (src .eor), zpx (tgt .lsr),
   zpx .sre, imp .cli, aby (src .eor), nopImp 0x5A, aby .sre, abx (src (nopu 0x5C)), abx (src .eor),
   abx (tgt .lsr), abx .sre]

/-- Opcodes 0x60 to 0x6F: row 6x of the matrix of R100. -/
def row6 : List Cell :=
  [imp .rts, izx (src .adc), un 0x62, izx .rra, zp (src (nopu 0x64)), zp (src .adc), zp (tgt .ror),
   zp .rra, imp .pla, imm .adc, acc .ror, un 0x6B, addr .jmpInd, abs (src .adc), abs (tgt .ror),
   abs .rra]

/-- Opcodes 0x70 to 0x7F: row 7x of the matrix of R100. -/
def row7 : List Cell :=
  [byte .bvs, izy (src .adc), un 0x72, izy .rra, zpx (src (nopu 0x74)), zpx (src .adc), zpx (tgt .ror),
   zpx .rra, imp .sei, aby (src .adc), nopImp 0x7A, aby .rra, abx (src (nopu 0x7C)), abx (src .adc),
   abx (tgt .ror), abx .rra]

/-- Opcodes 0x80 to 0x8F: row 8x of the matrix of R100. -/
def row8 : List Cell :=
  [imm (nopu 0x80), izx .sta, imm (nopu 0x82), izx .sax, zp .sty, zp .sta, zp .stx, zp .sax, imp .dey,
   imm (nopu 0x89), imp .txa, un 0x8B, abs .sty, abs .sta, abs .stx, abs .sax]

/-- Opcodes 0x90 to 0x9F: row 9x of the matrix of R100. -/
def row9 : List Cell :=
  [byte .bcc, izy .sta, un 0x92, un 0x93, zpx .sty, zpx .sta, zpy .stx, zpy .sax, imp .tya, aby .sta,
   imp .txs, un 0x9B, un 0x9C, abx .sta, un 0x9E, un 0x9F]

/-- Opcodes 0xA0 to 0xAF: row Ax of the matrix of R100. -/
def rowA : List Cell :=
  [imm .ldy, izx (src .lda), imm .ldx, izx .lax, zp (src .ldy), zp (src .lda), zp (src .ldx), zp .lax,
   imp .tay, imm .lda, imp .tax, un 0xAB, abs (src .ldy), abs (src .lda), abs (src .ldx), abs .lax]

/-- Opcodes 0xB0 to 0xBF: row Bx of the matrix of R100. -/
def rowB : List Cell :=
  [byte .bcs, izy (src .lda), un 0xB2, izy .lax, zpx (src .ldy), zpx (src .lda), zpy (src .ldx),
   zpy .lax, imp .clv, aby (src .lda), imp .tsx, un 0xBB, abx (src .ldy), abx (src .lda),
   aby (src .ldx), aby .lax]

/-- Opcodes 0xC0 to 0xCF: row Cx of the matrix of R100. -/
def rowC : List Cell :=
  [imm .cpy, izx (src .cmp), imm (nopu 0xC2), izx .dcp, zp (src .cpy), zp (src .cmp), zp .dec, zp .dcp,
   imp .iny, imm .cmp, imp .dex, un 0xCB, abs (src .cpy), abs (src .cmp), abs .dec, abs .dcp]

/-- Opcodes 0xD0 to 0xDF: row Dx of the matrix of R100. -/
def rowD : List Cell :=
  [byte .bne, izy (src .cmp), un 0xD2, izy .dcp, zpx (src (nopu 0xD4)), zpx (src .cmp), zpx .dec,
   zpx .dcp, imp .cld, aby (src .cmp), nopImp 0xDA, aby .dcp, abx (src (nopu 0xDC)), abx (src .cmp),
   abx .dec, abx .dcp]

/-- Opcodes 0xE0 to 0xEF: row Ex of the matrix of R100. -/
def rowE : List Cell :=
  [imm .cpx, izx (src .sbc), imm (nopu 0xE2), izx .isc, zp (src .cpx), zp (src .sbc), zp .inc, zp .isc,
   imp .inx, imm .sbc, imp .nop, byte .sbcu, abs (src .cpx), abs (src .sbc), abs .inc, abs .isc]

/-- Opcodes 0xF0 to 0xFF: row Fx of the matrix of R100. -/
def rowF : List Cell :=
  [byte .beq, izy (src .sbc), un 0xF2, izy .isc, zpx (src (nopu 0xF4)), zpx (src .sbc), zpx .inc,
   zpx .isc, imp .sed, aby (src .sbc), nopImp 0xFA, aby .isc, abx (src (nopu 0xFC)), abx (src .sbc),
   abx .inc, abx .isc]

end OpMap

open OpMap in
/-- The 16 by 16 matrix of R100, one list a row. -/
def opcodeRows : List (List Cell) :=
  [row0, row1, row2, row3, row4, row5, row6, row7, row8, row9, rowA, rowB, rowC, rowD, rowE, rowF]

/-- The instruction that the opcode byte and its operand bytes stand for: a table lookup on the whole
first byte (R80, R83). -/
def instrOf (opc b1 b2 : Byte) : Instr :=
  (opcodeRows.getD (opc.toNat / 16) []).getD (opc.toNat % 16) (OpMap.un opc) b1 b2

/-- The operand form of an instruction. A byte without entry has none; it stands here under IMP, the
form of no operand bytes, since only its opcode is ever read (R82). -/
def Instr.mode : Instr → Mode
  | .lda o | .ldx o | .ldy o => o.mode
  | .adc o | .sbc o | .and o | .ora o | .eor o | .cmp o | .cpx o | .cpy o => o.mode
  | .sta f | .stx f | .sty f | .bit f | .inc f | .dec f => f.mode
  | .asl t | .lsr t | .rol t | .ror t => t.mode
  | .lax f | .sax f | .slo f | .rla f | .sre f | .rra f | .dcp f | .isc f => f.mode
  | .jmp _ | .jsr _ => .abs
  | .jmpInd _ => .ind
  | .bpl _ | .bmi _ | .bvc _ | .bvs _ | .bcc _ | .bcs _ | .bne _ | .beq _ => .rel
  | .nopu _ o => o.mode
  | .sbcu _ => .imm
  | .tax | .tay | .txa | .tya | .tsx | .txs | .pha | .php | .pla | .plp
  | .inx | .iny | .dex | .dey | .rts
  | .clc | .sec | .cli | .sei | .clv | .cld | .sed | .nop | .brk | .rti => .imp
  | .unassigned _ => .imp

/-- How many operand bytes a form has (R80: formats F1, F2, F3). -/
def Mode.operandCount : Mode → Nat
  | .imp | .acc => 0
  | .imm | .zp | .zpx | .zpy | .rel | .izx | .izy => 1
  | .abs | .abx | .aby | .ind => 2

/-- The length of an instruction in bytes (R80). -/
def Instr.length (i : Instr) : Nat := 1 + i.mode.operandCount

/-- How many operand bytes follow an opcode: the opcode alone decides (R80). -/
def operandCount (opc : Byte) : Nat := (instrOf opc 0 0).mode.operandCount

/-- Why bytes are not an instruction. (A byte without Opcode Table entry is the instruction
`unassigned`, which raises `DecodeError` when it is executed: R82, R301.) -/
inductive DecodeRefusal where
  /-- there is no byte at all -/
  | noBytes
  /-- the opcode's operand bytes are not all there -/
  | truncated (opc : Byte)
  deriving DecidableEq, Repr

/-- The instruction at the head of the bytes, and the bytes after it (R80, R82). -/
def decode : List Byte → Except DecodeRefusal (Instr × List Byte)
  | [] => .error .noBytes
  | opc :: rest =>
    match operandCount opc, rest with
    | 0, rest => .ok (instrOf opc 0 0, rest)
    | 1, b1 :: rest => .ok (instrOf opc b1 0, rest)
    | 2, b1 :: b2 :: rest => .ok (instrOf opc b1 b2, rest)
    | _, _ => .error (.truncated opc)

/-! ## Encoding -/

/-- The opcodes of one mnemonic in the memory forms: a row of an operand table of files 40_ to 46_. -/
structure FormCodes where
  zp : Option Byte := none
  zpx : Option Byte := none
  zpy : Option Byte := none
  abs : Option Byte := none
  abx : Option Byte := none
  aby : Option Byte := none
  izx : Option Byte := none
  izy : Option Byte := none
  deriving DecidableEq, Repr

/-- The opcode of a memory operand's form. -/
def FormCodes.pick (c : FormCodes) : MemForm → Option Byte
  | .zp _ => c.zp
  | .zpx _ => c.zpx
  | .zpy _ => c.zpy
  | .abs _ => c.abs
  | .abx _ => c.abx
  | .aby _ => c.aby
  | .izx _ => c.izx
  | .izy _ => c.izy

/-- The opcode of a read operand: the immediate form's, or the memory form's. -/
def Source.code (o : Source) (immCode : Byte) (c : FormCodes) : Option Byte :=
  match o with
  | .imm _ => some immCode
  | .mem f => c.pick f

/-- The opcode of a shift's operand. -/
def Target.code (t : Target) (accCode : Byte) (c : FormCodes) : Option Byte :=
  match t with
  | .acc => some accCode
  | .mem f => c.pick f

/-- The opcodes of `LDA` in memory forms (R120). -/
def ldaCodes : FormCodes :=
  { zp := some 0xA5, zpx := some 0xB5, abs := some 0xAD, abx := some 0xBD, aby := some 0xB9,
    izx := some 0xA1, izy := some 0xB1 }

/-- The opcodes of `LDX` in memory forms (R121). -/
def ldxCodes : FormCodes := { zp := some 0xA6, zpy := some 0xB6, abs := some 0xAE, aby := some 0xBE }

/-- The opcodes of `LDY` in memory forms (R122). -/
def ldyCodes : FormCodes := { zp := some 0xA4, zpx := some 0xB4, abs := some 0xAC, abx := some 0xBC }

/-- The opcodes of `STA` in memory forms (R123). -/
def staCodes : FormCodes :=
  { zp := some 0x85, zpx := some 0x95, abs := some 0x8D, abx := some 0x9D, aby := some 0x99,
    izx := some 0x81, izy := some 0x91 }

/-- The opcodes of `STX` in memory forms (R124). -/
def stxCodes : FormCodes := { zp := some 0x86, zpy := some 0x96, abs := some 0x8E }

/-- The opcodes of `STY` in memory forms (R125). -/
def styCodes : FormCodes := { zp := some 0x84, zpx := some 0x94, abs := some 0x8C }

/-- The opcodes of `ADC` in memory forms (R140). -/
def adcCodes : FormCodes :=
  { zp := some 0x65, zpx := some 0x75, abs := some 0x6D, abx := some 0x7D, aby := some 0x79,
    izx := some 0x61, izy := some 0x71 }

/-- The opcodes of `SBC` in memory forms (R141). -/
def sbcCodes : FormCodes :=
  { zp := some 0xE5, zpx := some 0xF5, abs := some 0xED, abx := some 0xFD, aby := some 0xF9,
    izx := some 0xE1, izy := some 0xF1 }

/-- The opcodes of `AND` in memory forms (R142). -/
def andCodes : FormCodes :=
  { zp := some 0x25, zpx := some 0x35, abs := some 0x2D, abx := some 0x3D, aby := some 0x39,
    izx := some 0x21, izy := some 0x31 }

/-- The opcodes of `ORA` in memory forms (R143). -/
def oraCodes : FormCodes :=
  { zp := some 0x05, zpx := some 0x15, abs := some 0x0D, abx := some 0x1D, aby := some 0x19,
    izx := some 0x01, izy := some 0x11 }

/-- The opcodes of `EOR` in memory forms (R144). -/
def eorCodes : FormCodes :=
  { zp := some 0x45, zpx := some 0x55, abs := some 0x4D, abx := some 0x5D, aby := some 0x59,
    izx := some 0x41, izy := some 0x51 }

/-- The opcodes of `CMP` in memory forms (R145). -/
def cmpCodes : FormCodes :=
  { zp := some 0xC5, zpx := some 0xD5, abs := some 0xCD, abx := some 0xDD, aby := some 0xD9,
    izx := some 0xC1, izy := some 0xD1 }

/-- The opcodes of `CPX` in memory forms (R146). -/
def cpxCodes : FormCodes := { zp := some 0xE4, abs := some 0xEC }

/-- The opcodes of `CPY` in memory forms (R147). -/
def cpyCodes : FormCodes := { zp := some 0xC4, abs := some 0xCC }

/-- The opcodes of `BIT` in memory forms (R148). -/
def bitCodes : FormCodes := { zp := some 0x24, abs := some 0x2C }

/-- The opcodes of `INC` in memory forms (R149). -/
def incCodes : FormCodes := { zp := some 0xE6, zpx := some 0xF6, abs := some 0xEE, abx := some 0xFE }

/-- The opcodes of `DEC` in memory forms (R150). -/
def decCodes : FormCodes := { zp := some 0xC6, zpx := some 0xD6, abs := some 0xCE, abx := some 0xDE }

/-- The opcodes of `ASL` in memory forms (R161). -/
def aslCodes : FormCodes := { zp := some 0x06, zpx := some 0x16, abs := some 0x0E, abx := some 0x1E }

/-- The opcodes of `LSR` in memory forms (R162). -/
def lsrCodes : FormCodes := { zp := some 0x46, zpx := some 0x56, abs := some 0x4E, abx := some 0x5E }

/-- The opcodes of `ROL` in memory forms (R163). -/
def rolCodes : FormCodes := { zp := some 0x26, zpx := some 0x36, abs := some 0x2E, abx := some 0x3E }

/-- The opcodes of `ROR` in memory forms (R164). -/
def rorCodes : FormCodes := { zp := some 0x66, zpx := some 0x76, abs := some 0x6E, abx := some 0x7E }

/-- The opcodes of `LAX` in memory forms (R200). -/
def laxCodes : FormCodes :=
  { zp := some 0xA7, zpy := some 0xB7, abs := some 0xAF, aby := some 0xBF, izx := some 0xA3,
    izy := some 0xB3 }

/-- The opcodes of `SAX` in memory forms (R201). -/
def saxCodes : FormCodes := { zp := some 0x87, zpy := some 0x97, abs := some 0x8F, izx := some 0x83 }

/-- The opcodes of `SLO` in memory forms (R202). -/
def sloCodes : FormCodes :=
  { zp := some 0x07, zpx := some 0x17, abs := some 0x0F, abx := some 0x1F, aby := some 0x1B,
    izx := some 0x03, izy := some 0x13 }

/-- The opcodes of `RLA` in memory forms (R203). -/
def rlaCodes : FormCodes :=
  { zp := some 0x27, zpx := some 0x37, abs := some 0x2F, abx := some 0x3F, aby := some 0x3B,
    izx := some 0x23, izy := some 0x33 }

/-- The opcodes of `SRE` in memory forms (R204). -/
def sreCodes : FormCodes :=
  { zp := some 0x47, zpx := some 0x57, abs := some 0x4F, abx := some 0x5F, aby := some 0x5B,
    izx := some 0x43, izy := some 0x53 }

/-- The opcodes of `RRA` in memory forms (R205). -/
def rraCodes : FormCodes :=
  { zp := some 0x67, zpx := some 0x77, abs := some 0x6F, abx := some 0x7F, aby := some 0x7B,
    izx := some 0x63, izy := some 0x73 }

/-- The opcodes of `DCP` in memory forms (R206). -/
def dcpCodes : FormCodes :=
  { zp := some 0xC7, zpx := some 0xD7, abs := some 0xCF, abx := some 0xDF, aby := some 0xDB,
    izx := some 0xC3, izy := some 0xD3 }

/-- The opcodes of `ISC` in memory forms (R207). -/
def iscCodes : FormCodes :=
  { zp := some 0xE7, zpx := some 0xF7, abs := some 0xEF, abx := some 0xFF, aby := some 0xFB,
    izx := some 0xE3, izy := some 0xF3 }

/-- The opcode byte of an instruction, from the operand tables of files 40_ to 46_; none for a term that
has no encoding. -/
def Instr.opcode : Instr → Option Byte
  | .lda o => o.code 0xA9 ldaCodes
  | .ldx o => o.code 0xA2 ldxCodes
  | .ldy o => o.code 0xA0 ldyCodes
  | .sta f => staCodes.pick f
  | .stx f => stxCodes.pick f
  | .sty f => styCodes.pick f
  | .adc o => o.code 0x69 adcCodes
  | .sbc o => o.code 0xE9 sbcCodes
  | .and o => o.code 0x29 andCodes
  | .ora o => o.code 0x09 oraCodes
  | .eor o => o.code 0x49 eorCodes
  | .cmp o => o.code 0xC9 cmpCodes
  | .cpx o => o.code 0xE0 cpxCodes
  | .cpy o => o.code 0xC0 cpyCodes
  | .bit f => bitCodes.pick f
  | .inc f => incCodes.pick f
  | .dec f => decCodes.pick f
  | .asl t => t.code 0x0A aslCodes
  | .lsr t => t.code 0x4A lsrCodes
  | .rol t => t.code 0x2A rolCodes
  | .ror t => t.code 0x6A rorCodes
  | .lax f => laxCodes.pick f
  | .sax f => saxCodes.pick f
  | .slo f => sloCodes.pick f
  | .rla f => rlaCodes.pick f
  | .sre f => sreCodes.pick f
  | .rra f => rraCodes.pick f
  | .dcp f => dcpCodes.pick f
  | .isc f => iscCodes.pick f
  | .brk => some 0x00
  | .php => some 0x08
  | .bpl _ => some 0x10
  | .clc => some 0x18
  | .jsr _ => some 0x20
  | .plp => some 0x28
  | .bmi _ => some 0x30
  | .sec => some 0x38
  | .rti => some 0x40
  | .pha => some 0x48
  | .jmp _ => some 0x4C
  | .bvc _ => some 0x50
  | .cli => some 0x58
  | .rts => some 0x60
  | .pla => some 0x68
  | .jmpInd _ => some 0x6C
  | .bvs _ => some 0x70
  | .sei => some 0x78
  | .dey => some 0x88
  | .txa => some 0x8A
  | .bcc _ => some 0x90
  | .tya => some 0x98
  | .txs => some 0x9A
  | .tay => some 0xA8
  | .tax => some 0xAA
  | .bcs _ => some 0xB0
  | .clv => some 0xB8
  | .tsx => some 0xBA
  | .iny => some 0xC8
  | .dex => some 0xCA
  | .bne _ => some 0xD0
  | .cld => some 0xD8
  | .inx => some 0xE8
  | .nop => some 0xEA
  | .beq _ => some 0xF0
  | .sed => some 0xF8
  | .nopu opc o => if opc ∈ nopBytes o.mode then some opc else none
  | .sbcu _ => some 0xEB
  | .unassigned opc => if opc ∈ unassignedBytes then some opc else none

/-- The operand bytes of a memory operand, the low byte of an address first (R80, R90). -/
def MemForm.bytes : MemForm → List Byte
  | .zp b1 | .zpx b1 | .zpy b1 | .izx b1 | .izy b1 => [b1]
  | .abs a | .abx a | .aby a => [loByte a, hiByte a]

/-- The operand bytes of a read operand. -/
def Source.bytes : Source → List Byte
  | .imm b1 => [b1]
  | .mem f => f.bytes

/-- The operand bytes of a shift. -/
def Target.bytes : Target → List Byte
  | .acc => []
  | .mem f => f.bytes

/-- The operand bytes of an undocumented `NOP`. -/
def NopOperand.bytes : NopOperand → List Byte
  | .imp => []
  | .src o => o.bytes

/-- The operand bytes of an instruction (R80). -/
def Instr.operandBytes : Instr → List Byte
  | .lda o | .ldx o | .ldy o => o.bytes
  | .adc o | .sbc o | .and o | .ora o | .eor o | .cmp o | .cpx o | .cpy o => o.bytes
  | .sta f | .stx f | .sty f | .bit f | .inc f | .dec f => f.bytes
  | .asl t | .lsr t | .rol t | .ror t => t.bytes
  | .lax f | .sax f | .slo f | .rla f | .sre f | .rra f | .dcp f | .isc f => f.bytes
  | .jmp a | .jmpInd a | .jsr a => [loByte a, hiByte a]
  | .bpl b | .bmi b | .bvc b | .bvs b | .bcc b | .bcs b | .bne b | .beq b => [b]
  | .nopu _ o => o.bytes
  | .sbcu b => [b]
  | .tax | .tay | .txa | .tya | .tsx | .txs | .pha | .php | .pla | .plp
  | .inx | .iny | .dex | .dey | .rts
  | .clc | .sec | .cli | .sei | .clv | .cld | .sed | .nop | .brk | .rti => []
  | .unassigned _ => []

/-- The bytes of an instruction; none for a term that has no encoding. -/
def encode (i : Instr) : Option (List Byte) := i.opcode.map (· :: i.operandBytes)

/-! ## The fields of an Opcode Table entry -/

/-- Base cycles of an instruction that reads a memory operand (tables of R120, R140, R200). -/
def MemForm.readCycles : MemForm → Nat
  | .zp _ => 3
  | .zpx _ | .zpy _ => 4
  | .abs _ | .abx _ | .aby _ => 4
  | .izx _ => 6
  | .izy _ => 5

/-- Base cycles of a store (tables of R123, R201). -/
def MemForm.storeCycles : MemForm → Nat
  | .zp _ => 3
  | .zpx _ | .zpy _ | .abs _ => 4
  | .abx _ | .aby _ => 5
  | .izx _ | .izy _ => 6

/-- Base cycles of a read-modify-write (tables of R149, R161, R208). -/
def MemForm.modifyCycles : MemForm → Nat
  | .zp _ => 5
  | .zpx _ | .zpy _ | .abs _ => 6
  | .abx _ | .aby _ => 7
  | .izx _ | .izy _ => 8

/-- Base cycles of an instruction that reads its operand. -/
def Source.readCycles : Source → Nat
  | .imm _ => 2
  | .mem f => f.readCycles

/-- Base cycles of a shift or rotate (R161). -/
def Target.modifyCycles : Target → Nat
  | .acc => 2
  | .mem f => f.modifyCycles

/-- Base cycles of an undocumented `NOP` (R209). -/
def NopOperand.readCycles : NopOperand → Nat
  | .imp => 2
  | .src o => o.readCycles

/-- The base cycle count of the instruction's entry (R83, R360). A byte without entry has none. -/
def Instr.baseCycles : Instr → Nat
  | .lda o | .ldx o | .ldy o => o.readCycles
  | .adc o | .sbc o | .and o | .ora o | .eor o | .cmp o | .cpx o | .cpy o => o.readCycles
  | .bit f | .lax f => f.readCycles
  | .sta f | .stx f | .sty f | .sax f => f.storeCycles
  | .inc f | .dec f => f.modifyCycles
  | .slo f | .rla f | .sre f | .rra f | .dcp f | .isc f => f.modifyCycles
  | .asl t | .lsr t | .rol t | .ror t => t.modifyCycles
  | .nopu _ o => o.readCycles
  | .sbcu _ => 2
  | .tax | .tay | .txa | .tya | .tsx | .txs | .inx | .iny | .dex | .dey => 2
  | .clc | .sec | .cli | .sei | .clv | .cld | .sed | .nop => 2
  | .bpl _ | .bmi _ | .bvc _ | .bvs _ | .bcc _ | .bcs _ | .bne _ | .beq _ => 2
  | .pha | .php => 3
  | .pla | .plp => 4
  | .jmp _ => 3
  | .jmpInd _ => 5
  | .jsr _ | .rts | .rti => 6
  | .brk => 7
  | .unassigned _ => 0

/-- The derived fifth field of an entry (R97, R102). -/
inductive Penalty where
  | none
  /-- plus 1 when the indexed address crosses a page (R97) -/
  | pageCross
  /-- plus 1 when taken, plus 1 more when the target is on another page (R174) -/
  | branch
  deriving DecidableEq, Repr

/-- The forms whose address can cross a page (R98). -/
def Mode.penalty : Mode → Penalty
  | .abx | .aby | .izy => .pageCross
  | .rel => .branch
  | .imp | .acc | .imm | .zp | .zpx | .zpy | .abs | .izx | .ind => .none

/-- The penalty of an instruction: the read instructions in the forms ABX, ABY, IZY, and the
branches; never a store or a read-modify-write (R97, R361). -/
def Instr.penalty : Instr → Penalty
  | .lda o | .ldx o | .ldy o => o.mode.penalty
  | .adc o | .sbc o | .and o | .ora o | .eor o | .cmp o | .cpx o | .cpy o => o.mode.penalty
  | .bit f | .lax f => f.mode.penalty
  | .nopu _ o => o.mode.penalty
  | .bpl _ | .bmi _ | .bvc _ | .bvs _ | .bcc _ | .bcs _ | .bne _ | .beq _ => .branch
  | .sta _ | .stx _ | .sty _ | .sax _ | .inc _ | .dec _ => .none
  | .asl _ | .lsr _ | .rol _ | .ror _ => .none
  | .slo _ | .rla _ | .sre _ | .rra _ | .dcp _ | .isc _ => .none
  | .tax | .tay | .txa | .tya | .tsx | .txs | .pha | .php | .pla | .plp
  | .inx | .iny | .dex | .dey | .rts | .jmp _ | .jmpInd _ | .jsr _
  | .clc | .sec | .cli | .sei | .clv | .cld | .sed | .nop | .brk | .rti => .none
  | .sbcu _ | .unassigned _ => .none

/-- The mnemonic of an instruction; none for a byte without entry. -/
def Instr.mnemonic : Instr → Option Mnemonic
  | .lda _ => some .LDA
  | .ldx _ => some .LDX
  | .ldy _ => some .LDY
  | .sta _ => some .STA
  | .stx _ => some .STX
  | .sty _ => some .STY
  | .tax => some .TAX
  | .tay => some .TAY
  | .txa => some .TXA
  | .tya => some .TYA
  | .tsx => some .TSX
  | .txs => some .TXS
  | .pha => some .PHA
  | .php => some .PHP
  | .pla => some .PLA
  | .plp => some .PLP
  | .adc _ => some .ADC
  | .sbc _ | .sbcu _ => some .SBC
  | .and _ => some .AND
  | .ora _ => some .ORA
  | .eor _ => some .EOR
  | .cmp _ => some .CMP
  | .cpx _ => some .CPX
  | .cpy _ => some .CPY
  | .bit _ => some .BIT
  | .inc _ => some .INC
  | .dec _ => some .DEC
  | .inx => some .INX
  | .iny => some .INY
  | .dex => some .DEX
  | .dey => some .DEY
  | .asl _ => some .ASL
  | .lsr _ => some .LSR
  | .rol _ => some .ROL
  | .ror _ => some .ROR
  | .jmp _ | .jmpInd _ => some .JMP
  | .jsr _ => some .JSR
  | .rts => some .RTS
  | .bpl _ => some .BPL
  | .bmi _ => some .BMI
  | .bvc _ => some .BVC
  | .bvs _ => some .BVS
  | .bcc _ => some .BCC
  | .bcs _ => some .BCS
  | .bne _ => some .BNE
  | .beq _ => some .BEQ
  | .clc => some .CLC
  | .sec => some .SEC
  | .cli => some .CLI
  | .sei => some .SEI
  | .clv => some .CLV
  | .cld => some .CLD
  | .sed => some .SED
  | .nop | .nopu _ _ => some .NOP
  | .brk => some .BRK
  | .rti => some .RTI
  | .lax _ => some .LAX
  | .sax _ => some .SAX
  | .slo _ => some .SLO
  | .rla _ => some .RLA
  | .sre _ => some .SRE
  | .rra _ => some .RRA
  | .dcp _ => some .DCP
  | .isc _ => some .ISC
  | .unassigned _ => none

/-- The documented/illegal classification (R83, R99). It has no effect on execution (R104). -/
def Instr.documented : Instr → Bool
  | .lax _ | .sax _ | .slo _ | .rla _ | .sre _ | .rra _ | .dcp _ | .isc _ => false
  | .nopu _ _ | .sbcu _ | .unassigned _ => false
  | .lda _ | .ldx _ | .ldy _ | .sta _ | .stx _ | .sty _ => true
  | .tax | .tay | .txa | .tya | .tsx | .txs | .pha | .php | .pla | .plp => true
  | .adc _ | .sbc _ | .and _ | .ora _ | .eor _ | .cmp _ | .cpx _ | .cpy _ | .bit _ => true
  | .inc _ | .dec _ | .inx | .iny | .dex | .dey => true
  | .asl _ | .lsr _ | .rol _ | .ror _ | .jmp _ | .jmpInd _ | .jsr _ | .rts => true
  | .bpl _ | .bmi _ | .bvc _ | .bvs _ | .bcc _ | .bcs _ | .bne _ | .beq _ => true
  | .clc | .sec | .cli | .sei | .clv | .cld | .sed | .nop | .brk | .rti => true

/-- An Opcode Table entry (R83). -/
structure Entry where
  mnemonic : Mnemonic
  mode : Mode
  cycles : Nat
  penalty : Penalty
  documented : Bool
  deriving DecidableEq, Repr

/-- The entry of an opcode byte, or none for the 25 bytes of R108. -/
def opcodeTable (opc : Byte) : Option Entry :=
  let i := instrOf opc 0 0
  i.mnemonic.map fun m =>
    { mnemonic := m, mode := i.mode, cycles := i.baseCycles, penalty := i.penalty,
      documented := i.documented }

/-! ## Words of spec/opcode_table.json -/

/-- The bytes of an instruction whose table bits are `w`: bit 0 of `w` is the least significant bit of
the first byte; bits above `nbits` are zero. -/
def tableBytes (nbits w : Nat) : List Byte :=
  let v := w % 2 ^ nbits
  [BitVec.ofNat 8 v, BitVec.ofNat 8 (v / 256), BitVec.ofNat 8 (v / 65536)]

/-- The instruction the decoder reads from a word numbered as spec/opcode_table.json numbers it. -/
def decodeTableWord (nbits w : Nat) : Option Instr :=
  match decode (tableBytes nbits w) with
  | .ok (i, _) => some i
  | .error _ => none

end Sys2Proof
end

