-- ==== Sys2Proof/Config.lean ====
section
/-! DEFINITION. What is fixed for the machine (the parameters of rule R5 that `State.reset` or the
address map rest on) and its free values: what a device behind the Bus answers (R57, R70). The
parameters that a test could show wrong without touching `State.reset` stand in Machine/Params.lean. -/

namespace Sys2Proof

/-- The two kinds of error the Bus returns (R302). -/
inductive BusErrorKind where
  /-- "address out of any decoded range": no answer of a Bus with the map of R56 (R60, C12) -/
  | outOfRange
  /-- "write to read-only region" -/
  | readOnly
  deriving DecidableEq, Repr, Inhabited

/-- One access that reached a device window (0x2000 to 0x401F, R56). -/
inductive DeviceAccess where
  | read (addr : Addr)
  | write (addr : Addr) (value : Byte)
  deriving DecidableEq, Repr

/-- What a device answers to a read: "a byte decided by a sibling block", or a `BusError` (R57). The
error has no kind of its own: it is what the Bus makes of a refusal (`busRead`). -/
inductive DeviceReply where
  | byte (value : Byte)
  | refused
  deriving DecidableEq, Repr, Inhabited

/-- What a device answers to a write: it takes the byte, or a `BusError` (R57). -/
inductive DeviceAck where
  | taken
  | refused
  deriving DecidableEq, Repr, Inhabited

/-- How much PRG-ROM stands behind 0x8000 to 0xFFFF (R5 `PRG_SIZE`, R56). -/
inductive PrgSize where
  /-- 16 KiB: 0xC000 to 0xFFFF mirrors 0x8000 to 0xBFFF -/
  | kib16
  /-- 32 KiB: no mirror -/
  | kib32
  deriving DecidableEq, Repr

namespace Config

/-- FREE VALUE: the answer to a device read, given every device access before it (newest first) and
the address read. The unconstrained oracle of R57 and R70; assumption 4. -/
opaque deviceRead : List DeviceAccess → Addr → DeviceReply

/-- FREE VALUE: whether a device write is refused with a `BusError` (R57), given every device access
before it, the address and the byte; assumption 5. -/
opaque deviceWrite : List DeviceAccess → Addr → Byte → DeviceAck

/-- `RESET_A` (R5, R36). -/
def resetA : Byte := 0x00

/-- `RESET_X` (R5, R36). -/
def resetX : Byte := 0x00

/-- `RESET_Y` (R5, R36). -/
def resetY : Byte := 0x00

/-- `RESET_S` (R5, R36). -/
def resetS : Byte := 0xFD

end Config
end Sys2Proof
end

