-- ==== Sys2Proof/Machine/State.lean ====
section
/-! DEFINITION. The machine's state, every piece of it the spec names (10_state.md), as plain data; what
a step can stop with; the state after reset and the state at construction. -/

namespace Sys2Proof.Machine

/-- The status register `P`: eight one-bit flags (R24). It is never addressed by number and moves only
as the packed byte of R10, so it is kept as its flags. -/
structure StatusFlags where
  /-- negative, packed bit 7 -/
  n : Bool
  /-- overflow, packed bit 6 -/
  v : Bool
  /-- reserved, packed bit 5; holds 1 (R26) -/
  r : Bool
  /-- break_mode, packed bit 4; holds 0 (R26) -/
  b : Bool
  /-- decimal, packed bit 3; no arithmetic reads it (R27) -/
  d : Bool
  /-- interrupt_disable, packed bit 2; masks the IRQ input -/
  i : Bool
  /-- zero, packed bit 1 -/
  z : Bool
  /-- carry, packed bit 0 -/
  c : Bool
  deriving DecidableEq, Repr

/-- Memory behind the Bus: cell and byte pairs, cells strictly rising, no entry equal to what an
unlisted cell reads as (`Memory.wf` in Ops.lean). -/
abbrev Memory := List Host.Cell

/-- What a step can fault with (R12, R301, R302). A fault has no successor state (R305). -/
inductive Fault where
  /-- `DecodeError(opcode)`: raised by executing a byte with no Opcode Table entry (R301). Safe: it is the
  spec's own fault. -/
  | decodeError (opc : Byte)
  /-- `BusError(kind, addr)`: raised by any bus access to which the Bus returns an error (R60, R302): a write
  to a ROM region (R57), or a device that refuses (R57, assumptions 4 and 5), always with kind `ReadOnly`
  (C12). Safe: it is the spec's own fault. -/
  | busError (kind : BusErrorKind) (addr : Addr)
  deriving DecidableEq, Repr

/-- What a step can refuse. -/
inductive Refusal where
  /-- raised by no arm of `exec` now: every instruction has its meaning. Safe. -/
  | notModelled (mnemonic : String)
  deriving DecidableEq, Repr

/-- The state of the block, and of its environment as far as a step reads it. -/
structure State where
  /-- accumulator `A` (R20) -/
  a : Byte
  /-- index register `X` (R20) -/
  x : Byte
  /-- index register `Y` (R20) -/
  y : Byte
  /-- stack pointer `S` (R21) -/
  sp : Byte
  /-- program counter `PC` (R22) -/
  pc : Addr
  /-- status register `P` (R24) -/
  p : StatusFlags
  /-- latch `reset_pending` (R29) -/
  resetPending : Bool
  /-- `nmi_prev`, the NMI level of the last `signal_nmi` call (R30) -/
  nmiPrev : Bool
  /-- latch `nmi_pending` (R30) -/
  nmiPending : Bool
  /-- latch `brk_pending` (R31) -/
  brkPending : Bool
  /-- the level of the IRQ input (R32): the environment's, read at the start of a step -/
  irqLine : Bool
  /-- RAM and the cartridge's ROM bytes, behind the Bus (R56, R57) -/
  mem : Memory
  /-- how much PRG-ROM the cartridge has (R5 `PRG_SIZE`, R56) -/
  prgSize : PrgSize
  /-- the model's own field: every device access so far, newest first (R62; assumption 6) -/
  deviceLog : List DeviceAccess
  /-- the cycle count that the last step returned (R12, R360; assumption 9) -/
  cycles : Nat
  deriving DecidableEq, Repr

/-- `RESET_P`: packed 0x24, that is `P.R = 1`, `P.I = 1`, the others 0 (R5, R36). -/
def resetP : StatusFlags :=
  { n := false, v := false, r := true, b := false, d := false, i := true, z := false, c := false }

/-- The machine right after the reset sequence (R36). `PC` is what the two vector bytes hold, 0x0000 in
a memory with nothing listed (assumption 2). -/
def State.reset : State where
  a := Config.resetA
  x := Config.resetX
  y := Config.resetY
  sp := Config.resetS
  pc := 0x0000
  p := resetP
  resetPending := false
  nmiPrev := false
  nmiPending := false
  brkPending := false
  irqLine := false
  mem := []
  prgSize := .kib32
  deviceLog := []
  cycles := 0

/-- The state at construction, before the first step (R37, R340). `PC` is unspecified there: it is an
argument, and no rule reads it. -/
def State.construct (pc : Addr) : State :=
  { State.reset with pc := pc, resetPending := true }

end Sys2Proof.Machine
end

