-- ==== Sys2Proof/Machine/Flags.lean ====
section
/-! DEFINITION. Every flag computation of the spec: the packed status byte (R10), `SetNZ` (R9), the three
ALU helpers (R156 to R158), the four shift helpers (R160), and `BIT` (R148). -/

namespace Sys2Proof.Machine

/-- `v[7]`, the sign bit of a byte. -/
def bit7 (v : Byte) : Bool := v.getLsbD 7

/-- `Pack(b)`: the packed status byte with bit `b` in place of `P.B` (R10). -/
def StatusFlags.pack (p : StatusFlags) (b : Bool) : Byte :=
  BitVec.ofBool p.n ++ BitVec.ofBool p.v ++ BitVec.ofBool p.r ++ BitVec.ofBool b ++
    BitVec.ofBool p.d ++ BitVec.ofBool p.i ++ BitVec.ofBool p.z ++ BitVec.ofBool p.c

/-- `Unpack(v)`: loads six flags and leaves `P.R` and `P.B` (R10, D7). -/
def StatusFlags.unpack (p : StatusFlags) (v : Byte) : StatusFlags :=
  { n := v.getLsbD 7, v := v.getLsbD 6, r := p.r, b := p.b,
    d := v.getLsbD 3, i := v.getLsbD 2, z := v.getLsbD 1, c := v.getLsbD 0 }

/-- The flags after `SetNZ(v)` (R9). -/
def StatusFlags.setNZ (p : StatusFlags) (v : Byte) : StatusFlags :=
  { p with n := bit7 v, z := v == 0 }

/-- `SetNZ(v)` on the state (R9). -/
def State.setNZ (s : State) (v : Byte) : State := { s with p := s.p.setNZ v }

/-- `A <- v; SetNZ(A)`. -/
def State.loadA (s : State) (v : Byte) : State := { s with a := v }.setNZ v

/-- `AddWithCarry(m)` (R156): `sum` is unbounded, `P.V` compares the sign bits only, `P.D` is not read. -/
def addWithCarry (m : Byte) (s : State) : State :=
  let sum := s.a.toNat + m.toNat + s.p.c.toNat
  let r : Byte := BitVec.ofNat 8 sum
  { s with
    a := r
    p := { s.p.setNZ r with
      c := decide (0xFF < sum)
      v := bit7 ((s.a ^^^ r) &&& (m ^^^ r)) } }

/-- `SubWithBorrow(m)` (R157): `diff` is unbounded; `P.C = 1` means no borrow. -/
def subWithBorrow (m : Byte) (s : State) : State :=
  let diff : Int := (s.a.toNat : Int) - m.toNat - (1 - s.p.c.toNat)
  let r : Byte := BitVec.ofInt 8 diff
  { s with
    a := r
    p := { s.p.setNZ r with
      c := decide (0 ≤ diff)
      v := bit7 ((s.a ^^^ m) &&& (s.a ^^^ r)) } }

/-- `Compare(reg, m)` (R158): an unsigned comparison; no register changes. -/
def compare (reg m : Byte) (s : State) : State :=
  { s with p := { s.p.setNZ (reg - m) with c := decide (m.toNat ≤ reg.toNat) } }

/-- `BIT`: `P.Z` from `A & M`, `P.N` and `P.V` from bits 7 and 6 of the operand (R148). -/
def bitTest (m : Byte) (s : State) : State :=
  { s with p := { s.p with z := s.a &&& m == 0, n := m.getLsbD 7, v := m.getLsbD 6 } }

/-- `P.C <- c`. -/
def State.setC (s : State) (c : Bool) : State := { s with p := { s.p with c := c } }

/-- A bit as the byte 0 or 1. -/
def bitByte (c : Bool) : Byte := (BitVec.ofBool c).setWidth 8

/-- `ShiftLeft(v)` (R160): bit 7 goes to `P.C`, 0 comes in at bit 0. -/
def shiftLeft (v : Byte) (s : State) : Byte × State := (v <<< 1, s.setC (bit7 v))

/-- `ShiftRight(v)` (R160): bit 0 goes to `P.C`, 0 comes in at bit 7. -/
def shiftRight (v : Byte) (s : State) : Byte × State := (v >>> 1, s.setC (v.getLsbD 0))

/-- `RotateLeft(v)` (R160): bit 7 goes to `P.C`, the old `P.C` comes in at bit 0. -/
def rotateLeft (v : Byte) (s : State) : Byte × State :=
  ((v <<< 1) ||| bitByte s.p.c, s.setC (bit7 v))

/-- `RotateRight(v)` (R160): bit 0 goes to `P.C`, the old `P.C` comes in at bit 7. -/
def rotateRight (v : Byte) (s : State) : Byte × State :=
  ((v >>> 1) ||| (bitByte s.p.c <<< 7), s.setC (v.getLsbD 0))

/-- `v +_8 1`, as a memory operation that sets no flag of its own (R149, R207). -/
def increment (v : Byte) (s : State) : Byte × State := (v + 1, s)

/-- `v -_8 1` (R150, R206). -/
def decrement (v : Byte) (s : State) : Byte × State := (v - 1, s)

end Sys2Proof.Machine
end

