-- ==== Sys2Proof/Machine/Params.lean ====
section
/-! DEFINITION. The implementation parameters of rule R5 that are not needed to write `State.reset`. Each
is at the value the spec gives or decides for it (assumption 3). -/

namespace Sys2Proof.Machine

/-- `VEC_NMI`, low byte of the pair (R5, R310); the high byte is at the next address (R54). -/
def vecNmi : Addr := 0xFFFA

/-- `VEC_RESET`, low byte of the pair (R5, R310). -/
def vecReset : Addr := 0xFFFC

/-- `VEC_IRQ`, low byte of the pair, for IRQ and BRK (R5, R310). -/
def vecIrq : Addr := 0xFFFE

/-- `STACK_BASE` (R5, D4). -/
def stackBase : Addr := 0x0100

/-- `RESET_CYCLES` (R5, R343, D2). -/
def resetCycles : Nat := 0

/-- `BRK_PAD`: bytes that `BRK` skips after its opcode (R5, R194, D10). -/
def brkPad : Addr := 1

/-- `NOP_READS_OPERAND`: whether an undocumented `NOP` with a memory operand reads it (R5, R209, D14). -/
def nopReadsOperand : Bool := false

end Sys2Proof.Machine
end

