-- ==== Sys2Proof/Machine/Ops.lean ====
section
/-! DEFINITION. The named operations over memory and registers: the address map (R56), memory, the bus
accesses `MemRead` and `MemWrite` (R8, R57), the stack (R11), taking an interrupt (R316) and the return
from one (R195), the reset sequence (R341), and which of them a step takes (R300, R315). -/

namespace Sys2Proof.Machine

/-! ## Outcomes -/

/-- What a meaning answers. -/
abbrev Out := Host.Outcome State Fault Refusal

/-- What an operation inside a step answers: a value and the state after it, or the fault that ends the
step at that point (R8). -/
abbrev Access (α : Type) := Except Fault (α × State)

/-- The operation succeeded. -/
def answer {α : Type} (v : α) (s : State) : Access α := .ok (v, s)

/-- One operation after another: accesses happen in the order they are written (R62). -/
def chain {α β : Type} (r : Access α) (k : α → State → Access β) : Access β :=
  match r with
  | .ok (v, s) => k v s
  | .error f => .error f

/-- An operation, then the rest of the meaning. -/
def andThen {α : Type} (r : Access α) (k : α → State → Out) : Out :=
  match r with
  | .ok (v, s) => k v s
  | .error f => .fault f

/-- `Next(state', cycles)` (R12): the count is put where the host reads it. -/
def done (cycles : Nat) (s : State) : Out := .next { s with cycles := cycles }

/-! ## The address map -/

/-- The regions of the CPU address map (R56). -/
inductive Region where
  /-- 0x0000 to 0x1FFF: 2 KiB of RAM and its mirrors -/
  | wram
  /-- 0x2000 to 0x3FFF: the PPU register window, a device -/
  | ppu
  /-- 0x4000 to 0x401F: the APU/IO shadow with OAMDMA and the controller ports, a device -/
  | io
  /-- 0x4020 to 0x5FFF: expansion ROM -/
  | expansionRom
  /-- 0x6000 to 0x7FFF: expansion RAM -/
  | expansionRam
  /-- 0x8000 to 0xFFFF: PRG-ROM -/
  | prgRom
  deriving DecidableEq, Repr

/-- The three classes of a region (R57). -/
inductive RegionClass where
  | ram | rom | device
  deriving DecidableEq, Repr

/-- Which region an address lies in. The map covers every address (R56, R60). -/
def region (a : Addr) : Region :=
  let n := a.toNat
  if n < 0x2000 then .wram
  else if n < 0x4000 then .ppu
  else if n < 0x4020 then .io
  else if n < 0x6000 then .expansionRom
  else if n < 0x8000 then .expansionRam
  else .prgRom

/-- The class column of R56. -/
def Region.cls : Region → RegionClass
  | .wram | .expansionRam => .ram
  | .expansionRom | .prgRom => .rom
  | .ppu | .io => .device

/-- The class of an address. -/
def classOf (a : Addr) : RegionClass := (region a).cls

/-- The cell behind a RAM or ROM address: the mirrors of WRAM (`a & 0x07FF`) and of a 16 KiB PRG-ROM are
one cell (R56). -/
def cellOf (prg : PrgSize) (a : Addr) : Nat :=
  match region a, prg with
  | .wram, _ => a.toNat % 0x800
  | .prgRom, .kib16 => 0x8000 + a.toNat % 0x4000
  | .prgRom, .kib32 => a.toNat
  | .ppu, _ | .io, _ | .expansionRom, _ | .expansionRam, _ => a.toNat

/-! ## Memory -/

/-- What a cell that nothing lists reads as (assumption 1). -/
def Memory.unlisted : Byte := 0x00

/-- The byte of a cell. -/
def Memory.read : Memory → Nat → Byte
  | [], _ => Memory.unlisted
  | (k, v) :: m, a => if k = a then v else Memory.read m a

/-- Puts an entry in its place in a sorted list, or leaves it out when it says what an unlisted cell
says anyway. -/
def Memory.entry (a : Nat) (b : Byte) (m : Memory) : Memory :=
  if b = Memory.unlisted then m else (a, b) :: m

/-- The memory with one cell written, in the canonical form. -/
def Memory.write : Memory → Nat → Byte → Memory
  | [], a, b => Memory.entry a b []
  | (k, v) :: m, a, b =>
    if a < k then Memory.entry a b ((k, v) :: m)
    else if a = k then Memory.entry a b m
    else (k, v) :: Memory.write m a b

/-- Every cell of the list is above `lo`. -/
def Memory.above (lo : Nat) (m : Memory) : Bool := m.all fun e => decide (lo < e.1)

/-- The canonical form: cells strictly rising, no entry equal to what an unlisted cell reads as. -/
def Memory.wf : Memory → Bool
  | [] => true
  | (k, v) :: m => decide (v ≠ Memory.unlisted) && Memory.above k m && Memory.wf m

/-- The number is a cell of the address map: some RAM or ROM address stands for it (R56). -/
def isCell (prg : PrgSize) (k : Nat) : Bool :=
  decide (k < 0x800) || (decide (0x4020 ≤ k) && decide (k < 0x8000)) ||
    (decide (0x8000 ≤ k) && decide (k < (match prg with | .kib16 => 0xC000 | .kib32 => 0x10000)))

/-- Every listed cell is a cell of the address map. -/
def Memory.mapped (prg : PrgSize) (m : Memory) : Bool := m.all fun e => isCell prg e.1

/-- The byte of RAM or ROM at an address, as a bus read would return it; none for a device. -/
def State.peek (s : State) (a : Addr) : Option Byte :=
  match classOf a with
  | .ram | .rom => some (s.mem.read (cellOf s.prgSize a))
  | .device => none

/-- The byte placed at a RAM or ROM address from outside the machine: the cartridge image and the launch
memory (R57, R346). Nothing happens for a device address. -/
def State.poke (s : State) (a : Addr) (b : Byte) : State :=
  match classOf a with
  | .ram | .rom => { s with mem := s.mem.write (cellOf s.prgSize a) b }
  | .device => s

/-! ## Bus accesses -/

/-- What the Bus returns to one access: a value and what the access leaves, or an error (R70). -/
abbrev BusReply (α : Type) := Except BusErrorKind (α × State)

/-- `read_cpu` of the Bus: RAM and ROM return their byte, a device is asked (R57). The map covers every
address, so `OutOfRange` is no answer of it, and an error is `ReadOnly` (R60, C12). -/
def busRead (a : Addr) (s : State) : BusReply Byte :=
  match classOf a with
  | .ram | .rom => .ok (s.mem.read (cellOf s.prgSize a), s)
  | .device =>
    match Config.deviceRead s.deviceLog a with
    | .byte v => .ok (v, { s with deviceLog := .read a :: s.deviceLog })
    | .refused => .error .readOnly

/-- `write_cpu` of the Bus: RAM keeps the byte, ROM is an error, a device is told (R57); as for a read,
`OutOfRange` is no answer of it (R60, C12). -/
def busWrite (a : Addr) (v : Byte) (s : State) : BusReply Unit :=
  match classOf a with
  | .ram => .ok ((), { s with mem := s.mem.write (cellOf s.prgSize a) v })
  | .rom => .error .readOnly
  | .device =>
    match Config.deviceWrite s.deviceLog a v with
    | .taken => .ok ((), { s with deviceLog := .write a v :: s.deviceLog })
    | .refused => .error .readOnly

/-- The CPU's side of an access: whatever error the Bus returns ends the step (R8, R60, R302). -/
def onBus {α : Type} (a : Addr) (r : BusReply α) : Access α :=
  match r with
  | .ok x => .ok x
  | .error kind => .error (.busError kind a)

/-- `MemRead(addr, 1)` (R8). -/
def memRead (a : Addr) (s : State) : Access Byte := onBus a (busRead a s)

/-- `MemWrite(addr, 1, v)` (R8). -/
def memWrite (a : Addr) (v : Byte) (s : State) : Access Unit := onBus a (busWrite a v s)

/-- Two byte reads, the low byte first, as one 16-bit value (R54, R62). -/
def readPair (lo hi : Addr) (s : State) : Access Addr :=
  chain (memRead lo s) fun l s =>
  chain (memRead hi s) fun h s =>
  answer (addrOf l h) s

/-! ## The stack -/

/-- `zext_16(v)` (R6). -/
def zext16 (v : Byte) : Addr := v.setWidth 16

/-- The address of the stack byte that `S` names (R11, R21). -/
def stackAddr (sp : Byte) : Addr := stackBase + zext16 sp

/-- `Push(v)`: write, then decrement (R11). -/
def push (v : Byte) (s : State) : Access Unit :=
  chain (memWrite (stackAddr s.sp) v s) fun _ s =>
  answer () { s with sp := s.sp - 1 }

/-- `Pop()`: increment, then read (R11). -/
def pop (s : State) : Access Byte :=
  let sp := s.sp + 1
  memRead (stackAddr sp) { s with sp := sp }

/-- Two pushes, the high byte first, so that it lies at the higher address (R54, R172, R316). -/
def pushAddr (v : Addr) (s : State) : Access Unit :=
  chain (push (hiByte v) s) fun _ s =>
  push (loByte v) s

/-- Two pops, the low byte first (R173, R195). -/
def popAddr (s : State) : Access Addr :=
  chain (pop s) fun lo s =>
  chain (pop s) fun hi s =>
  answer (addrOf lo hi) s

/-! ## Interrupts and reset -/

/-- The three kinds of interrupt entry (R310). -/
inductive InterruptKind where
  | brk | nmi | irq
  deriving DecidableEq, Repr

/-- The vector of an entry (R310, R316). -/
def InterruptKind.vector : InterruptKind → Addr
  | .nmi => vecNmi
  | .brk | .irq => vecIrq

/-- Bit 4 of the status byte an entry pushes (R317). -/
def InterruptKind.pushedB (k : InterruptKind) (p : StatusFlags) : Bool :=
  match k with
  | .brk => true
  | .nmi | .irq => p.b

/-- `INT_CYCLES` (R5, R319, D11). -/
def InterruptKind.cycles : InterruptKind → Nat
  | .nmi | .irq => 7
  | .brk => 0

/-- The latch that an entry serves is cleared; IRQ has none (R316). -/
def State.clearLatch (s : State) : InterruptKind → State
  | .brk => { s with brkPending := false }
  | .nmi => { s with nmiPending := false }
  | .irq => s

/-- `InterruptEntry(kind)` (R316): taking an interrupt, the one operation for all three. -/
def interruptEntry (k : InterruptKind) (s : State) : Out :=
  andThen (pushAddr s.pc s) fun _ s =>
  andThen (push (s.p.pack (k.pushedB s.p)) s) fun _ s =>
  let s := State.clearLatch { s with p := { s.p with i := true } } k
  andThen (readPair k.vector (k.vector + 1) s) fun target s =>
  done k.cycles { s with pc := target }

/-- The return from an interrupt: status, then the address, with nothing added to it (R195, R321). -/
def returnFromInterrupt (s : State) : Out :=
  andThen (pop s) fun v s =>
  andThen (popAddr { s with p := s.p.unpack v }) fun target s =>
  done 6 { s with pc := target }

/-- `ResetSequence()` (R341): the registers rewritten, the latches cleared but `nmi_prev`, `PC` from the
reset vector; nothing is pushed. -/
def resetSequence (s : State) : Out :=
  let s := { s with
    a := Config.resetA, x := Config.resetX, y := Config.resetY, sp := Config.resetS, p := resetP
    resetPending := false, nmiPending := false, brkPending := false }
  andThen (readPair vecReset (vecReset + 1) s) fun target s =>
  done resetCycles { s with pc := target }

/-- The branches of a step that execute no instruction (R300). -/
inductive Event where
  | reset
  | interrupt (k : InterruptKind)
  deriving DecidableEq, Repr

/-- `PRIORITY` (R300, R315): reset, then BRK, then NMI, then IRQ when it is not masked. -/
def pendingEvent (s : State) : Option Event :=
  if s.resetPending then some .reset
  else if s.brkPending then some (.interrupt .brk)
  else if s.nmiPending then some (.interrupt .nmi)
  else if s.irqLine && !s.p.i then some (.interrupt .irq)
  else none

/-- What a pending event does (R300). -/
def Event.serve (e : Event) (s : State) : Out :=
  match e with
  | .reset => resetSequence s
  | .interrupt k => interruptEntry k s

/-! ## Fetching an instruction -/

/-- One instruction byte: read at `PC`, then `PC` incremented (R23, R82). -/
def fetchByte (s : State) : Access Byte :=
  chain (memRead s.pc s) fun v s =>
  answer v { s with pc := s.pc + 1 }

/-- The fetch sequence of R82: the opcode, its table entry, then as many operand bytes as its form has.
After it `PC` is `PC_next`. -/
def fetch (s : State) : Access Instr :=
  chain (fetchByte s) fun opc s =>
  match operandCount opc with
  | 0 => answer (instrOf opc 0 0) s
  | 1 =>
    chain (fetchByte s) fun b1 s =>
    answer (instrOf opc b1 0) s
  | _ =>
    chain (fetchByte s) fun b1 s =>
    chain (fetchByte s) fun b2 s =>
    answer (instrOf opc b1 b2) s

end Sys2Proof.Machine
end

