-- ==== Sys2Proof/Machine/Operands.lean ====
section
/-! DEFINITION. The operand forms: effective addresses and page crossing (R84 to R98), and the three ways
an instruction uses its operand: reading it, storing to it, modifying it in place; and the shape of an instruction
that does each. -/

namespace Sys2Proof.Machine

/-- `sext_16(v)` (R6). -/
def sext16 (v : Byte) : Addr := v.signExtend 16

/-- The high bytes of base and final address differ (R91, R93, R95). -/
def pageCrossed (base final : Addr) : Bool := hiByte base != hiByte final

/-- What a memory form delivers: `ea` and `crossed` (R112). -/
structure Effective where
  ea : Addr
  crossed : Bool
  deriving DecidableEq, Repr

/-- What a read operand delivers: the byte `M` and `crossed`. -/
structure Operand where
  value : Byte
  crossed : Bool
  deriving DecidableEq, Repr

/-- An address indexed by a register, modulo 65536 (R91, R92, R95). -/
def indexed (base : Addr) (index : Byte) : Effective :=
  let ea := base + zext16 index
  { ea := ea, crossed := pageCrossed base ea }

/-- The effective address of a memory form, with the pointer reads of IZX and IZY (R87 to R95). -/
def resolve (f : MemForm) (s : State) : Access Effective :=
  match f with
  | .zp b1 => answer { ea := zext16 b1, crossed := false } s
  | .zpx b1 => answer { ea := zext16 (b1 + s.x), crossed := false } s
  | .zpy b1 => answer { ea := zext16 (b1 + s.y), crossed := false } s
  | .abs a => answer { ea := a, crossed := false } s
  | .abx a => answer (indexed a s.x) s
  | .aby a => answer (indexed a s.y) s
  | .izx b1 =>
    let p := b1 + s.x
    chain (readPair (zext16 p) (zext16 (p + 1)) s) fun a s =>
    answer { ea := a, crossed := false } s
  | .izy b1 =>
    chain (readPair (zext16 b1) (zext16 (b1 + 1)) s) fun base s =>
    answer (indexed base s.y) s

/-- Where a pointer's high byte lies: the next address, without a carry into the next page (R96). -/
def nextInPage (p : Addr) : Addr := addrOf (loByte p + 1) (hiByte p)

/-- The target of `JMP (abs)` (R96). -/
def resolveIndirect (p : Addr) (s : State) : Access Addr := readPair p (nextInPage p) s

/-- The target of a branch, relative to the address after it, and whether it is on another page (R93). -/
def branchTarget (off : Byte) (pcNext : Addr) : Effective :=
  let target := pcNext + sext16 off
  { ea := target, crossed := pageCrossed pcNext target }

/-- The operand byte of a memory form: one read of `ea` (R13). -/
def readMem (f : MemForm) (s : State) : Access Operand :=
  chain (resolve f s) fun e s =>
  chain (memRead e.ea s) fun v s =>
  answer { value := v, crossed := e.crossed } s

/-- The operand byte `M`: the immediate byte itself, or the byte of memory (R13, R86). -/
def readSource (o : Source) (s : State) : Access Operand :=
  match o with
  | .imm b1 => answer { value := b1, crossed := false } s
  | .mem f => readMem f s

/-- A store: one write of `ea`, no read of it (R118). -/
def storeMem (f : MemForm) (v : Byte) (s : State) : Access Unit :=
  chain (resolve f s) fun e s =>
  memWrite e.ea v s

/-- A read-modify-write: one read of `ea`, the operation, one write of `ea`; the byte written is
returned (R62, R149, R159, R208). -/
def modifyMem (f : MemForm) (g : Byte → State → Byte × State) (s : State) : Access Byte :=
  chain (resolve f s) fun e s =>
  chain (memRead e.ea s) fun v s =>
  let r := g v s
  chain (memWrite e.ea r.1 r.2) fun _ s =>
  answer r.1 s

/-- One cycle more when a page was crossed (R97). -/
def crossCycle (crossed : Bool) : Nat := crossed.toNat

/-! ## The three shapes of an instruction with an operand -/

/-- An instruction that reads its operand, works on registers and flags with it, and takes one cycle more
on a page cross (R118, R139). -/
def readThen (o : Source) (g : Byte → State → State) (s : State) : Out :=
  andThen (readSource o s) fun m s => done (o.readCycles + crossCycle m.crossed) (g m.value s)

/-- An instruction that stores a byte, and does nothing else (R118, R123). -/
def storeByte (f : MemForm) (v : Byte) (s : State) : Out :=
  andThen (storeMem f v s) fun _ s => done f.storeCycles s

/-- A read-modify-write of memory, then what the instruction does with the byte written (R149, R159,
R208). -/
def modifyThen (f : MemForm) (g : Byte → State → Byte × State) (k : Byte → State → State)
    (s : State) : Out :=
  andThen (modifyMem f g s) fun r s => done f.modifyCycles (k r s)

end Sys2Proof.Machine

namespace Sys2Proof

/-- The memory operand of a read, if it has one. -/
def Source.memForm : Source → Option MemForm
  | .imm _ => none
  | .mem f => some f

/-- The memory operand of a shift, if it has one. -/
def Target.memForm : Target → Option MemForm
  | .acc => none
  | .mem f => some f

/-- The memory operand of an undocumented `NOP`, if it has one. -/
def NopOperand.memForm : NopOperand → Option MemForm
  | .imp => none
  | .src o => o.memForm

/-- The memory operand of an instruction, if it has one: what R97's `crossed` is about. -/
def Instr.memForm : Instr → Option MemForm
  | .lda o | .ldx o | .ldy o => o.memForm
  | .adc o | .sbc o | .and o | .ora o | .eor o | .cmp o | .cpx o | .cpy o => o.memForm
  | .sta f | .stx f | .sty f | .bit f | .inc f | .dec f => some f
  | .asl t | .lsr t | .rol t | .ror t => t.memForm
  | .lax f | .sax f | .slo f | .rla f | .sre f | .rra f | .dcp f | .isc f => some f
  | .nopu _ o => o.memForm
  | .jmp _ | .jsr _ | .jmpInd _ | .sbcu _ | .unassigned _ => none
  | .bpl _ | .bmi _ | .bvc _ | .bvs _ | .bcc _ | .bcs _ | .bne _ | .beq _ => none
  | .tax | .tay | .txa | .tya | .tsx | .txs | .pha | .php | .pla | .plp
  | .inx | .iny | .dex | .dey | .rts
  | .clc | .sec | .cli | .sei | .clv | .cld | .sed | .nop | .brk | .rti => none

end Sys2Proof
end

