-- ==== Sys2Proof/Machine/Arith.lean ====
section
/-! DEFINITION. Arithmetic, logic, compare, increment and decrement (42_arithmetic_logic.md). -/

namespace Sys2Proof.Machine

/-- `ADC` (R140). -/
def execAdc (o : Source) (s : State) : Out := readThen o addWithCarry s

/-- `SBC` (R141). -/
def execSbc (o : Source) (s : State) : Out := readThen o subWithBorrow s

/-- `AND` (R142). -/
def execAnd (o : Source) (s : State) : Out := readThen o (fun m s => s.loadA (s.a &&& m)) s

/-- `ORA` (R143). -/
def execOra (o : Source) (s : State) : Out := readThen o (fun m s => s.loadA (s.a ||| m)) s

/-- `EOR` (R144). -/
def execEor (o : Source) (s : State) : Out := readThen o (fun m s => s.loadA (s.a ^^^ m)) s

/-- `CMP` (R145). -/
def execCmp (o : Source) (s : State) : Out := readThen o (fun m s => compare s.a m s) s

/-- `CPX` (R146). -/
def execCpx (o : Source) (s : State) : Out := readThen o (fun m s => compare s.x m s) s

/-- `CPY` (R147). -/
def execCpy (o : Source) (s : State) : Out := readThen o (fun m s => compare s.y m s) s

/-- `BIT` (R148). -/
def execBit (f : MemForm) (s : State) : Out := readThen (.mem f) bitTest s

/-- `INC` (R149). -/
def execInc (f : MemForm) (s : State) : Out :=
  modifyThen f increment (fun r s => s.setNZ r) s

/-- `DEC` (R150). -/
def execDec (f : MemForm) (s : State) : Out :=
  modifyThen f decrement (fun r s => s.setNZ r) s

/-- `INX` (R151). -/
def execInx (s : State) : Out := done 2 ({ s with x := s.x + 1 }.setNZ (s.x + 1))

/-- `INY` (R152). -/
def execIny (s : State) : Out := done 2 ({ s with y := s.y + 1 }.setNZ (s.y + 1))

/-- `DEX` (R153). -/
def execDex (s : State) : Out := done 2 ({ s with x := s.x - 1 }.setNZ (s.x - 1))

/-- `DEY` (R154). -/
def execDey (s : State) : Out := done 2 ({ s with y := s.y - 1 }.setNZ (s.y - 1))

end Sys2Proof.Machine
end

