-- ==== Sys2Proof/Machine/Control.lean ====
section
/-! DEFINITION. Jumps, subroutine call and return, conditional branches (44_control_flow.md). -/

namespace Sys2Proof.Machine

/-- `JMP` absolute (R170). -/
def execJmp (a : Addr) (s : State) : Out := done 3 { s with pc := a }

/-- `JMP` indirect (R171). -/
def execJmpInd (p : Addr) (s : State) : Out :=
  andThen (resolveIndirect p s) fun target s => done 5 { s with pc := target }

/-- `JSR`: pushes the address of its own last byte (R172). -/
def execJsr (a : Addr) (s : State) : Out :=
  andThen (pushAddr (s.pc - 1) s) fun _ s => done 6 { s with pc := a }

/-- `RTS`: adds 1 to the popped address (R173). -/
def execRts (s : State) : Out :=
  andThen (popAddr s) fun target s => done 6 { s with pc := target + 1 }

/-- The common rule of the branches (R174): taken, 1 cycle more, and 1 more on a page cross. -/
def branchIf (cond : Bool) (off : Byte) (s : State) : Out :=
  if cond then
    let e := branchTarget off s.pc
    done (2 + 1 + crossCycle e.crossed) { s with pc := e.ea }
  else done 2 s

/-- `BPL` (R175). -/
def execBpl (off : Byte) (s : State) : Out := branchIf (!s.p.n) off s

/-- `BMI` (R176). -/
def execBmi (off : Byte) (s : State) : Out := branchIf s.p.n off s

/-- `BVC` (R177). -/
def execBvc (off : Byte) (s : State) : Out := branchIf (!s.p.v) off s

/-- `BVS` (R178). -/
def execBvs (off : Byte) (s : State) : Out := branchIf s.p.v off s

/-- `BCC` (R179). -/
def execBcc (off : Byte) (s : State) : Out := branchIf (!s.p.c) off s

/-- `BCS` (R180). -/
def execBcs (off : Byte) (s : State) : Out := branchIf s.p.c off s

/-- `BNE` (R181). -/
def execBne (off : Byte) (s : State) : Out := branchIf (!s.p.z) off s

/-- `BEQ` (R182). -/
def execBeq (off : Byte) (s : State) : Out := branchIf s.p.z off s

end Sys2Proof.Machine
end

