-- ==== Sys2Proof/Machine/FlagSystem.lean ====
section
/-! DEFINITION. Flag instructions, `NOP`, `BRK` and `RTI` (45_flags_system.md). -/

namespace Sys2Proof.Machine

/-- `CLC` (R185). -/
def execClc (s : State) : Out := done 2 { s with p := { s.p with c := false } }

/-- `SEC` (R186). -/
def execSec (s : State) : Out := done 2 { s with p := { s.p with c := true } }

/-- `CLI` (R187). -/
def execCli (s : State) : Out := done 2 { s with p := { s.p with i := false } }

/-- `SEI` (R188). -/
def execSei (s : State) : Out := done 2 { s with p := { s.p with i := true } }

/-- `CLV` (R189). -/
def execClv (s : State) : Out := done 2 { s with p := { s.p with v := false } }

/-- `CLD` (R190). -/
def execCld (s : State) : Out := done 2 { s with p := { s.p with d := false } }

/-- `SED` (R191). -/
def execSed (s : State) : Out := done 2 { s with p := { s.p with d := true } }

/-- `NOP`, byte 0xEA (R192). -/
def execNop (s : State) : Out := done 2 s

/-- `BRK`: skips the padding byte and latches `brk_pending`; the entry is the next step (R194). -/
def execBrk (s : State) : Out := done 7 { s with pc := s.pc + brkPad, brkPending := true }

/-- `RTI` (R195). -/
def execRti (s : State) : Out := returnFromInterrupt s

end Sys2Proof.Machine
end

