-- ==== Sys2Proof/Machine/LoadStore.lean ====
section
/-! DEFINITION. Loads, stores and register transfers (40_load_store_transfer.md). Every meaning runs in a
state whose `PC` is already `PC_next` (R23, R82). -/

namespace Sys2Proof.Machine

/-- `LDA` (R120). -/
def execLda (o : Source) (s : State) : Out :=
  readThen o (fun m s => { s with a := m }.setNZ m) s

/-- `LDX` (R121). -/
def execLdx (o : Source) (s : State) : Out :=
  readThen o (fun m s => { s with x := m }.setNZ m) s

/-- `LDY` (R122). -/
def execLdy (o : Source) (s : State) : Out :=
  readThen o (fun m s => { s with y := m }.setNZ m) s

/-- `STA` (R123). -/
def execSta (f : MemForm) (s : State) : Out := storeByte f s.a s

/-- `STX` (R124). -/
def execStx (f : MemForm) (s : State) : Out := storeByte f s.x s

/-- `STY` (R125). -/
def execSty (f : MemForm) (s : State) : Out := storeByte f s.y s

/-- `TAX` (R126). -/
def execTax (s : State) : Out := done 2 ({ s with x := s.a }.setNZ s.a)

/-- `TAY` (R127). -/
def execTay (s : State) : Out := done 2 ({ s with y := s.a }.setNZ s.a)

/-- `TXA` (R128). -/
def execTxa (s : State) : Out := done 2 ({ s with a := s.x }.setNZ s.x)

/-- `TYA` (R129). -/
def execTya (s : State) : Out := done 2 ({ s with a := s.y }.setNZ s.y)

/-- `TSX` (R130). -/
def execTsx (s : State) : Out := done 2 ({ s with x := s.sp }.setNZ s.sp)

/-- `TXS`: the transfer that sets no flag (R131). -/
def execTxs (s : State) : Out := done 2 { s with sp := s.x }

end Sys2Proof.Machine
end

