-- ==== Sys2Proof/Machine/Shift.lean ====
section
/-! DEFINITION. Shifts and rotates (43_shift_rotate.md). -/

namespace Sys2Proof.Machine

/-- A shift or rotate of the accumulator or of a byte of memory, then `SetNZ` of the result (R159). -/
def shiftBy (g : Byte → State → Byte × State) (t : Target) (s : State) : Out :=
  match t with
  | .acc =>
    let r := g s.a s
    done t.modifyCycles ({ r.2 with a := r.1 }.setNZ r.1)
  | .mem f => modifyThen f g (fun r s => s.setNZ r) s

/-- `ASL` (R161). -/
def execAsl (t : Target) (s : State) : Out := shiftBy shiftLeft t s

/-- `LSR` (R162). -/
def execLsr (t : Target) (s : State) : Out := shiftBy shiftRight t s

/-- `ROL` (R163). -/
def execRol (t : Target) (s : State) : Out := shiftBy rotateLeft t s

/-- `ROR` (R164). -/
def execRor (t : Target) (s : State) : Out := shiftBy rotateRight t s

end Sys2Proof.Machine
end

