-- ==== Sys2Proof/Machine/Stack.lean ====
section
/-! DEFINITION. The stack instructions (41_stack.md). -/

namespace Sys2Proof.Machine

/-- `PHA` (R135). -/
def execPha (s : State) : Out :=
  andThen (push s.a s) fun _ s => done 3 s

/-- `PHP`: pushes the packed status with bit 4 forced to 1 (R136). -/
def execPhp (s : State) : Out :=
  andThen (push (s.p.pack true) s) fun _ s => done 3 s

/-- `PLA` (R137). -/
def execPla (s : State) : Out :=
  andThen (pop s) fun v s => done 4 ({ s with a := v }.setNZ v)

/-- `PLP`: bits 5 and 4 of the popped byte are not loaded (R138). -/
def execPlp (s : State) : Out :=
  andThen (pop s) fun v s => done 4 { s with p := s.p.unpack v }

end Sys2Proof.Machine
end

