-- ==== Sys2Proof/Machine/Undocumented.lean ====
section
/-! DEFINITION. The undocumented instructions of the Opcode Table, and the bytes without an entry
(46_undocumented.md, R108). -/

namespace Sys2Proof.Machine

/-- `LAX`: one operand read, into `A` and `X` (R200). -/
def execLax (f : MemForm) (s : State) : Out :=
  readThen (.mem f) (fun m s => { s with a := m, x := m }.setNZ m) s

/-- `SAX`: stores `A & X` (R201). -/
def execSax (f : MemForm) (s : State) : Out := storeByte f (s.a &&& s.x) s

/-- `SLO` (R202). -/
def execSlo (f : MemForm) (s : State) : Out :=
  modifyThen f shiftLeft (fun r s => s.loadA (s.a ||| r)) s

/-- `RLA` (R203). -/
def execRla (f : MemForm) (s : State) : Out :=
  modifyThen f rotateLeft (fun r s => s.loadA (s.a &&& r)) s

/-- `SRE` (R204). -/
def execSre (f : MemForm) (s : State) : Out :=
  modifyThen f shiftRight (fun r s => s.loadA (s.a ^^^ r)) s

/-- `RRA` (R205). -/
def execRra (f : MemForm) (s : State) : Out := modifyThen f rotateRight addWithCarry s

/-- `DCP` (R206). -/
def execDcp (f : MemForm) (s : State) : Out :=
  modifyThen f decrement (fun r s => compare s.a r s) s

/-- `ISC` (R207). -/
def execIsc (f : MemForm) (s : State) : Out := modifyThen f increment subWithBorrow s

/-- What an undocumented `NOP` does with its operand (R209): the address is resolved, and the byte there
is read and dropped if `NOP_READS_OPERAND` says so. It delivers `crossed`. -/
def nopOperand (o : NopOperand) (s : State) : Access Bool :=
  match o with
  | .imp | .src (.imm _) => answer false s
  | .src (.mem f) =>
    if nopReadsOperand then chain (readMem f s) fun m s => answer m.crossed s
    else chain (resolve f s) fun e s => answer e.crossed s

/-- An undocumented `NOP` (R209). -/
def execNopu (o : NopOperand) (s : State) : Out :=
  andThen (nopOperand o s) fun crossed s => done (o.readCycles + crossCycle crossed) s

/-- The undocumented `SBC #`, byte 0xEB (R210). -/
def execSbcu (b1 : Byte) (s : State) : Out := readThen (.imm b1) subWithBorrow s

/-- A byte with no Opcode Table entry: `raise DecodeError(opc)` (R108, R301). -/
def execUnassigned (opc : Byte) (_ : State) : Out := .fault (.decodeError opc)

end Sys2Proof.Machine
end

