-- ==== Sys2Proof/Machine/Step.lean ====
section
/-! DEFINITION. One step of the CPU (R300), and the word the host places for it to fetch. -/

namespace Sys2Proof.Machine

/-- `Step()` (R300): a pending event, or the fetch, decode and execution of one whole instruction. -/
def step (s : State) : Host.Outcome State Fault Refusal :=
  match pendingEvent s with
  | some e => e.serve s
  | none => andThen (fetch s) fun i s => exec i s

/-- Nothing is pending, so that the next step fetches; and if one of the next three addresses is a
device's, which holds no bytes, `PC` is moved to 0x0000 (assumption 19). -/
def State.readyToFetch (s : State) : State :=
  let pc := if [s.pc, s.pc + 1, s.pc + 2].any (fun a => classOf a = .device) then 0x0000 else s.pc
  { s with resetPending := false, brkPending := false, nmiPending := false, irqLine := false, pc := pc }

/-- The state with a word of spec/opcode_table.json placed where `step` fetches its next instruction,
whether that is RAM or the cartridge's ROM. -/
def State.withFetchWord (s : State) (nbits w : Nat) : State :=
  let s := s.readyToFetch
  match tableBytes nbits w with
  | [b0, b1, b2] => ((s.poke s.pc b0).poke (s.pc + 1) b1).poke (s.pc + 2) b2
  | _ => s

end Sys2Proof.Machine
end

