-- ==== Sys2Proof/Machine/HostActions.lean ====
section
/-! DEFINITION. What the host may do to the block between two steps (R330). A step performs none of it. -/

namespace Sys2Proof.Machine

/-- The host's actions (R330). Stopping the session and advancing the PPU do nothing to the block. -/
inductive HostAction where
  /-- `signal_nmi(active)` through the Bus -/
  | signalNmi (active : Bool)
  /-- the level of the IRQ input -/
  | setIrqLine (level : Bool)
  /-- the reset request -/
  | requestReset
  /-- overwriting the registers (R38) -/
  | setRegisters (a x y sp : Byte) (pc : Addr) (p : StatusFlags)
  deriving DecidableEq, Repr

/-- `signal_nmi(active)`: the edge detector (R311). -/
def State.signalNmi (s : State) (active : Bool) : State :=
  { s with nmiPending := s.nmiPending || (active && !s.nmiPrev), nmiPrev := active }

/-- What a host action does (R311, R312, R314, R38). -/
def HostAction.apply (h : HostAction) (s : State) : State :=
  match h with
  | .signalNmi active => s.signalNmi active
  | .setIrqLine level => { s with irqLine := level }
  | .requestReset => { s with resetPending := true }
  | .setRegisters a x y sp pc p => { s with a := a, x := x, y := y, sp := sp, pc := pc, p := p }

end Sys2Proof.Machine
end

