-- ==== Sys2Proof/Safety.lean ====
section
/-! DEFINITION. What counts as a safe run, in the terms the claims use: the invariant of the machine, what
can happen to it, and what it means that a memory is unchanged. -/

namespace Sys2Proof.Machine

/-- The invariant of the machine: the two flags that hold constants (R26), and the canonical form of the
memory over the cells of the address map (the model's own, assumption 1). -/
abbrev State.Inv (s : State) : Prop :=
  s.p.r = true ∧ s.p.b = false ∧ s.mem.wf = true ∧ s.mem.mapped s.prgSize = true

/-- Every byte of RAM and ROM reads as before. -/
def SameMemory (s t : State) : Prop := ∀ a, t.peek a = s.peek a

/-- Every byte of RAM and ROM reads as before but the one at `ea` (and its mirrors, which are that
byte, R56). -/
def SameMemoryBut (ea : Addr) (s t : State) : Prop :=
  ∀ a, cellOf s.prgSize a ≠ cellOf s.prgSize ea → t.peek a = s.peek a

/-- One thing that happens: a step of the CPU, or a host action between two steps (R330). -/
inductive Happens (s : State) : State → Prop where
  | step (t : State) (h : Machine.step s = .next t) : Happens s t
  | host (a : HostAction) : Happens s (a.apply s)

/-- What a run can reach (R331): steps and host actions in any order, with no fault on the way. -/
inductive Reaches (s : State) : State → Prop where
  | start : Reaches s s
  | more (t u : State) (h : Reaches s t) (k : Happens t u) : Reaches s u

/-- "No fault" as an obligation on a run of `n` steps (R305). -/
def SafeRun (n : Nat) (s : State) : Prop := ∃ t, Host.Core.run core n s = .next t

end Sys2Proof.Machine
end

