-- ==== Sys2Proof/Certificates/Slice0/Obligations.lean ====
section
/-! DEFINITION. The statements for the provers. The namespace `Sys2Proof.Claims` holds the shapes that
several statements share; each statement is one `def Obligations.<Name> : Prop`. -/

namespace Sys2Proof.Claims

open Sys2Proof.Machine

/-- The 25 bytes of R108, as that rule lists them. -/
def unknownOpcodes : List Byte :=
  [0x02, 0x0B, 0x12, 0x22, 0x2B, 0x32, 0x42, 0x4B, 0x52, 0x62, 0x6B, 0x72, 0x8B, 0x92, 0x93, 0x9B, 0x9C,
   0x9E, 0x9F, 0xAB, 0xB2, 0xBB, 0xCB, 0xD2, 0xF2]

/-- What an instruction that reads a memory operand does: `k v` on the state, where `v` is the byte read.
Where the operand is RAM or ROM it completes; where it is a device's, the device's answer decides: a free
value, whose refusal is `BusError(ReadOnly)` (the model's choice and deduction: assumption 4). -/
def MemReadLaw (mk : MemForm → Instr) (k : Byte → State → State) : Prop :=
  (∀ (f : MemForm) (s s1 : State) (e : Effective) (v : Byte),
    resolve f s = .ok (e, s1) → s.peek e.ea = some v →
    exec (mk f) s = .next { k v s with cycles := f.readCycles + e.crossed.toNat }) ∧
  (∀ (f : MemForm) (s s1 : State) (e : Effective),
    resolve f s = .ok (e, s1) → classOf e.ea = .device →
    exec (mk f) s = match Config.deviceRead s.deviceLog e.ea with
      | .byte v => .next { k v { s with deviceLog := .read e.ea :: s.deviceLog } with
          cycles := f.readCycles + e.crossed.toNat }
      | .refused => .fault (.busError .readOnly e.ea))

/-- The same for an instruction with an immediate form too. -/
def ReadLaw (mk : Source → Instr) (k : Byte → State → State) : Prop :=
  (∀ (b : Byte) (s : State), exec (mk (.imm b)) s = .next { k b s with cycles := 2 }) ∧
  MemReadLaw (fun f => mk (.mem f)) k

/-- What a store of the byte `v s` does: RAM keeps it, ROM is an error, a device is told; whether it
refuses is a free value, and a refusal is `BusError(ReadOnly)` (the model's choice and deduction: assumption 5). -/
def StoreLaw (mk : MemForm → Instr) (v : State → Byte) : Prop :=
  ∀ (f : MemForm) (s s1 : State) (e : Effective), resolve f s = .ok (e, s1) →
    (classOf e.ea = .ram → exec (mk f) s =
      .next { s with mem := s.mem.write (cellOf s.prgSize e.ea) (v s), cycles := f.storeCycles }) ∧
    (classOf e.ea = .rom → exec (mk f) s = .fault (.busError .readOnly e.ea)) ∧
    (classOf e.ea = .device → exec (mk f) s = match Config.deviceWrite s.deviceLog e.ea (v s) with
      | .taken => .next { s with deviceLog := .write e.ea (v s) :: s.deviceLog, cycles := f.storeCycles }
      | .refused => .fault (.busError .readOnly e.ea))

/-- What a read-modify-write does: one read of `ea`, `g` on the byte, one write of `ea`, then `k` with the
byte written. A device sees exactly one read and then one write; its answers are free values, and a refusal of
either is `BusError(ReadOnly)` (the model's choice and deduction: assumptions 4 and 5). -/
def ModifyLaw (mk : MemForm → Instr) (g : Byte → State → Byte × State) (k : Byte → State → State) :
    Prop :=
  ∀ (f : MemForm) (s s1 : State) (e : Effective), resolve f s = .ok (e, s1) →
    (classOf e.ea = .ram →
      let r := g (s.mem.read (cellOf s.prgSize e.ea)) s
      exec (mk f) s = .next { k r.1 { r.2 with mem := s.mem.write (cellOf s.prgSize e.ea) r.1 } with
        cycles := f.modifyCycles }) ∧
    (classOf e.ea = .rom → exec (mk f) s = .fault (.busError .readOnly e.ea)) ∧
    (classOf e.ea = .device → exec (mk f) s = match Config.deviceRead s.deviceLog e.ea with
      | .refused => .fault (.busError .readOnly e.ea)
      | .byte v =>
        let r := g v { s with deviceLog := .read e.ea :: s.deviceLog }
        match Config.deviceWrite (.read e.ea :: s.deviceLog) e.ea r.1 with
        | .refused => .fault (.busError .readOnly e.ea)
        | .taken => .next { k r.1 { r.2 with deviceLog := .write e.ea r.1 :: .read e.ea :: s.deviceLog } with
            cycles := f.modifyCycles })

/-- What a conditional branch does (R174): the target is relative to `PC_next`, which is `PC` when the
operation begins. -/
def BranchLaw (mk : Byte → Instr) (cond : StatusFlags → Prop) : Prop :=
  ∀ (off : Byte) (s : State),
    (cond s.p → exec (mk off) s = .next { s with
      pc := s.pc + off.signExtend 16
      cycles := 3 + (hiByte s.pc != hiByte (s.pc + off.signExtend 16)).toNat }) ∧
    (¬ cond s.p → exec (mk off) s = .next { s with cycles := 2 })

/-- A one-byte instruction of 2 cycles with the opcode `opc`, whose operation is `k`. -/
def ImpliedLaw (i : Instr) (opc : Byte) (k : State → State) : Prop :=
  encode i = some [opc] ∧ ∀ s : State, exec i s = .next { k s with cycles := 2 }

/-- The byte that `Pop` returns after `n` earlier pops: the stack byte above `S`. -/
def stackByte (s : State) (n : Nat) : Byte := s.mem.read (0x100 + (s.sp + BitVec.ofNat 8 (n + 1)).toNat)

/-- The memory after one push of `v` with the stack pointer at `sp`. -/
def pushed (m : Memory) (sp v : Byte) : Memory := m.write (0x100 + sp.toNat) v

end Sys2Proof.Claims

open Sys2Proof Sys2Proof.Machine Sys2Proof.Claims

/-! ## Encoding -/

/-- Encoding a well-formed instruction and decoding the bytes gives it back, whatever follows it. -/
def Obligations.DecodeAfterEncode : Prop :=
  ∀ (i : Instr) (rest : List Byte), i.wf = true →
    ∃ bs, encode i = some bs ∧ decode (bs ++ rest) = .ok (i, rest)

/-- Whatever decodes is well formed and is the encoding of what it decodes to: no bit is dropped and no
two byte strings stand for one instruction. -/
def Obligations.EncodeAfterDecode : Prop :=
  ∀ (bs rest : List Byte) (i : Instr), decode bs = .ok (i, rest) →
    i.wf = true ∧ ∃ w, encode i = some w ∧ w ++ rest = bs ∧ w.length = i.length

/-- The counts of R99 and R108: 231 entries, 151 documented and 80 not, 25 bytes without an entry. -/
def Obligations.OpcodeTableCounts : Prop :=
  let bytes := (List.range 256).map (BitVec.ofNat 8)
  bytes.countP (fun b => (opcodeTable b).isSome) = 231 ∧
  bytes.countP (fun b => (opcodeTable b).any Entry.documented) = 151 ∧
  bytes.countP (fun b => (opcodeTable b).any (fun e => !e.documented)) = 80 ∧
  bytes.filter (fun b => (opcodeTable b).isNone) = unknownOpcodes

/-- A few of the bytes that the spec writes out (R110, R120, R171, R172, R182, R209) decode to the
instructions it names. -/
def Obligations.SpecBytesDecode : Prop :=
  decode [0xA9, 0x80] = .ok (.lda (.imm 0x80), []) ∧
  decode [0x8D, 0x00, 0x02] = .ok (.sta (.abs 0x0200), []) ∧
  decode [0x94, 0xFF] = .ok (.sty (.zpx 0xFF), []) ∧
  decode [0x0A] = .ok (.asl .acc, []) ∧
  decode [0x6C, 0xFF, 0x30] = .ok (.jmpInd 0x30FF, []) ∧
  decode [0x20, 0x34, 0x12] = .ok (.jsr 0x1234, []) ∧
  decode [0xF0, 0x02] = .ok (.beq 0x02, []) ∧
  decode [0x1C, 0xFF, 0x10] = .ok (.nopu 0x1C (.src (.mem (.abx 0x10FF))), []) ∧
  decode [0xEB, 0x01] = .ok (.sbcu 0x01, []) ∧
  decode [0x02] = .ok (.unassigned 0x02, [])

/-! ## The step -/

/-- When nothing is pending and the bytes at `PC` decode to an instruction, the step is that
instruction's meaning with `PC` at the byte after it (R23, R82, R300). -/
def Obligations.StepRunsTheDecodedInstruction : Prop :=
  ∀ (s : State) (i : Instr) (bs : List Byte), pendingEvent s = none → decode bs = .ok (i, []) →
    (∀ k, k < bs.length → s.peek (s.pc + BitVec.ofNat 16 k) = bs[k]?) →
    step s = exec i { s with pc := s.pc + BitVec.ofNat 16 bs.length }

/-- The fetch, wherever `PC` points: what it delivers is well formed, `PC` has moved past it, and
nothing else changed but the note of device reads; the step then runs it (R23, R82, R58). -/
def Obligations.FetchMovesPastTheInstruction : Prop :=
  (∀ s : State, pendingEvent s = none →
    step s = match fetch s with
      | .ok (i, t) => exec i t
      | .error f => .fault f) ∧
  (∀ (s t : State) (i : Instr), fetch s = .ok (i, t) → i.wf = true ∧
    t = { s with pc := s.pc + BitVec.ofNat 16 i.length, deviceLog := t.deviceLog })

/-- A byte without Opcode Table entry raises `DecodeError` after the one opcode read, and no other
condition raises it (R108, R301). -/
def Obligations.UnknownOpcodeRaisesDecodeError : Prop :=
  (∀ (opc : Byte) (s : State), exec (.unassigned opc) s = .fault (.decodeError opc)) ∧
  (∀ (s s1 : State) (opc : Byte), pendingEvent s = none → fetchByte s = .ok (opc, s1) →
    opc ∈ unknownOpcodes → step s = .fault (.decodeError opc)) ∧
  (∀ (s : State) (opc : Byte), step s = .fault (.decodeError opc) →
    pendingEvent s = none ∧ opc ∈ unknownOpcodes ∧ ∃ s1, fetchByte s = .ok (opc, s1))

/-- Which branch a step takes, in the order of R300 and R315 (the order among BRK, NMI and IRQ is the
spec's decision D9, the level-sensitive IRQ its decision D8). -/
def Obligations.PendingEventsInOrder : Prop :=
  ∀ s : State,
    (s.resetPending = true → step s = resetSequence s) ∧
    (s.resetPending = false → s.brkPending = true → step s = interruptEntry .brk s) ∧
    (s.resetPending = false → s.brkPending = false → s.nmiPending = true →
      step s = interruptEntry .nmi s) ∧
    (s.resetPending = false → s.brkPending = false → s.nmiPending = false → s.irqLine = true →
      s.p.i = false → step s = interruptEntry .irq s) ∧
    (s.resetPending = false → s.brkPending = false → s.nmiPending = false →
      (s.irqLine = false ∨ s.p.i = true) → step s = andThen (fetch s) fun i t => exec i t)

/-! ## Reset, interrupts, host -/

/-- The first step after construction is the reset sequence, whatever `PC` was (R37, R340); with the
memory of `State.reset`, in which nothing is listed (assumption 1), it ends in `State.reset`. -/
def Obligations.PowerUpStepsToReset : Prop :=
  ∀ pc : Addr, step (State.construct pc) = .next State.reset

/-- The reset sequence (R341, R36; the values of `A`, `X`, `Y`, `S`, `P` are the spec's decision D1, the
count its decision D2, the byte order its decision D5). -/
def Obligations.ResetSequenceLeaves : Prop :=
  ∀ s : State, s.resetPending = true →
    ∃ lo hi, s.peek 0xFFFC = some lo ∧ s.peek 0xFFFD = some hi ∧
      step s = .next { s with
        a := 0x00, x := 0x00, y := 0x00, sp := 0xFD
        p := { n := false, v := false, r := true, b := false, d := false, i := true, z := false, c := false }
        resetPending := false, nmiPending := false, brkPending := false
        pc := addrOf lo hi, cycles := 0 }

/-- An interrupt entry, for the kind that is served (R316): what is pushed where, what changes, and that
nothing else does. -/
def Obligations.InterruptEntrySavesAndVectors : Prop :=
  ∀ (s : State) (k : InterruptKind), pendingEvent s = some (.interrupt k) →
    ∃ lo hi, s.peek (if k = .nmi then 0xFFFA else 0xFFFE) = some lo ∧
      s.peek (if k = .nmi then 0xFFFB else 0xFFFF) = some hi ∧
      step s = .next { s with
        mem := pushed (pushed (pushed s.mem s.sp (hiByte s.pc)) (s.sp - 1) (loByte s.pc)) (s.sp - 2)
          (s.p.pack (if k = .brk then true else s.p.b))
        sp := s.sp - 3
        p := { s.p with i := true }
        brkPending := if k = .brk then false else s.brkPending
        nmiPending := if k = .nmi then false else s.nmiPending
        pc := addrOf lo hi
        cycles := k.cycles }

/-- `signal_nmi` (R311; the two-bit detector is the spec's decision D18): only a rising edge latches, a
level that stays latches no more, and nothing else changes. -/
def Obligations.NmiLatchesOnRisingEdge : Prop :=
  ∀ (s : State) (level : Bool),
    (s.signalNmi level).nmiPending = (s.nmiPending || (level && !s.nmiPrev)) ∧
    (s.signalNmi level).nmiPrev = level ∧
    (s.signalNmi level).signalNmi level = s.signalNmi level ∧
    s.signalNmi level = { s with
      nmiPending := (s.signalNmi level).nmiPending, nmiPrev := (s.signalNmi level).nmiPrev }

/-- `BRK` completes in every state, and its entry is the very next step, whatever NMI and IRQ do (R194, R313,
R315 a): after both, the return address is the byte after the padding, the pushed status has bit 4 set, and
control is at the vector. (`BRK_PAD = 1` is the spec's decision D10, the order its decision D9.) -/
def Obligations.BrkThenEntry : Prop :=
  ∀ s : State, exec .brk s = .next { s with pc := s.pc + 1, brkPending := true, cycles := 7 } ∧
    (s.resetPending = false → s.mem.wf = true →
      ∃ u lo hi, s.peek 0xFFFE = some lo ∧ s.peek 0xFFFF = some hi ∧
        step { s with pc := s.pc + 1, brkPending := true, cycles := 7 } = .next u ∧
        u.pc = addrOf lo hi ∧ u.sp = s.sp - 3 ∧ u.p = { s.p with i := true } ∧
        u.brkPending = false ∧ u.nmiPending = s.nmiPending ∧
        u.peek (stackAddr s.sp) = some (hiByte (s.pc + 1)) ∧
        u.peek (stackAddr (s.sp - 1)) = some (loByte (s.pc + 1)) ∧
        u.peek (stackAddr (s.sp - 2)) = some (s.p.pack true))

/-- `RTI` undoes an interrupt entry (R321): from the state an entry leaves, with any `PC`, it gives back
`PC`, `S` and `P` as they were, and has not touched `A`, `X`, `Y` or memory. -/
def Obligations.RtiUndoesInterruptEntry : Prop :=
  ∀ (s t : State) (k : InterruptKind) (handler : Addr), s.mem.wf = true →
    pendingEvent s = some (.interrupt k) → step s = .next t →
    ∃ u, exec .rti { t with pc := handler } = .next u ∧ u.pc = s.pc ∧ u.sp = s.sp ∧ u.p = s.p ∧
      u.a = s.a ∧ u.x = s.x ∧ u.y = s.y ∧ u.mem = t.mem

/-- `CLI` with the IRQ line high: the IRQ is taken at the very next step (R187, R351; the spec's decisions
D8 and D19). -/
def Obligations.CliUnmasksIrqAtOnce : Prop :=
  ∀ s : State, s.irqLine = true → s.resetPending = false → s.brkPending = false → s.nmiPending = false →
    ∃ t, exec .cli s = .next t ∧ pendingEvent t = some (.interrupt .irq)

/-! ## Memory -/

/-- The address map by address (R56, R57): which addresses are RAM, ROM and device. It covers every address,
so no step of any kind raises `BusError(OutOfRange)`: every bus error is `ReadOnly`, at an address that is not
RAM (R60, R302, C12). (That a device's refusal is `ReadOnly` is the model's deduction: assumptions 4 and 5.) -/
def Obligations.AddressMapClasses : Prop :=
  (∀ a : Addr, classOf a =
    if a.toNat < 0x2000 then .ram
    else if a.toNat < 0x4020 then .device
    else if a.toNat < 0x6000 then .rom
    else if a.toNat < 0x8000 then .ram
    else .rom) ∧
  (∀ (s : State) (kind : BusErrorKind) (a : Addr), step s = .fault (.busError kind a) →
    kind = .readOnly ∧ classOf a ≠ .ram)

/-- The mirrors (R56): WRAM four times, and a 16 KiB PRG-ROM twice; and no other two addresses are one byte:
the 2 KiB of WRAM, the expansion regions and the PRG-ROM up to its mirror are distinct cells, each of which
is written without touching another (a different address reads as before). -/
def Obligations.MirrorsReadTheSameByte : Prop :=
  (∀ (s : State) (a : Addr), a.toNat < 0x2000 → s.peek a = s.peek (a &&& 0x07FF)) ∧
  (∀ (s : State) (a : Addr), s.prgSize = .kib16 → 0xC000 ≤ a.toNat → s.peek a = s.peek (a - 0x4000)) ∧
  (∀ (prg : PrgSize) (a b : Addr),
    (a.toNat < 0x800 ∨ 0x4020 ≤ a.toNat) → (b.toNat < 0x800 ∨ 0x4020 ≤ b.toNat) →
    (prg = .kib16 → a.toNat < 0xC000 ∧ b.toNat < 0xC000) → cellOf prg a = cellOf prg b → a = b) ∧
  (∀ (s : State) (a b : Addr) (v : Byte), s.mem.wf = true →
    (a.toNat < 0x800 ∨ 0x4020 ≤ a.toNat) → (b.toNat < 0x800 ∨ 0x4020 ≤ b.toNat) →
    (s.prgSize = .kib16 → a.toNat < 0xC000 ∧ b.toNat < 0xC000) →
    (s.poke a v).peek b = if a = b then some v else s.peek b)

/-- A RAM read returns the byte last written to the same cell, through any mirror; every other byte
reads as before (R57, R64 c). Memory is in the canonical form that every step keeps. -/
def Obligations.RamReturnsTheLastByteWritten : Prop :=
  ∀ (s : State) (a : Addr) (v : Byte), s.mem.wf = true → classOf a = .ram →
    ∃ t, memWrite a v s = .ok ((), t) ∧ t = { s with mem := t.mem } ∧
      ∀ b, classOf b ≠ .device →
        t.peek b = if cellOf s.prgSize b = cellOf s.prgSize a then some v else s.peek b

/-- A read of RAM or ROM returns its byte and changes nothing; a write to ROM is `BusError(ReadOnly)`; and
whatever error the Bus returns to an access ends the step with its kind and the address (R57, R60, R302). -/
def Obligations.PlainReadsAndRomWrites : Prop :=
  (∀ (s : State) (a : Addr) (v : Byte), s.peek a = some v → memRead a s = .ok (v, s)) ∧
  (∀ (s : State) (a : Addr), classOf a ≠ .device → ∃ v, s.peek a = some v) ∧
  (∀ (s : State) (a : Addr) (v : Byte), classOf a = .rom →
    memWrite a v s = .error (.busError .readOnly a)) ∧
  (∀ (s : State) (a : Addr) (v : Byte),
    (memRead a s = match busRead a s with
      | .ok x => .ok x
      | .error kind => .error (.busError kind a)) ∧
    (memWrite a v s = match busWrite a v s with
      | .ok x => .ok x
      | .error kind => .error (.busError kind a)))

/-- ROM is constant, and a step never changes the cartridge, the inputs of the block or the NMI level
(R57, R29, R30, R32): for every step of every kind. The device log only grows. -/
def Obligations.StepKeepsRomAndInputs : Prop :=
  ∀ s t : State, step s = .next t →
    (∀ a, classOf a = .rom → t.peek a = s.peek a) ∧
    t.prgSize = s.prgSize ∧ t.irqLine = s.irqLine ∧ t.nmiPrev = s.nmiPrev ∧
    ∃ new, t.deviceLog = new ++ s.deviceLog

/-- The stack (R11, R21; the page and the order are the spec's decision D4): a push writes at `0x0100 + S`
and then decrements, a pop increments and then reads, `S` wraps, nothing fails. -/
def Obligations.StackPushAndPop : Prop :=
  (∀ (v : Byte) (s : State), (stackAddr s.sp).toNat = 0x100 + s.sp.toNat ∧
    push v s = .ok ((), { s with mem := s.mem.write (0x100 + s.sp.toNat) v, sp := s.sp - 1 })) ∧
  (∀ s : State, pop s = .ok (s.mem.read (0x100 + (s.sp + 1).toNat), { s with sp := s.sp + 1 })) ∧
  (∀ (v : Byte) (s s1 s2 : State) (w : Byte), s.mem.wf = true → push v s = .ok ((), s1) →
    pop s1 = .ok (w, s2) → w = v ∧ s2.sp = s.sp)

/-! ## Operand forms -/

/-- Every operand form delivers its effective address and `crossed` in every state, and changes nothing
(R87 to R95; the wrap of a pointer's high-byte address is the spec's decision D17). -/
def Obligations.OperandFormsResolve : Prop :=
  ∀ (b1 : Byte) (a : Addr) (s : State),
    resolve (.zp b1) s = .ok ({ ea := b1.setWidth 16, crossed := false }, s) ∧
    resolve (.zpx b1) s = .ok ({ ea := (b1 + s.x).setWidth 16, crossed := false }, s) ∧
    resolve (.zpy b1) s = .ok ({ ea := (b1 + s.y).setWidth 16, crossed := false }, s) ∧
    resolve (.abs a) s = .ok ({ ea := a, crossed := false }, s) ∧
    resolve (.abx a) s = .ok (⟨a + s.x.setWidth 16,
      hiByte a != hiByte (a + s.x.setWidth 16)⟩, s) ∧
    resolve (.aby a) s = .ok (⟨a + s.y.setWidth 16,
      hiByte a != hiByte (a + s.y.setWidth 16)⟩, s) ∧
    (∃ lo hi, s.peek ((b1 + s.x).setWidth 16) = some lo ∧ s.peek ((b1 + s.x + 1).setWidth 16) = some hi ∧
      resolve (.izx b1) s = .ok ({ ea := addrOf lo hi, crossed := false }, s)) ∧
    (∃ lo hi, s.peek (b1.setWidth 16) = some lo ∧ s.peek ((b1 + 1).setWidth 16) = some hi ∧
      resolve (.izy b1) s = .ok (⟨addrOf lo hi + s.y.setWidth 16,
        hiByte (addrOf lo hi) != hiByte (addrOf lo hi + s.y.setWidth 16)⟩, s))

/-- What an instruction returns as its cycle count (R360): the base count of its Opcode Table entry, one
more for a page cross where the entry has that penalty, and for a branch one more when taken and one
more when its target is on another page; 7 for an NMI or IRQ entry, 0 for a BRK entry and for a reset
sequence. (The base counts are the spec's decision D13, the entries' counts its decisions D2 and D11.) -/
def Obligations.CyclesFollowTheTable : Prop :=
  (∀ (i : Instr) (s t : State) (opc : Byte), i.opcode = some opc → exec i s = .next t →
    ∃ entry, opcodeTable opc = some entry ∧
      (entry.penalty = .none → t.cycles = entry.cycles) ∧
      (entry.penalty = .pageCross → ∃ f e, i.memForm = some f ∧ resolve f s = .ok (e, s) ∧
        t.cycles = entry.cycles + e.crossed.toNat) ∧
      (entry.penalty = .branch → t.pc ≠ s.pc →
        t.cycles = entry.cycles + 1 + (hiByte s.pc != hiByte t.pc).toNat) ∧
      (entry.penalty = .branch → t.pc = s.pc →
        t.cycles = entry.cycles ∨ t.cycles = entry.cycles + 1)) ∧
  (∀ s t : State, step s = .next t →
    (pendingEvent s = some .reset → t.cycles = 0) ∧
    (∀ k, pendingEvent s = some (.interrupt k) → t.cycles = if k = .brk then 0 else 7))

/-! ## Loads, stores, transfers, stack -/

/-- The loads (R120, R121, R122) and `LAX` (R200). (The device clauses, the answer a free value
and a refusal `BusError(ReadOnly)`, are the model's: assumption 4.) -/
def Obligations.LoadsSetRegisterAndFlags : Prop :=
  ReadLaw .lda (fun v s => { s with a := v, p := s.p.setNZ v }) ∧
  ReadLaw .ldx (fun v s => { s with x := v, p := s.p.setNZ v }) ∧
  ReadLaw .ldy (fun v s => { s with y := v, p := s.p.setNZ v }) ∧
  MemReadLaw .lax (fun v s => { s with a := v, x := v, p := s.p.setNZ v })

/-- The stores (R123, R124, R125) and `SAX` (R201): to RAM, to ROM, to a device. (The device clause, the answer
a free value and a refusal `BusError(ReadOnly)`, is the model's: assumption 5.) -/
def Obligations.StoresWriteTheirRegister : Prop :=
  StoreLaw .sta (fun s => s.a) ∧ StoreLaw .stx (fun s => s.x) ∧ StoreLaw .sty (fun s => s.y) ∧
  StoreLaw .sax (fun s => s.a &&& s.x)

/-- The six transfers (R126 to R131): one byte, two cycles, `SetNZ` of the byte moved but for `TXS`. -/
def Obligations.TransfersCopyRegisters : Prop :=
  ImpliedLaw .tax 0xAA (fun s => { s with x := s.a, p := s.p.setNZ s.a }) ∧
  ImpliedLaw .tay 0xA8 (fun s => { s with y := s.a, p := s.p.setNZ s.a }) ∧
  ImpliedLaw .txa 0x8A (fun s => { s with a := s.x, p := s.p.setNZ s.x }) ∧
  ImpliedLaw .tya 0x98 (fun s => { s with a := s.y, p := s.p.setNZ s.y }) ∧
  ImpliedLaw .tsx 0xBA (fun s => { s with x := s.sp, p := s.p.setNZ s.sp }) ∧
  ImpliedLaw .txs 0x9A (fun s => { s with sp := s.x })

/-- `PHA`, `PHP`, `PLA`, `PLP` (R135 to R138; that `PLP` leaves `P.R` and `P.B` is the spec's decision
D7). -/
def Obligations.StackInstructions : Prop :=
  ∀ s : State,
    exec .pha s = .next { s with mem := pushed s.mem s.sp s.a, sp := s.sp - 1, cycles := 3 } ∧
    exec .php s = .next { s with mem := pushed s.mem s.sp (s.p.pack true), sp := s.sp - 1, cycles := 3 } ∧
    exec .pla s = .next { s with
      a := stackByte s 0, p := s.p.setNZ (stackByte s 0), sp := s.sp + 1, cycles := 4 } ∧
    exec .plp s = .next { s with
      p := { n := (stackByte s 0).getLsbD 7, v := (stackByte s 0).getLsbD 6, r := s.p.r, b := s.p.b,
             d := (stackByte s 0).getLsbD 3, i := (stackByte s 0).getLsbD 2,
             z := (stackByte s 0).getLsbD 1, c := (stackByte s 0).getLsbD 0 }
      sp := s.sp + 1, cycles := 4 }

/-! ## Flags and arithmetic -/

/-- `SetNZ(v)` (R9): `P.N` is bit 7 of `v`, `P.Z` says whether `v` is 0, no other flag changes. -/
def Obligations.SetNZSetsSignAndZero : Prop :=
  ∀ (s : State) (v : Byte),
    s.setNZ v = { s with p := { s.p with n := v.getLsbD 7, z := decide (v = 0) } } ∧
    ((s.setNZ v).p.n = true ↔ v.toInt < 0) ∧ ((s.setNZ v).p.z = true ↔ v.toNat = 0) ∧
    (s.setNZ v).p = s.p.setNZ v

/-- The packed status byte (R10; its bit positions are the spec's decision D6, what `Unpack` skips its
decision D7). -/
def Obligations.PackedStatusBits : Prop :=
  (∀ (p : StatusFlags) (b : Bool),
    (p.pack b).getLsbD 7 = p.n ∧ (p.pack b).getLsbD 6 = p.v ∧ (p.pack b).getLsbD 5 = p.r ∧
    (p.pack b).getLsbD 4 = b ∧ (p.pack b).getLsbD 3 = p.d ∧ (p.pack b).getLsbD 2 = p.i ∧
    (p.pack b).getLsbD 1 = p.z ∧ (p.pack b).getLsbD 0 = p.c) ∧
  (∀ (p q : StatusFlags) (b : Bool), q.unpack (p.pack b) = { p with r := q.r, b := q.b })

/-- `AddWithCarry(m)` (R156): the wrapped sum, `P.C` the carry out, `P.V` set exactly when the signed sum
is out of range, `SetNZ` of the result; nothing else changes. -/
def Obligations.AddWithCarryResult : Prop :=
  ∀ (m : Byte) (s t : State), t = addWithCarry m s →
    t.a.toNat = (s.a.toNat + m.toNat + s.p.c.toNat) % 256 ∧
    t = { s with a := t.a, p := { s.p with n := t.p.n, v := t.p.v, z := t.p.z, c := t.p.c } } ∧
    (t.p.c = true ↔ 0xFF < s.a.toNat + m.toNat + s.p.c.toNat) ∧
    (t.p.v = true ↔ s.a.getLsbD 7 = m.getLsbD 7 ∧ t.a.getLsbD 7 ≠ s.a.getLsbD 7) ∧
    (t.p.v = true ↔ s.a.toInt + m.toInt + s.p.c.toNat < -128 ∨ 127 < s.a.toInt + m.toInt + s.p.c.toNat) ∧
    t.p.n = t.a.getLsbD 7 ∧ (t.p.z = true ↔ t.a = 0)

/-- `SubWithBorrow(m)` (R157): the wrapped difference, `P.C` set exactly when there is no borrow, `P.V`
exactly when the signed difference is out of range, `SetNZ` of the result; nothing else changes; and it
is `AddWithCarry` of the complement (which the spec derives from the two rules). -/
def Obligations.SubWithBorrowResult : Prop :=
  ∀ (m : Byte) (s t : State), t = subWithBorrow m s →
    (t.a.toNat : Int) = ((s.a.toNat : Int) - m.toNat - (1 - s.p.c.toNat)) % 256 ∧
    t = { s with a := t.a, p := { s.p with n := t.p.n, v := t.p.v, z := t.p.z, c := t.p.c } } ∧
    (t.p.c = true ↔ (0 : Int) ≤ (s.a.toNat : Int) - m.toNat - (1 - s.p.c.toNat)) ∧
    (t.p.v = true ↔ s.a.getLsbD 7 ≠ m.getLsbD 7 ∧ t.a.getLsbD 7 = m.getLsbD 7) ∧
    (t.p.v = true ↔ s.a.toInt - m.toInt - (1 - s.p.c.toNat) < -128 ∨
      127 < s.a.toInt - m.toInt - (1 - s.p.c.toNat)) ∧
    t.p.n = t.a.getLsbD 7 ∧ (t.p.z = true ↔ t.a = 0) ∧
    t = addWithCarry (~~~m) s

/-- `Compare(reg, m)` (R158): `P.C` says `reg >= m` unsigned, `P.Z` says equal, `P.N` is bit 7 of the
wrapped difference; no register and no other flag changes. -/
def Obligations.CompareResult : Prop :=
  ∀ (reg m : Byte) (s t : State), t = compare reg m s →
    t = { s with p := { s.p with n := t.p.n, z := t.p.z, c := t.p.c } } ∧
    (t.p.c = true ↔ m.toNat ≤ reg.toNat) ∧ (t.p.z = true ↔ reg = m) ∧
    t.p.n = (reg - m).getLsbD 7

/-- The four shift helpers (R160) as arithmetic: with `c` the carry before and `c'` the carry after, each
is a shift or a 9-bit rotation through `P.C`; no other flag and no register changes. -/
def Obligations.ShiftsRotateThroughCarry : Prop :=
  ∀ (v : Byte) (s : State),
    ((shiftLeft v s).1.toNat + 256 * (shiftLeft v s).2.p.c.toNat = 2 * v.toNat) ∧
    (2 * (shiftRight v s).1.toNat + (shiftRight v s).2.p.c.toNat = v.toNat) ∧
    ((rotateLeft v s).1.toNat + 256 * (rotateLeft v s).2.p.c.toNat = 2 * v.toNat + s.p.c.toNat) ∧
    (2 * (rotateRight v s).1.toNat + (rotateRight v s).2.p.c.toNat = v.toNat + 256 * s.p.c.toNat) ∧
    (∀ g ∈ [shiftLeft, shiftRight, rotateLeft, rotateRight],
      (g v s).2 = { s with p := { s.p with c := (g v s).2.p.c } })

/-- `ADC` (R140), `SBC` (R141) and the second `SBC #` (R210), in every form. (The device clauses,
the answer a free value and a refusal `BusError(ReadOnly)`, are the model's: assumption 4.) -/
def Obligations.AddAndSubtractInstructions : Prop :=
  ReadLaw .adc addWithCarry ∧ ReadLaw .sbc subWithBorrow ∧
  (∀ (b : Byte) (s : State), exec (.sbcu b) s = .next { subWithBorrow b s with cycles := 2 })

/-- `AND`, `ORA`, `EOR` (R142 to R144) and `BIT` (R148), in every form. (The device clauses,
the answer a free value and a refusal `BusError(ReadOnly)`, are the model's: assumption 4.) -/
def Obligations.LogicInstructions : Prop :=
  ReadLaw .and (fun v s => { s with a := s.a &&& v, p := s.p.setNZ (s.a &&& v) }) ∧
  ReadLaw .ora (fun v s => { s with a := s.a ||| v, p := s.p.setNZ (s.a ||| v) }) ∧
  ReadLaw .eor (fun v s => { s with a := s.a ^^^ v, p := s.p.setNZ (s.a ^^^ v) }) ∧
  MemReadLaw .bit (fun m s => { s with
    p := { s.p with z := decide (s.a &&& m = 0), n := m.getLsbD 7, v := m.getLsbD 6 } })

/-- `CMP`, `CPX`, `CPY` (R145 to R147), in every form. (The device clauses,
the answer a free value and a refusal `BusError(ReadOnly)`, are the model's: assumption 4.) -/
def Obligations.CompareInstructions : Prop :=
  ReadLaw .cmp (fun v s => compare s.a v s) ∧ ReadLaw .cpx (fun v s => compare s.x v s) ∧
  ReadLaw .cpy (fun v s => compare s.y v s)

/-- `INX`, `INY`, `DEX`, `DEY` (R151 to R154). -/
def Obligations.RegisterIncrements : Prop :=
  ImpliedLaw .inx 0xE8 (fun s => { s with x := s.x + 1, p := s.p.setNZ (s.x + 1) }) ∧
  ImpliedLaw .iny 0xC8 (fun s => { s with y := s.y + 1, p := s.p.setNZ (s.y + 1) }) ∧
  ImpliedLaw .dex 0xCA (fun s => { s with x := s.x - 1, p := s.p.setNZ (s.x - 1) }) ∧
  ImpliedLaw .dey 0x88 (fun s => { s with y := s.y - 1, p := s.p.setNZ (s.y - 1) })

/-- `INC` and `DEC` (R149, R150): in RAM, in ROM and on a device. (The device clauses, the
answers free values and a refusal `BusError(ReadOnly)`, are the model's: assumptions 4 and 5.) -/
def Obligations.MemoryIncrements : Prop :=
  ModifyLaw .inc (fun v s => (v + 1, s)) (fun r s => { s with p := s.p.setNZ r }) ∧
  ModifyLaw .dec (fun v s => (v - 1, s)) (fun r s => { s with p := s.p.setNZ r })

/-- The shifts and rotates of memory (R159, R161 to R164): in RAM, in ROM and on a device. (The device
clauses, the answers free values and a refusal `BusError(ReadOnly)`, are the model's: assumptions 4 and 5.) -/
def Obligations.MemoryShifts : Prop :=
  ModifyLaw (fun f => .asl (.mem f)) shiftLeft (fun r s => { s with p := s.p.setNZ r }) ∧
  ModifyLaw (fun f => .lsr (.mem f)) shiftRight (fun r s => { s with p := s.p.setNZ r }) ∧
  ModifyLaw (fun f => .rol (.mem f)) rotateLeft (fun r s => { s with p := s.p.setNZ r }) ∧
  ModifyLaw (fun f => .ror (.mem f)) rotateRight (fun r s => { s with p := s.p.setNZ r })

/-- The shifts and rotates of the accumulator (R161 to R164). -/
def Obligations.AccumulatorShifts : Prop :=
  ImpliedLaw (.asl .acc) 0x0A (fun s => { s with
    a := s.a <<< 1, p := { s.p.setNZ (s.a <<< 1) with c := s.a.getLsbD 7 } }) ∧
  ImpliedLaw (.lsr .acc) 0x4A (fun s => { s with
    a := s.a >>> 1, p := { s.p.setNZ (s.a >>> 1) with c := s.a.getLsbD 0 } }) ∧
  ImpliedLaw (.rol .acc) 0x2A (fun s => { s with
    a := (rotateLeft s.a s).1
    p := { s.p.setNZ (rotateLeft s.a s).1 with c := s.a.getLsbD 7 } }) ∧
  ImpliedLaw (.ror .acc) 0x6A (fun s => { s with
    a := (rotateRight s.a s).1
    p := { s.p.setNZ (rotateRight s.a s).1 with c := s.a.getLsbD 0 } })

/-- The six combined read-modify-writes (R202 to R208): the accumulator operation uses the byte written
and the flags as the memory operation left them. (The device clauses, the answers free values and
a refusal `BusError(ReadOnly)`, are the model's: assumptions 4 and 5.) -/
def Obligations.CombinedReadModifyWrites : Prop :=
  ModifyLaw .slo shiftLeft (fun r s => { s with a := s.a ||| r, p := s.p.setNZ (s.a ||| r) }) ∧
  ModifyLaw .rla rotateLeft (fun r s => { s with a := s.a &&& r, p := s.p.setNZ (s.a &&& r) }) ∧
  ModifyLaw .sre shiftRight (fun r s => { s with a := s.a ^^^ r, p := s.p.setNZ (s.a ^^^ r) }) ∧
  ModifyLaw .rra rotateRight addWithCarry ∧
  ModifyLaw .dcp (fun v s => (v - 1, s)) (fun r s => compare s.a r s) ∧
  ModifyLaw .isc (fun v s => (v + 1, s)) subWithBorrow

/-- The undocumented `NOP`s change nothing but the cycle count returned (R105, R209; that the operand is
not read is the spec's decision D14). -/
def Obligations.UndocumentedNopsDoNothing : Prop :=
  (∀ (opc b : Byte) (s : State), exec (.nopu opc .imp) s = .next { s with cycles := 2 } ∧
    exec (.nopu opc (.src (.imm b))) s = .next { s with cycles := 2 }) ∧
  (∀ (opc : Byte) (f : MemForm) (s s1 : State) (e : Effective), resolve f s = .ok (e, s1) →
    exec (.nopu opc (.src (.mem f))) s = .next { s with cycles := f.readCycles + e.crossed.toNat })

/-! ## Control flow, flag and system instructions -/

/-- `JMP` (R170, R171): to the operand; through a pointer whose high byte is read from the pointer's own
page, in RAM, ROM or a device, the low byte first. -/
def Obligations.JumpsLoadThePc : Prop :=
  (∀ a : Addr, encode (.jmp a) = some [0x4C, loByte a, hiByte a] ∧
    encode (.jmpInd a) = some [0x6C, loByte a, hiByte a] ∧ addrOf (loByte a) (hiByte a) = a) ∧
  (∀ (a : Addr) (s : State), exec (.jmp a) s = .next { s with pc := a, cycles := 3 }) ∧
  (∀ (p : Addr) (s : State) (lo hi : Byte), s.peek p = some lo →
    s.peek (addrOf (loByte p + 1) (hiByte p)) = some hi →
    exec (.jmpInd p) s = .next { s with pc := addrOf lo hi, cycles := 5 }) ∧
  (∀ (p : Addr) (s : State), exec (.jmpInd p) s =
    match readPair p (addrOf (loByte p + 1) (hiByte p)) s with
    | .ok (target, s1) => .next { s1 with pc := target, cycles := 5 }
    | .error f => .fault f)

/-- `JSR` (R172): pushes the address of its own last byte, high byte first, and jumps. `PC` is `PC_next`
when the operation begins. -/
def Obligations.JsrPushesItsLastByte : Prop :=
  ∀ (a : Addr) (s : State), exec (.jsr a) s = .next { s with
    mem := pushed (pushed s.mem s.sp (hiByte (s.pc - 1))) (s.sp - 1) (loByte (s.pc - 1))
    sp := s.sp - 2, pc := a, cycles := 6 }

/-- `RTS` (R173): pops the low byte, then the high byte, and adds 1. -/
def Obligations.RtsAddsOne : Prop :=
  ∀ s : State, exec .rts s = .next { s with
    pc := addrOf (stackByte s 0) (stackByte s 1) + 1, sp := s.sp + 2, cycles := 6 }

/-- The round trip of R173: `RTS` after `JSR`, from any address, restores `PC` to the instruction after
the `JSR` (which is `PC` when the operation of `JSR` begins), and `S`. -/
def Obligations.RtsUndoesJsr : Prop :=
  ∀ (a callee : Addr) (s t : State), s.mem.wf = true → exec (.jsr a) s = .next t →
    ∃ u, exec .rts { t with pc := callee } = .next u ∧ u.pc = s.pc ∧ u.sp = s.sp ∧
      u.a = s.a ∧ u.x = s.x ∧ u.y = s.y ∧ u.p = s.p

/-- The eight conditional branches (R174 to R182; which addresses the page cross compares is the spec's
decision D24). -/
def Obligations.BranchesTestTheirFlag : Prop :=
  BranchLaw .bpl (fun p => p.n = false) ∧ BranchLaw .bmi (fun p => p.n = true) ∧
  BranchLaw .bvc (fun p => p.v = false) ∧ BranchLaw .bvs (fun p => p.v = true) ∧
  BranchLaw .bcc (fun p => p.c = false) ∧ BranchLaw .bcs (fun p => p.c = true) ∧
  BranchLaw .bne (fun p => p.z = false) ∧ BranchLaw .beq (fun p => p.z = true)

/-- The flag instructions and `NOP` (R185 to R192): one byte, two cycles, one flag each. -/
def Obligations.FlagInstructions : Prop :=
  ImpliedLaw .clc 0x18 (fun s => { s with p := { s.p with c := false } }) ∧
  ImpliedLaw .sec 0x38 (fun s => { s with p := { s.p with c := true } }) ∧
  ImpliedLaw .cli 0x58 (fun s => { s with p := { s.p with i := false } }) ∧
  ImpliedLaw .sei 0x78 (fun s => { s with p := { s.p with i := true } }) ∧
  ImpliedLaw .clv 0xB8 (fun s => { s with p := { s.p with v := false } }) ∧
  ImpliedLaw .cld 0xD8 (fun s => { s with p := { s.p with d := false } }) ∧
  ImpliedLaw .sed 0xF8 (fun s => { s with p := { s.p with d := true } }) ∧
  ImpliedLaw .nop 0xEA (fun s => s)

/-- `RTI` (R195, R321): the status byte, then the low and the high byte of `PC`, with nothing added
(that `P.R` and `P.B` stay is the spec's decision D7). -/
def Obligations.RtiRestoresStatusAndPc : Prop :=
  ∀ s : State, exec .rti s = .next { s with
    p := { n := (stackByte s 0).getLsbD 7, v := (stackByte s 0).getLsbD 6, r := s.p.r, b := s.p.b,
           d := (stackByte s 0).getLsbD 3, i := (stackByte s 0).getLsbD 2,
           z := (stackByte s 0).getLsbD 1, c := (stackByte s 0).getLsbD 0 }
    pc := addrOf (stackByte s 1) (stackByte s 2), sp := s.sp + 3, cycles := 6 }

/-! ## Whole-machine rules -/

/-- `P.D` has no effect on any computation (R27): with `P.D` replaced by any value, an instruction that
does not itself write or push `P.D` has the same outcome, with `P.D` so replaced in it; the four that
write it have the very same outcome. `PHP` pushes it, and that is all. (A device answers both runs alike
here, since their accesses are the same: assumption 4.) -/
def Obligations.DecimalFlagHasNoEffect : Prop :=
  ∀ (i : Instr) (s : State) (d : Bool),
    (i ∉ [Instr.php, .plp, .rti, .cld, .sed] →
      (∀ t, exec i s = .next t → exec i { s with p := { s.p with d := d } } =
        .next { t with p := { t.p with d := d } }) ∧
      (∀ f, exec i s = .fault f → exec i { s with p := { s.p with d := d } } = .fault f)) ∧
    (i ∈ [Instr.plp, .rti, .cld, .sed] → exec i { s with p := { s.p with d := d } } = exec i s)

/-- No rule reads a cycle count (R360): the count of the last step decides nothing. (A device answers both
steps alike here: assumption 4.) -/
def Obligations.CycleCountIsNeverRead : Prop :=
  ∀ (s : State) (n : Nat), step { s with cycles := n } = step s

/-- Which instructions write `A`, `X`, `Y`, `S` and `PC` (the "written by" columns of R20, R21 and R23): no
other one does. A memory form of a shift leaves `A` alone (R161). `PC` here is `PC_next`. -/
def Obligations.RegistersHaveTheirWriters : Prop :=
  ∀ (i : Instr) (m : Mnemonic) (s t : State), i.mnemonic = some m → exec i s = .next t →
    (m ∉ [Mnemonic.LDA, .PLA, .TXA, .TYA, .ADC, .SBC, .AND, .ORA, .EOR, .ASL, .LSR, .ROL, .ROR, .LAX, .SLO,
      .RLA, .SRE, .RRA, .ISC] → t.a = s.a) ∧
    (∀ f, i ∈ [Instr.asl (.mem f), .lsr (.mem f), .rol (.mem f), .ror (.mem f)] → t.a = s.a) ∧
    (m ∉ [Mnemonic.LDX, .TAX, .TSX, .INX, .DEX, .LAX] → t.x = s.x) ∧
    (m ∉ [Mnemonic.LDY, .TAY, .INY, .DEY] → t.y = s.y) ∧
    (m ∉ [Mnemonic.PHA, .PHP, .PLA, .PLP, .JSR, .RTS, .RTI, .TXS] → t.sp = s.sp) ∧
    (m ∉ [Mnemonic.JMP, .JSR, .RTS, .RTI, .BRK, .BPL, .BMI, .BVC, .BVS, .BCC, .BCS, .BNE, .BEQ] →
      t.pc = s.pc)

/-- Which instructions write each flag of `P` (the "written by" column of R25): no other one does, and
none writes `P.R` or `P.B` (R26). -/
def Obligations.FlagsHaveTheirWriters : Prop :=
  ∀ (i : Instr) (m : Mnemonic) (s t : State), i.mnemonic = some m → exec i s = .next t →
    (m ∉ [Mnemonic.LDA, .LDX, .LDY, .LAX, .TAX, .TAY, .TXA, .TYA, .TSX, .PLA, .ADC, .SBC, .AND, .ORA, .EOR,
      .INC, .DEC, .INX, .INY, .DEX, .DEY, .ASL, .LSR, .ROL, .ROR, .SLO, .RLA, .SRE, .RRA, .ISC, .CMP, .CPX,
      .CPY, .DCP, .BIT, .PLP, .RTI] → t.p.n = s.p.n ∧ t.p.z = s.p.z) ∧
    (m ∉ [Mnemonic.ADC, .SBC, .RRA, .ISC, .BIT, .CLV, .PLP, .RTI] → t.p.v = s.p.v) ∧
    (m ∉ [Mnemonic.ADC, .SBC, .RRA, .ISC, .ASL, .LSR, .ROL, .ROR, .SLO, .RLA, .SRE, .CMP, .CPX, .CPY, .DCP,
      .SEC, .CLC, .PLP, .RTI] → t.p.c = s.p.c) ∧
    (m ∉ [Mnemonic.SED, .CLD, .PLP, .RTI] → t.p.d = s.p.d) ∧
    (m ∉ [Mnemonic.SEI, .CLI, .PLP, .RTI] → t.p.i = s.p.i) ∧
    t.p.r = s.p.r ∧ t.p.b = s.p.b

/-- The latches and the inputs under an instruction (R29 to R32): none is read or written but
`brk_pending`, which `BRK` alone sets. -/
def Obligations.LatchesUntouchedByInstructions : Prop :=
  ∀ (i : Instr) (s t : State), exec i s = .next t →
    t.resetPending = s.resetPending ∧ t.nmiPrev = s.nmiPrev ∧ t.nmiPending = s.nmiPending ∧
    t.irqLine = s.irqLine ∧ t.prgSize = s.prgSize ∧
    (i ≠ .brk → t.brkPending = s.brkPending)

/-- Memory under an instruction that stores nothing (R52 d and e): every byte reads as before. -/
def Obligations.MemoryFrameOfNonStores : Prop :=
  ∀ (i : Instr) (m : Mnemonic) (s t : State), i.mnemonic = some m → exec i s = .next t →
    (m ∉ [Mnemonic.STA, .STX, .STY, .SAX, .INC, .DEC, .ASL, .LSR, .ROL, .ROR, .SLO, .RLA, .SRE, .RRA, .DCP,
      .ISC, .PHA, .PHP, .JSR] → SameMemory s t) ∧
    (i ∈ [Instr.asl .acc, .lsr .acc, .rol .acc, .ror .acc] → SameMemory s t)

/-- Memory under an instruction that stores to its operand (R52 d): every byte reads as before but the
one at the effective address that its operand form gives. -/
def Obligations.MemoryFrameOfStores : Prop :=
  ∀ (f : MemForm) (i : Instr) (s s1 t : State) (e : Effective),
    i ∈ [Instr.sta f, .stx f, .sty f, .sax f, .inc f, .dec f, .asl (.mem f), .lsr (.mem f), .rol (.mem f),
      .ror (.mem f), .slo f, .rla f, .sre f, .rra f, .dcp f, .isc f] →
    resolve f s = .ok (e, s1) → exec i s = .next t → SameMemoryBut e.ea s t

/-- Memory under an instruction that pushes (R52 e): every byte reads as before but the stack bytes it
pushes, at `0x0100 + S` and below. -/
def Obligations.MemoryFrameOfPushes : Prop :=
  ∀ (s t : State) (a c : Addr),
    (exec .pha s = .next t ∨ exec .php s = .next t →
      cellOf s.prgSize c ≠ cellOf s.prgSize (stackAddr s.sp) → t.peek c = s.peek c) ∧
    (exec (.jsr a) s = .next t → cellOf s.prgSize c ≠ cellOf s.prgSize (stackAddr s.sp) →
      cellOf s.prgSize c ≠ cellOf s.prgSize (stackAddr (s.sp - 1)) → t.peek c = s.peek c)

/-- Every step, of any kind and from any state that meets it, keeps the invariant: `P.R = 1` and `P.B = 0`
(R26), memory in its canonical form over the cells of the address map. -/
def Obligations.StepKeepsInvariant : Prop :=
  ∀ s t : State, s.Inv → step s = .next t → t.Inv

/-- The state after reset and the state at construction meet the invariant. -/
def Obligations.ResetMeetsInvariant : Prop :=
  State.reset.Inv ∧ ∀ pc, (State.construct pc).Inv

/-- Placing a byte and every host action keep the invariant, except that a host that overwrites `P` must
itself keep `P.R = 1` and `P.B = 0` (R26, R38). -/
def Obligations.HostKeepsInvariant : Prop :=
  ∀ s : State, s.Inv →
    (∀ a b, (s.poke a b).Inv) ∧
    (∀ h : HostAction, (∀ a x y sp pc p, h = .setRegisters a x y sp pc p → p.r = true ∧ p.b = false) →
      (h.apply s).Inv)
end

