-- ==== Sys2Proof/Laws/Decode.lean ====
section
/-! SUPPORT. Bytes and addresses; what the decoder does with each number of operand bytes; and that the
operand bytes decide neither the opcode nor the form of what is decoded (R80). -/

namespace Sys2Proof

@[simp] theorem addrOf_lo_hi (a : Addr) : addrOf (loByte a) (hiByte a) = a := by
  have := a.isLt
  apply BitVec.eq_of_toNat_eq
  simp [addrOf, loByte, hiByte]
  omega

@[simp] theorem loByte_addrOf (lo hi : Byte) : loByte (addrOf lo hi) = lo := by
  have := lo.isLt
  apply BitVec.eq_of_toNat_eq
  simp [addrOf, loByte]
  omega

@[simp] theorem hiByte_addrOf (lo hi : Byte) : hiByte (addrOf lo hi) = hi := by
  have := lo.isLt
  have := hi.isLt
  apply BitVec.eq_of_toNat_eq
  simp [addrOf, hiByte]
  omega

/-- What `decode` does, by how many operand bytes the opcode has (R80, R82). -/
theorem decode_cons (opc : Byte) (rest : List Byte) :
    decode (opc :: rest) =
      match operandCount opc, rest with
      | 0, rest => .ok (instrOf opc 0 0, rest)
      | 1, b1 :: rest => .ok (instrOf opc b1 0, rest)
      | 2, b1 :: b2 :: rest => .ok (instrOf opc b1 b2, rest)
      | _, _ => .error (.truncated opc) := rfl

/-- What holds of every cell of the matrix holds of every instruction it gives. -/
theorem instrOf_of_rows {P : Byte → Byte → Instr → Prop}
    (h : ∀ row ∈ opcodeRows, ∀ c ∈ row, ∀ b1 b2, P b1 b2 (c b1 b2))
    (hun : ∀ opc b1 b2, P b1 b2 (.unassigned opc)) (opc b1 b2 : Byte) : P b1 b2 (instrOf opc b1 b2) := by
  unfold instrOf
  by_cases hr : opc.toNat / 16 < opcodeRows.length
  · rw [List.getD_eq_getElem _ _ hr]
    by_cases hc : opc.toNat % 16 < (opcodeRows[opc.toNat / 16]).length
    · rw [List.getD_eq_getElem _ _ hc]
      exact h _ (List.getElem_mem hr) _ (List.getElem_mem hc) b1 b2
    · rw [List.getD_eq_default _ _ (by omega)]
      exact hun opc b1 b2
  · rw [List.getD_eq_default opcodeRows _ (by omega)]
    exact hun opc b1 b2

/-- The opcode and the form of what a cell gives do not depend on the operand bytes, and its operand bytes
are as many of `b1`, `b2` as its form has (R80). -/
structure UniformCell (c : Cell) : Prop where
  opcode : ∀ b1 b2, (c b1 b2).opcode = (c 0 0).opcode
  mode : ∀ b1 b2, (c b1 b2).mode = (c 0 0).mode
  bytes : ∀ b1 b2, (c b1 b2).operandBytes = [b1, b2].take (c 0 0).mode.operandCount

/-- A cell over an address is uniform when the instruction is so in the address. -/
theorem UniformCell.ofAddr {k : Addr → Instr} {opc : Option Byte} {m : Mode}
    (ho : ∀ a, (k a).opcode = opc) (hm : ∀ a, (k a).mode = m) (hc : m.operandCount = 2)
    (hb : ∀ a, (k a).operandBytes = [loByte a, hiByte a]) :
    UniformCell (fun b1 b2 => k (addrOf b1 b2)) where
  opcode _ _ := by rw [ho, ho]
  mode _ _ := by rw [hm, hm]
  bytes b1 b2 := by rw [hm, hb, hc, loByte_addrOf, hiByte_addrOf]; rfl

/-- A cell over a memory form with a two-byte operand. -/
theorem UniformCell.ofAbs {k : MemForm → Instr} {opc : Option Byte} {m : Mode}
    (ho : ∀ a, (k (.abs a)).opcode = opc) (hm : ∀ a, (k (.abs a)).mode = m) (hc : m.operandCount = 2)
    (hb : ∀ a, (k (.abs a)).operandBytes = [loByte a, hiByte a]) : UniformCell (OpMap.abs k) :=
  .ofAddr ho hm hc hb

theorem UniformCell.ofAbx {k : MemForm → Instr} {opc : Option Byte} {m : Mode}
    (ho : ∀ a, (k (.abx a)).opcode = opc) (hm : ∀ a, (k (.abx a)).mode = m) (hc : m.operandCount = 2)
    (hb : ∀ a, (k (.abx a)).operandBytes = [loByte a, hiByte a]) : UniformCell (OpMap.abx k) :=
  .ofAddr ho hm hc hb

theorem UniformCell.ofAby {k : MemForm → Instr} {opc : Option Byte} {m : Mode}
    (ho : ∀ a, (k (.aby a)).opcode = opc) (hm : ∀ a, (k (.aby a)).mode = m) (hc : m.operandCount = 2)
    (hb : ∀ a, (k (.aby a)).operandBytes = [loByte a, hiByte a]) : UniformCell (OpMap.aby k) :=
  .ofAddr ho hm hc hb

theorem UniformCell.ofJump {k : Addr → Instr} {opc : Option Byte} {m : Mode}
    (ho : ∀ a, (k a).opcode = opc) (hm : ∀ a, (k a).mode = m) (hc : m.operandCount = 2)
    (hb : ∀ a, (k a).operandBytes = [loByte a, hiByte a]) : UniformCell (OpMap.addr k) :=
  .ofAddr ho hm hc hb

/-! ### Row by row -/

theorem row0_uniform : ∀ c ∈ OpMap.row0, UniformCell c := by
  simp only [OpMap.row0, List.forall_mem_cons, List.not_mem_nil, false_imp_iff, implies_true, and_true]
  refine ⟨?_, ?_, ?_, ?_, ?_, ?_, ?_, ?_, ?_, ?_, ?_, ?_, ?_, ?_, ?_, ?_⟩ <;>
    first
    | (with_reducible apply UniformCell.ofAbs) <;> (intros; rfl)
    | exact ⟨fun _ _ => rfl, fun _ _ => rfl, fun _ _ => rfl⟩

theorem row1_uniform : ∀ c ∈ OpMap.row1, UniformCell c := by
  simp only [OpMap.row1, List.forall_mem_cons, List.not_mem_nil, false_imp_iff, implies_true, and_true]
  refine ⟨?_, ?_, ?_, ?_, ?_, ?_, ?_, ?_, ?_, ?_, ?_, ?_, ?_, ?_, ?_, ?_⟩ <;>
    first
    | (with_reducible apply UniformCell.ofAbx) <;> (intros; rfl)
    | (with_reducible apply UniformCell.ofAby) <;> (intros; rfl)
    | exact ⟨fun _ _ => rfl, fun _ _ => rfl, fun _ _ => rfl⟩

theorem row2_uniform : ∀ c ∈ OpMap.row2, UniformCell c := by
  simp only [OpMap.row2, List.forall_mem_cons, List.not_mem_nil, false_imp_iff, implies_true, and_true]
  refine ⟨?_, ?_, ?_, ?_, ?_, ?_, ?_, ?_, ?_, ?_, ?_, ?_, ?_, ?_, ?_, ?_⟩ <;>
    first
    | (with_reducible apply UniformCell.ofAbs) <;> (intros; rfl)
    | (with_reducible apply UniformCell.ofJump) <;> (intros; rfl)
    | exact ⟨fun _ _ => rfl, fun _ _ => rfl, fun _ _ => rfl⟩

theorem row3_uniform : ∀ c ∈ OpMap.row3, UniformCell c := by
  simp only [OpMap.row3, List.forall_mem_cons, List.not_mem_nil, false_imp_iff, implies_true, and_true]
  refine ⟨?_, ?_, ?_, ?_, ?_, ?_, ?_, ?_, ?_, ?_, ?_, ?_, ?_, ?_, ?_, ?_⟩ <;>
    first
    | (with_reducible apply UniformCell.ofAbx) <;> (intros; rfl)
    | (with_reducible apply UniformCell.ofAby) <;> (intros; rfl)
    | exact ⟨fun _ _ => rfl, fun _ _ => rfl, fun _ _ => rfl⟩

theorem row4_uniform : ∀ c ∈ OpMap.row4, UniformCell c := by
  simp only [OpMap.row4, List.forall_mem_cons, List.not_mem_nil, false_imp_iff, implies_true, and_true]
  refine ⟨?_, ?_, ?_, ?_, ?_, ?_, ?_, ?_, ?_, ?_, ?_, ?_, ?_, ?_, ?_, ?_⟩ <;>
    first
    | (with_reducible apply UniformCell.ofAbs) <;> (intros; rfl)
    | (with_reducible apply UniformCell.ofJump) <;> (intros; rfl)
    | exact ⟨fun _ _ => rfl, fun _ _ => rfl, fun _ _ => rfl⟩

theorem row5_uniform : ∀ c ∈ OpMap.row5, UniformCell c := by
  simp only [OpMap.row5, List.forall_mem_cons, List.not_mem_nil, false_imp_iff, implies_true, and_true]
  refine ⟨?_, ?_, ?_, ?_, ?_, ?_, ?_, ?_, ?_, ?_, ?_, ?_, ?_, ?_, ?_, ?_⟩ <;>
    first
    | (with_reducible apply UniformCell.ofAbx) <;> (intros; rfl)
    | (with_reducible apply UniformCell.ofAby) <;> (intros; rfl)
    | exact ⟨fun _ _ => rfl, fun _ _ => rfl, fun _ _ => rfl⟩

theorem row6_uniform : ∀ c ∈ OpMap.row6, UniformCell c := by
  simp only [OpMap.row6, List.forall_mem_cons, List.not_mem_nil, false_imp_iff, implies_true, and_true]
  refine ⟨?_, ?_, ?_, ?_, ?_, ?_, ?_, ?_, ?_, ?_, ?_, ?_, ?_, ?_, ?_, ?_⟩ <;>
    first
    | (with_reducible apply UniformCell.ofAbs) <;> (intros; rfl)
    | (with_reducible apply UniformCell.ofJump) <;> (intros; rfl)
    | exact ⟨fun _ _ => rfl, fun _ _ => rfl, fun _ _ => rfl⟩

theorem row7_uniform : ∀ c ∈ OpMap.row7, UniformCell c := by
  simp only [OpMap.row7, List.forall_mem_cons, List.not_mem_nil, false_imp_iff, implies_true, and_true]
  refine ⟨?_, ?_, ?_, ?_, ?_, ?_, ?_, ?_, ?_, ?_, ?_, ?_, ?_, ?_, ?_, ?_⟩ <;>
    first
    | (with_reducible apply UniformCell.ofAbx) <;> (intros; rfl)
    | (with_reducible apply UniformCell.ofAby) <;> (intros; rfl)
    | exact ⟨fun _ _ => rfl, fun _ _ => rfl, fun _ _ => rfl⟩

theorem row8_uniform : ∀ c ∈ OpMap.row8, UniformCell c := by
  simp only [OpMap.row8, List.forall_mem_cons, List.not_mem_nil, false_imp_iff, implies_true, and_true]
  refine ⟨?_, ?_, ?_, ?_, ?_, ?_, ?_, ?_, ?_, ?_, ?_, ?_, ?_, ?_, ?_, ?_⟩ <;>
    first
    | (with_reducible apply UniformCell.ofAbs) <;> (intros; rfl)
    | exact ⟨fun _ _ => rfl, fun _ _ => rfl, fun _ _ => rfl⟩

theorem row9_uniform : ∀ c ∈ OpMap.row9, UniformCell c := by
  simp only [OpMap.row9, List.forall_mem_cons, List.not_mem_nil, false_imp_iff, implies_true, and_true]
  refine ⟨?_, ?_, ?_, ?_, ?_, ?_, ?_, ?_, ?_, ?_, ?_, ?_, ?_, ?_, ?_, ?_⟩ <;>
    first
    | (with_reducible apply UniformCell.ofAbx) <;> (intros; rfl)
    | (with_reducible apply UniformCell.ofAby) <;> (intros; rfl)
    | exact ⟨fun _ _ => rfl, fun _ _ => rfl, fun _ _ => rfl⟩

theorem rowA_uniform : ∀ c ∈ OpMap.rowA, UniformCell c := by
  simp only [OpMap.rowA, List.forall_mem_cons, List.not_mem_nil, false_imp_iff, implies_true, and_true]
  refine ⟨?_, ?_, ?_, ?_, ?_, ?_, ?_, ?_, ?_, ?_, ?_, ?_, ?_, ?_, ?_, ?_⟩ <;>
    first
    | (with_reducible apply UniformCell.ofAbs) <;> (intros; rfl)
    | exact ⟨fun _ _ => rfl, fun _ _ => rfl, fun _ _ => rfl⟩

theorem rowB_uniform : ∀ c ∈ OpMap.rowB, UniformCell c := by
  simp only [OpMap.rowB, List.forall_mem_cons, List.not_mem_nil, false_imp_iff, implies_true, and_true]
  refine ⟨?_, ?_, ?_, ?_, ?_, ?_, ?_, ?_, ?_, ?_, ?_, ?_, ?_, ?_, ?_, ?_⟩ <;>
    first
    | (with_reducible apply UniformCell.ofAbx) <;> (intros; rfl)
    | (with_reducible apply UniformCell.ofAby) <;> (intros; rfl)
    | exact ⟨fun _ _ => rfl, fun _ _ => rfl, fun _ _ => rfl⟩

theorem rowC_uniform : ∀ c ∈ OpMap.rowC, UniformCell c := by
  simp only [OpMap.rowC, List.forall_mem_cons, List.not_mem_nil, false_imp_iff, implies_true, and_true]
  refine ⟨?_, ?_, ?_, ?_, ?_, ?_, ?_, ?_, ?_, ?_, ?_, ?_, ?_, ?_, ?_, ?_⟩ <;>
    first
    | (with_reducible apply UniformCell.ofAbs) <;> (intros; rfl)
    | exact ⟨fun _ _ => rfl, fun _ _ => rfl, fun _ _ => rfl⟩

theorem rowD_uniform : ∀ c ∈ OpMap.rowD, UniformCell c := by
  simp only [OpMap.rowD, List.forall_mem_cons, List.not_mem_nil, false_imp_iff, implies_true, and_true]
  refine ⟨?_, ?_, ?_, ?_, ?_, ?_, ?_, ?_, ?_, ?_, ?_, ?_, ?_, ?_, ?_, ?_⟩ <;>
    first
    | (with_reducible apply UniformCell.ofAbx) <;> (intros; rfl)
    | (with_reducible apply UniformCell.ofAby) <;> (intros; rfl)
    | exact ⟨fun _ _ => rfl, fun _ _ => rfl, fun _ _ => rfl⟩

theorem rowE_uniform : ∀ c ∈ OpMap.rowE, UniformCell c := by
  simp only [OpMap.rowE, List.forall_mem_cons, List.not_mem_nil, false_imp_iff, implies_true, and_true]
  refine ⟨?_, ?_, ?_, ?_, ?_, ?_, ?_, ?_, ?_, ?_, ?_, ?_, ?_, ?_, ?_, ?_⟩ <;>
    first
    | (with_reducible apply UniformCell.ofAbs) <;> (intros; rfl)
    | exact ⟨fun _ _ => rfl, fun _ _ => rfl, fun _ _ => rfl⟩

theorem rowF_uniform : ∀ c ∈ OpMap.rowF, UniformCell c := by
  simp only [OpMap.rowF, List.forall_mem_cons, List.not_mem_nil, false_imp_iff, implies_true, and_true]
  refine ⟨?_, ?_, ?_, ?_, ?_, ?_, ?_, ?_, ?_, ?_, ?_, ?_, ?_, ?_, ?_, ?_⟩ <;>
    first
    | (with_reducible apply UniformCell.ofAbx) <;> (intros; rfl)
    | (with_reducible apply UniformCell.ofAby) <;> (intros; rfl)
    | exact ⟨fun _ _ => rfl, fun _ _ => rfl, fun _ _ => rfl⟩

/-- Every cell of the matrix is uniform. -/
theorem cells_uniform : ∀ row ∈ opcodeRows, ∀ c ∈ row, UniformCell c := by
  simp only [opcodeRows, List.forall_mem_cons, List.not_mem_nil, false_imp_iff, implies_true, and_true]
  exact ⟨row0_uniform, row1_uniform, row2_uniform, row3_uniform, row4_uniform, row5_uniform,
    row6_uniform, row7_uniform, row8_uniform, row9_uniform, rowA_uniform, rowB_uniform, rowC_uniform,
    rowD_uniform, rowE_uniform, rowF_uniform⟩

end Sys2Proof
end

