-- ==== Sys2Proof/Laws/State.lean ====
section
/-! SUPPORT. One lemma per field per named update of the state, true by `rfl`, so that no proof unfolds an
update; and the flags of a packed byte. -/

namespace Sys2Proof.Machine


/-! ## `SetNZ` on the flags -/

@[simp] theorem StatusFlags.setNZ_n (p : StatusFlags) (w : Byte) : (p.setNZ w).n = bit7 w := rfl
@[simp] theorem StatusFlags.setNZ_v (p : StatusFlags) (w : Byte) : (p.setNZ w).v = p.v := rfl
@[simp] theorem StatusFlags.setNZ_r (p : StatusFlags) (w : Byte) : (p.setNZ w).r = p.r := rfl
@[simp] theorem StatusFlags.setNZ_b (p : StatusFlags) (w : Byte) : (p.setNZ w).b = p.b := rfl
@[simp] theorem StatusFlags.setNZ_d (p : StatusFlags) (w : Byte) : (p.setNZ w).d = p.d := rfl
@[simp] theorem StatusFlags.setNZ_i (p : StatusFlags) (w : Byte) : (p.setNZ w).i = p.i := rfl
@[simp] theorem StatusFlags.setNZ_z (p : StatusFlags) (w : Byte) : (p.setNZ w).z = (w == 0) := rfl
@[simp] theorem StatusFlags.setNZ_c (p : StatusFlags) (w : Byte) : (p.setNZ w).c = p.c := rfl

/-! ## `Unpack` on the flags -/

@[simp] theorem StatusFlags.unpack_n (p : StatusFlags) (w : Byte) : (p.unpack w).n = w.getLsbD 7 := rfl
@[simp] theorem StatusFlags.unpack_v (p : StatusFlags) (w : Byte) : (p.unpack w).v = w.getLsbD 6 := rfl
@[simp] theorem StatusFlags.unpack_r (p : StatusFlags) (w : Byte) : (p.unpack w).r = p.r := rfl
@[simp] theorem StatusFlags.unpack_b (p : StatusFlags) (w : Byte) : (p.unpack w).b = p.b := rfl
@[simp] theorem StatusFlags.unpack_d (p : StatusFlags) (w : Byte) : (p.unpack w).d = w.getLsbD 3 := rfl
@[simp] theorem StatusFlags.unpack_i (p : StatusFlags) (w : Byte) : (p.unpack w).i = w.getLsbD 2 := rfl
@[simp] theorem StatusFlags.unpack_z (p : StatusFlags) (w : Byte) : (p.unpack w).z = w.getLsbD 1 := rfl
@[simp] theorem StatusFlags.unpack_c (p : StatusFlags) (w : Byte) : (p.unpack w).c = w.getLsbD 0 := rfl

/-! ## `State.setNZ` -/

@[simp] theorem State.setNZ_a (s : State) (w : Byte) : (s.setNZ w).a = s.a := rfl
@[simp] theorem State.setNZ_x (s : State) (w : Byte) : (s.setNZ w).x = s.x := rfl
@[simp] theorem State.setNZ_y (s : State) (w : Byte) : (s.setNZ w).y = s.y := rfl
@[simp] theorem State.setNZ_sp (s : State) (w : Byte) : (s.setNZ w).sp = s.sp := rfl
@[simp] theorem State.setNZ_pc (s : State) (w : Byte) : (s.setNZ w).pc = s.pc := rfl
@[simp] theorem State.setNZ_p (s : State) (w : Byte) : (s.setNZ w).p = s.p.setNZ w := rfl
@[simp] theorem State.setNZ_resetPending (s : State) (w : Byte) :
    (s.setNZ w).resetPending = s.resetPending := rfl
@[simp] theorem State.setNZ_nmiPrev (s : State) (w : Byte) : (s.setNZ w).nmiPrev = s.nmiPrev := rfl
@[simp] theorem State.setNZ_nmiPending (s : State) (w : Byte) :
    (s.setNZ w).nmiPending = s.nmiPending := rfl
@[simp] theorem State.setNZ_brkPending (s : State) (w : Byte) :
    (s.setNZ w).brkPending = s.brkPending := rfl
@[simp] theorem State.setNZ_irqLine (s : State) (w : Byte) : (s.setNZ w).irqLine = s.irqLine := rfl
@[simp] theorem State.setNZ_mem (s : State) (w : Byte) : (s.setNZ w).mem = s.mem := rfl
@[simp] theorem State.setNZ_prgSize (s : State) (w : Byte) : (s.setNZ w).prgSize = s.prgSize := rfl
@[simp] theorem State.setNZ_deviceLog (s : State) (w : Byte) :
    (s.setNZ w).deviceLog = s.deviceLog := rfl
@[simp] theorem State.setNZ_cycles (s : State) (w : Byte) : (s.setNZ w).cycles = s.cycles := rfl

/-! ## `State.loadA` -/

@[simp] theorem State.loadA_a (s : State) (w : Byte) : (s.loadA w).a = w := rfl
@[simp] theorem State.loadA_x (s : State) (w : Byte) : (s.loadA w).x = s.x := rfl
@[simp] theorem State.loadA_y (s : State) (w : Byte) : (s.loadA w).y = s.y := rfl
@[simp] theorem State.loadA_sp (s : State) (w : Byte) : (s.loadA w).sp = s.sp := rfl
@[simp] theorem State.loadA_pc (s : State) (w : Byte) : (s.loadA w).pc = s.pc := rfl
@[simp] theorem State.loadA_p (s : State) (w : Byte) : (s.loadA w).p = s.p.setNZ w := rfl
@[simp] theorem State.loadA_resetPending (s : State) (w : Byte) :
    (s.loadA w).resetPending = s.resetPending := rfl
@[simp] theorem State.loadA_nmiPrev (s : State) (w : Byte) : (s.loadA w).nmiPrev = s.nmiPrev := rfl
@[simp] theorem State.loadA_nmiPending (s : State) (w : Byte) :
    (s.loadA w).nmiPending = s.nmiPending := rfl
@[simp] theorem State.loadA_brkPending (s : State) (w : Byte) :
    (s.loadA w).brkPending = s.brkPending := rfl
@[simp] theorem State.loadA_irqLine (s : State) (w : Byte) : (s.loadA w).irqLine = s.irqLine := rfl
@[simp] theorem State.loadA_mem (s : State) (w : Byte) : (s.loadA w).mem = s.mem := rfl
@[simp] theorem State.loadA_prgSize (s : State) (w : Byte) : (s.loadA w).prgSize = s.prgSize := rfl
@[simp] theorem State.loadA_deviceLog (s : State) (w : Byte) :
    (s.loadA w).deviceLog = s.deviceLog := rfl
@[simp] theorem State.loadA_cycles (s : State) (w : Byte) : (s.loadA w).cycles = s.cycles := rfl

/-! ## `State.setC` -/

@[simp] theorem State.setC_a (s : State) (c : Bool) : (s.setC c).a = s.a := rfl
@[simp] theorem State.setC_x (s : State) (c : Bool) : (s.setC c).x = s.x := rfl
@[simp] theorem State.setC_y (s : State) (c : Bool) : (s.setC c).y = s.y := rfl
@[simp] theorem State.setC_sp (s : State) (c : Bool) : (s.setC c).sp = s.sp := rfl
@[simp] theorem State.setC_pc (s : State) (c : Bool) : (s.setC c).pc = s.pc := rfl
@[simp] theorem State.setC_p (s : State) (c : Bool) : (s.setC c).p = { s.p with c := c } := rfl
@[simp] theorem State.setC_resetPending (s : State) (c : Bool) :
    (s.setC c).resetPending = s.resetPending := rfl
@[simp] theorem State.setC_nmiPrev (s : State) (c : Bool) : (s.setC c).nmiPrev = s.nmiPrev := rfl
@[simp] theorem State.setC_nmiPending (s : State) (c : Bool) :
    (s.setC c).nmiPending = s.nmiPending := rfl
@[simp] theorem State.setC_brkPending (s : State) (c : Bool) :
    (s.setC c).brkPending = s.brkPending := rfl
@[simp] theorem State.setC_irqLine (s : State) (c : Bool) : (s.setC c).irqLine = s.irqLine := rfl
@[simp] theorem State.setC_mem (s : State) (c : Bool) : (s.setC c).mem = s.mem := rfl
@[simp] theorem State.setC_prgSize (s : State) (c : Bool) : (s.setC c).prgSize = s.prgSize := rfl
@[simp] theorem State.setC_deviceLog (s : State) (c : Bool) : (s.setC c).deviceLog = s.deviceLog := rfl
@[simp] theorem State.setC_cycles (s : State) (c : Bool) : (s.setC c).cycles = s.cycles := rfl

/-! ## `compare` -/

@[simp] theorem compare_a (s : State) (g m : Byte) : (compare g m s).a = s.a := rfl
@[simp] theorem compare_x (s : State) (g m : Byte) : (compare g m s).x = s.x := rfl
@[simp] theorem compare_y (s : State) (g m : Byte) : (compare g m s).y = s.y := rfl
@[simp] theorem compare_sp (s : State) (g m : Byte) : (compare g m s).sp = s.sp := rfl
@[simp] theorem compare_pc (s : State) (g m : Byte) : (compare g m s).pc = s.pc := rfl
@[simp] theorem compare_p (s : State) (g m : Byte) :
    (compare g m s).p = { s.p.setNZ (g - m) with c := decide (m.toNat ≤ g.toNat) } := rfl
@[simp] theorem compare_resetPending (s : State) (g m : Byte) :
    (compare g m s).resetPending = s.resetPending := rfl
@[simp] theorem compare_nmiPrev (s : State) (g m : Byte) : (compare g m s).nmiPrev = s.nmiPrev := rfl
@[simp] theorem compare_nmiPending (s : State) (g m : Byte) :
    (compare g m s).nmiPending = s.nmiPending := rfl
@[simp] theorem compare_brkPending (s : State) (g m : Byte) :
    (compare g m s).brkPending = s.brkPending := rfl
@[simp] theorem compare_irqLine (s : State) (g m : Byte) : (compare g m s).irqLine = s.irqLine := rfl
@[simp] theorem compare_mem (s : State) (g m : Byte) : (compare g m s).mem = s.mem := rfl
@[simp] theorem compare_prgSize (s : State) (g m : Byte) : (compare g m s).prgSize = s.prgSize := rfl
@[simp] theorem compare_deviceLog (s : State) (g m : Byte) :
    (compare g m s).deviceLog = s.deviceLog := rfl
@[simp] theorem compare_cycles (s : State) (g m : Byte) : (compare g m s).cycles = s.cycles := rfl

/-! ## `addWithCarry` -/

@[simp] theorem addWithCarry_x (s : State) (m : Byte) : (addWithCarry m s).x = s.x := rfl
@[simp] theorem addWithCarry_y (s : State) (m : Byte) : (addWithCarry m s).y = s.y := rfl
@[simp] theorem addWithCarry_sp (s : State) (m : Byte) : (addWithCarry m s).sp = s.sp := rfl
@[simp] theorem addWithCarry_pc (s : State) (m : Byte) : (addWithCarry m s).pc = s.pc := rfl
@[simp] theorem addWithCarry_resetPending (s : State) (m : Byte) :
    (addWithCarry m s).resetPending = s.resetPending := rfl
@[simp] theorem addWithCarry_nmiPrev (s : State) (m : Byte) :
    (addWithCarry m s).nmiPrev = s.nmiPrev := rfl
@[simp] theorem addWithCarry_nmiPending (s : State) (m : Byte) :
    (addWithCarry m s).nmiPending = s.nmiPending := rfl
@[simp] theorem addWithCarry_brkPending (s : State) (m : Byte) :
    (addWithCarry m s).brkPending = s.brkPending := rfl
@[simp] theorem addWithCarry_irqLine (s : State) (m : Byte) :
    (addWithCarry m s).irqLine = s.irqLine := rfl
@[simp] theorem addWithCarry_mem (s : State) (m : Byte) : (addWithCarry m s).mem = s.mem := rfl
@[simp] theorem addWithCarry_prgSize (s : State) (m : Byte) :
    (addWithCarry m s).prgSize = s.prgSize := rfl
@[simp] theorem addWithCarry_deviceLog (s : State) (m : Byte) :
    (addWithCarry m s).deviceLog = s.deviceLog := rfl
@[simp] theorem addWithCarry_cycles (s : State) (m : Byte) : (addWithCarry m s).cycles = s.cycles := rfl
@[simp] theorem addWithCarry_p_r (s : State) (m : Byte) : (addWithCarry m s).p.r = s.p.r := rfl
@[simp] theorem addWithCarry_p_b (s : State) (m : Byte) : (addWithCarry m s).p.b = s.p.b := rfl
@[simp] theorem addWithCarry_p_d (s : State) (m : Byte) : (addWithCarry m s).p.d = s.p.d := rfl
@[simp] theorem addWithCarry_p_i (s : State) (m : Byte) : (addWithCarry m s).p.i = s.p.i := rfl

/-! ## `subWithBorrow` -/

@[simp] theorem subWithBorrow_x (s : State) (m : Byte) : (subWithBorrow m s).x = s.x := rfl
@[simp] theorem subWithBorrow_y (s : State) (m : Byte) : (subWithBorrow m s).y = s.y := rfl
@[simp] theorem subWithBorrow_sp (s : State) (m : Byte) : (subWithBorrow m s).sp = s.sp := rfl
@[simp] theorem subWithBorrow_pc (s : State) (m : Byte) : (subWithBorrow m s).pc = s.pc := rfl
@[simp] theorem subWithBorrow_resetPending (s : State) (m : Byte) :
    (subWithBorrow m s).resetPending = s.resetPending := rfl
@[simp] theorem subWithBorrow_nmiPrev (s : State) (m : Byte) :
    (subWithBorrow m s).nmiPrev = s.nmiPrev := rfl
@[simp] theorem subWithBorrow_nmiPending (s : State) (m : Byte) :
    (subWithBorrow m s).nmiPending = s.nmiPending := rfl
@[simp] theorem subWithBorrow_brkPending (s : State) (m : Byte) :
    (subWithBorrow m s).brkPending = s.brkPending := rfl
@[simp] theorem subWithBorrow_irqLine (s : State) (m : Byte) :
    (subWithBorrow m s).irqLine = s.irqLine := rfl
@[simp] theorem subWithBorrow_mem (s : State) (m : Byte) : (subWithBorrow m s).mem = s.mem := rfl
@[simp] theorem subWithBorrow_prgSize (s : State) (m : Byte) :
    (subWithBorrow m s).prgSize = s.prgSize := rfl
@[simp] theorem subWithBorrow_deviceLog (s : State) (m : Byte) :
    (subWithBorrow m s).deviceLog = s.deviceLog := rfl
@[simp] theorem subWithBorrow_cycles (s : State) (m : Byte) :
    (subWithBorrow m s).cycles = s.cycles := rfl
@[simp] theorem subWithBorrow_p_r (s : State) (m : Byte) : (subWithBorrow m s).p.r = s.p.r := rfl
@[simp] theorem subWithBorrow_p_b (s : State) (m : Byte) : (subWithBorrow m s).p.b = s.p.b := rfl
@[simp] theorem subWithBorrow_p_d (s : State) (m : Byte) : (subWithBorrow m s).p.d = s.p.d := rfl
@[simp] theorem subWithBorrow_p_i (s : State) (m : Byte) : (subWithBorrow m s).p.i = s.p.i := rfl

/-! ## `bitTest` -/

@[simp] theorem bitTest_a (s : State) (m : Byte) : (bitTest m s).a = s.a := rfl
@[simp] theorem bitTest_x (s : State) (m : Byte) : (bitTest m s).x = s.x := rfl
@[simp] theorem bitTest_y (s : State) (m : Byte) : (bitTest m s).y = s.y := rfl
@[simp] theorem bitTest_sp (s : State) (m : Byte) : (bitTest m s).sp = s.sp := rfl
@[simp] theorem bitTest_pc (s : State) (m : Byte) : (bitTest m s).pc = s.pc := rfl
@[simp] theorem bitTest_resetPending (s : State) (m : Byte) :
    (bitTest m s).resetPending = s.resetPending := rfl
@[simp] theorem bitTest_nmiPrev (s : State) (m : Byte) : (bitTest m s).nmiPrev = s.nmiPrev := rfl
@[simp] theorem bitTest_nmiPending (s : State) (m : Byte) :
    (bitTest m s).nmiPending = s.nmiPending := rfl
@[simp] theorem bitTest_brkPending (s : State) (m : Byte) :
    (bitTest m s).brkPending = s.brkPending := rfl
@[simp] theorem bitTest_irqLine (s : State) (m : Byte) : (bitTest m s).irqLine = s.irqLine := rfl
@[simp] theorem bitTest_mem (s : State) (m : Byte) : (bitTest m s).mem = s.mem := rfl
@[simp] theorem bitTest_prgSize (s : State) (m : Byte) : (bitTest m s).prgSize = s.prgSize := rfl
@[simp] theorem bitTest_deviceLog (s : State) (m : Byte) : (bitTest m s).deviceLog = s.deviceLog := rfl
@[simp] theorem bitTest_cycles (s : State) (m : Byte) : (bitTest m s).cycles = s.cycles := rfl
@[simp] theorem bitTest_p_r (s : State) (m : Byte) : (bitTest m s).p.r = s.p.r := rfl
@[simp] theorem bitTest_p_b (s : State) (m : Byte) : (bitTest m s).p.b = s.p.b := rfl
@[simp] theorem bitTest_p_d (s : State) (m : Byte) : (bitTest m s).p.d = s.p.d := rfl
@[simp] theorem bitTest_p_i (s : State) (m : Byte) : (bitTest m s).p.i = s.p.i := rfl
@[simp] theorem bitTest_p_c (s : State) (m : Byte) : (bitTest m s).p.c = s.p.c := rfl

/-! ## Clearing a latch -/

theorem State.clearLatch_eq (s : State) (k : InterruptKind) :
    s.clearLatch k = { s with
      brkPending := match k with | .brk => false | .nmi | .irq => s.brkPending
      nmiPending := match k with | .nmi => false | .brk | .irq => s.nmiPending } := by
  cases k <;> rfl

/-! ## The packed status byte -/

/-- The eight bits of a packed byte (R10). -/
theorem StatusFlags.pack_bits (p : StatusFlags) (b : Bool) :
    (p.pack b).getLsbD 7 = p.n ∧ (p.pack b).getLsbD 6 = p.v ∧ (p.pack b).getLsbD 5 = p.r ∧
    (p.pack b).getLsbD 4 = b ∧ (p.pack b).getLsbD 3 = p.d ∧ (p.pack b).getLsbD 2 = p.i ∧
    (p.pack b).getLsbD 1 = p.z ∧ (p.pack b).getLsbD 0 = p.c := by
  rcases p with ⟨n, v, r, b', d, i, z, c⟩
  revert n v r b' d i z c b
  decide

end Sys2Proof.Machine
end

