-- ==== Sys2Proof/Laws/Memory.lean ====
section
/-! SUPPORT. Memory: what a read after a write gives, that every write keeps the canonical form and the
cells of the address map, and what the address map says of the zero page, the stack page and the
vectors. -/

namespace Sys2Proof.Machine

/-! ## Reading what was written -/

theorem Memory.read_of_above {m : Memory} {a : Nat} (h : Memory.above a m = true) :
    m.read a = Memory.unlisted := by
  induction m with
  | nil => rfl
  | cons e m ih =>
    obtain ⟨k, v⟩ := e
    simp only [Memory.above, List.all_cons, Bool.and_eq_true, decide_eq_true_eq] at h
    simp only [Memory.read]
    rw [if_neg (by omega)]
    exact ih h.2

theorem Memory.above_mono {m : Memory} {a b : Nat} (h : Memory.above b m = true) (hab : a ≤ b) :
    Memory.above a m = true := by
  simp only [Memory.above, List.all_eq_true, decide_eq_true_eq] at *
  intro e he
  have := h e he
  omega

theorem Memory.read_entry (m : Memory) (a b : Nat) (v : Byte) (h : Memory.above a m = true) :
    (Memory.entry a v m).read b = if a = b then v else m.read b := by
  unfold Memory.entry
  by_cases hab : a = b
  · subst hab
    by_cases hv : v = Memory.unlisted
    · simp [hv, Memory.read_of_above h]
    · simp [hv, Memory.read]
  · by_cases hv : v = Memory.unlisted <;> simp [hv, hab, Memory.read]

/-- A read after a write, in a canonical memory: the cell written has the byte, the others theirs. -/
theorem Memory.read_write (m : Memory) (a b : Nat) (v : Byte) (h : m.wf = true) :
    (m.write a v).read b = if a = b then v else m.read b := by
  induction m with
  | nil => exact Memory.read_entry [] a b v rfl
  | cons e m ih =>
    obtain ⟨k, w⟩ := e
    simp only [Memory.wf, Bool.and_eq_true, decide_eq_true_eq] at h
    simp only [Memory.write]
    split
    · next hlt =>
      refine Memory.read_entry _ a b v ?_
      have := Memory.above_mono h.1.2 (Nat.le_of_lt hlt)
      simp [Memory.above] at this ⊢
      exact ⟨hlt, this⟩
    · split
      · next heq =>
        subst heq
        rw [Memory.read_entry m a b v h.1.2]
        by_cases hab : a = b <;> simp [Memory.read, hab]
      · next h1 h2 =>
        simp only [Memory.read]
        by_cases hkb : k = b
        · subst hkb
          rw [if_pos rfl, if_pos rfl, if_neg h2]
        · rw [if_neg hkb, if_neg hkb, ih h.2]

/-- A write leaves every other cell alone, in any memory. -/
theorem Memory.read_write_ne (m : Memory) (a b : Nat) (v : Byte) (hab : a ≠ b) :
    (m.write a v).read b = m.read b := by
  have entry_ne (m : Memory) : (Memory.entry a v m).read b = m.read b := by
    unfold Memory.entry
    split <;> simp [Memory.read, hab]
  induction m with
  | nil => exact entry_ne []
  | cons e m ih =>
    obtain ⟨k, w⟩ := e
    simp only [Memory.write]
    split
    · exact entry_ne _
    · split
      · next heq =>
        rw [entry_ne, Memory.read, if_neg (heq ▸ hab)]
      · simp only [Memory.read, ih]

/-! ## The canonical form -/

theorem Memory.wf_entry {m : Memory} {a : Nat} {v : Byte} (h : m.wf = true)
    (ha : Memory.above a m = true) : (Memory.entry a v m).wf = true := by
  unfold Memory.entry
  split
  · exact h
  · next hv => simp [Memory.wf, hv, ha, h]

theorem Memory.above_write {m : Memory} {lo a : Nat} {v : Byte} (h : Memory.above lo m = true)
    (hlo : lo < a) : Memory.above lo (m.write a v) = true := by
  have entry_above (m : Memory) (h : Memory.above lo m = true) :
      Memory.above lo (Memory.entry a v m) = true := by
    unfold Memory.entry
    split
    · exact h
    · simp only [Memory.above, List.all_cons, Bool.and_eq_true, decide_eq_true_eq] at *
      exact ⟨hlo, h⟩
  induction m with
  | nil => exact entry_above [] rfl
  | cons e m ih =>
    obtain ⟨k, w⟩ := e
    have hm : Memory.above lo m = true := by
      simp only [Memory.above, List.all_cons, Bool.and_eq_true] at h ⊢
      exact h.2
    simp only [Memory.write]
    split
    · exact entry_above _ h
    · split
      · exact entry_above _ hm
      · have := ih hm
        simp only [Memory.above, List.all_cons, Bool.and_eq_true, decide_eq_true_eq] at h this ⊢
        exact ⟨h.1, this⟩

/-- Every write keeps the canonical form. -/
theorem Memory.wf_write {m : Memory} (h : m.wf = true) (a : Nat) (v : Byte) :
    (m.write a v).wf = true := by
  induction m with
  | nil => exact Memory.wf_entry rfl rfl
  | cons e m ih =>
    obtain ⟨k, w⟩ := e
    have hall := h
    simp only [Memory.wf, Bool.and_eq_true, decide_eq_true_eq] at h
    simp only [Memory.write]
    split
    · next hlt =>
      refine Memory.wf_entry hall ?_
      have := Memory.above_mono h.1.2 (Nat.le_of_lt hlt)
      simp only [Memory.above, List.all_cons, Bool.and_eq_true, decide_eq_true_eq] at this ⊢
      exact ⟨hlt, this⟩
    · split
      · next heq => exact Memory.wf_entry h.2 (heq ▸ h.1.2)
      · next h1 h2 =>
        simp only [Memory.wf, Bool.and_eq_true, decide_eq_true_eq]
        exact ⟨⟨h.1.1, Memory.above_write h.1.2 (by omega)⟩, ih h.2⟩

/-- A write to a cell of the address map keeps all listed cells cells of the map. -/
theorem Memory.mapped_write {m : Memory} {prg : PrgSize} (h : m.mapped prg = true) {a : Nat}
    (ha : isCell prg a = true) (v : Byte) : (m.write a v).mapped prg = true := by
  have entry_mapped (m : Memory) (h : m.mapped prg = true) :
      (Memory.entry a v m).mapped prg = true := by
    unfold Memory.entry
    split
    · exact h
    · simp only [Memory.mapped, List.all_cons, Bool.and_eq_true] at *
      exact ⟨ha, h⟩
  induction m with
  | nil => exact entry_mapped [] rfl
  | cons e m ih =>
    obtain ⟨k, w⟩ := e
    have hm : Memory.mapped prg m = true := by
      simp only [Memory.mapped, List.all_cons, Bool.and_eq_true] at h ⊢
      exact h.2
    simp only [Memory.write]
    split
    · exact entry_mapped _ h
    · split
      · exact entry_mapped _ hm
      · have := ih hm
        simp only [Memory.mapped, List.all_cons, Bool.and_eq_true] at h this ⊢
        exact ⟨h.1, this⟩

/-! ## The address map -/

/-- The region of an address, by its number (R56). -/
theorem region_cases (a : Addr) :
    (a.toNat < 0x2000 ∧ region a = .wram) ∨
    (0x2000 ≤ a.toNat ∧ a.toNat < 0x4000 ∧ region a = .ppu) ∨
    (0x4000 ≤ a.toNat ∧ a.toNat < 0x4020 ∧ region a = .io) ∨
    (0x4020 ≤ a.toNat ∧ a.toNat < 0x6000 ∧ region a = .expansionRom) ∨
    (0x6000 ≤ a.toNat ∧ a.toNat < 0x8000 ∧ region a = .expansionRam) ∨
    (0x8000 ≤ a.toNat ∧ region a = .prgRom) := by
  simp only [region]
  split_ifs <;> simp <;> omega

/-- The class of an address, by its number (R56). -/
theorem classOf_cases (a : Addr) :
    (classOf a = .ram ∧ (a.toNat < 0x2000 ∨ 0x6000 ≤ a.toNat ∧ a.toNat < 0x8000)) ∨
    (classOf a = .rom ∧ (0x4020 ≤ a.toNat ∧ a.toNat < 0x6000 ∨ 0x8000 ≤ a.toNat)) ∨
    (classOf a = .device ∧ 0x2000 ≤ a.toNat ∧ a.toNat < 0x4020) := by
  rcases region_cases a with ⟨h, e⟩ | ⟨h1, h2, e⟩ | ⟨h1, h2, e⟩ | ⟨h1, h2, e⟩ | ⟨h1, h2, e⟩ | ⟨h, e⟩ <;>
    simp [classOf, e, Region.cls] <;> omega

/-- WRAM and its mirrors are one cell each (R56: `a & 0x07FF`). -/
theorem cellOf_wram (prg : PrgSize) (a : Addr) (h : a.toNat < 0x2000) :
    cellOf prg a = a.toNat % 0x800 := by
  have : region a = .wram := by simp [region, h]
  simp [cellOf, this]

theorem classOf_wram (a : Addr) (h : a.toNat < 0x2000) : classOf a = .ram := by
  simp [classOf, region, h, Region.cls]

theorem classOf_prgRom (a : Addr) (h : 0x8000 ≤ a.toNat) : classOf a = .rom := by
  rcases classOf_cases a with ⟨_, h'⟩ | ⟨e, _⟩ | ⟨_, h'⟩
  · omega
  · exact e
  · omega

/-- The cell of a RAM or ROM address is a cell of the map. -/
theorem isCell_cellOf (prg : PrgSize) (a : Addr) (h : classOf a ≠ .device) :
    isCell prg (cellOf prg a) = true := by
  have hlt := a.isLt
  rcases region_cases a with ⟨h', e⟩ | ⟨_, _, e⟩ | ⟨_, _, e⟩ | ⟨h1, h2, e⟩ | ⟨h1, h2, e⟩ | ⟨h', e⟩
  · simp [cellOf, e, isCell]; omega
  · simp [classOf, e, Region.cls] at h
  · simp [classOf, e, Region.cls] at h
  · simp [cellOf, e, isCell]; omega
  · simp [cellOf, e, isCell]; omega
  · cases prg <;> simp [cellOf, e, isCell] <;> omega

/-- A RAM cell and a ROM cell are never the same cell. -/
theorem cellOf_ram_ne_rom (prg : PrgSize) (a b : Addr) (ha : classOf a = .ram) (hb : classOf b = .rom) :
    cellOf prg a ≠ cellOf prg b := by
  have hla := a.isLt
  have hlb := b.isLt
  rcases region_cases a with ⟨h, e⟩ | ⟨_, _, e⟩ | ⟨_, _, e⟩ | ⟨h1, h2, e⟩ | ⟨h1, h2, e⟩ | ⟨h, e⟩ <;>
    simp [classOf, e, Region.cls] at ha <;>
    rcases region_cases b with ⟨g, f⟩ | ⟨_, _, f⟩ | ⟨_, _, f⟩ | ⟨g1, g2, f⟩ | ⟨g1, g2, f⟩ | ⟨g, f⟩ <;>
    simp [classOf, f, Region.cls] at hb <;> cases prg <;> simp [cellOf, e, f] <;> omega

/-! ## The zero page and the stack page -/

@[simp] theorem zext16_toNat (v : Byte) : (zext16 v).toNat = v.toNat := by
  have := v.isLt
  simp [zext16]
  omega

@[simp] theorem classOf_zext16 (v : Byte) : classOf (zext16 v) = .ram := by
  have := v.isLt
  exact classOf_wram _ (by rw [zext16_toNat]; omega)

@[simp] theorem cellOf_zext16 (prg : PrgSize) (v : Byte) : cellOf prg (zext16 v) = v.toNat := by
  have := v.isLt
  rw [cellOf_wram _ _ (by rw [zext16_toNat]; omega), zext16_toNat]
  omega

@[simp] theorem stackAddr_toNat (sp : Byte) : (stackAddr sp).toNat = 0x100 + sp.toNat := by
  have := sp.isLt
  simp [stackAddr, stackBase, BitVec.toNat_add]
  omega

@[simp] theorem classOf_stackAddr (sp : Byte) : classOf (stackAddr sp) = .ram := by
  have := sp.isLt
  exact classOf_wram _ (by rw [stackAddr_toNat]; omega)

@[simp] theorem cellOf_stackAddr (prg : PrgSize) (sp : Byte) :
    cellOf prg (stackAddr sp) = 0x100 + sp.toNat := by
  have := sp.isLt
  rw [cellOf_wram _ _ (by rw [stackAddr_toNat]; omega), stackAddr_toNat]
  omega

end Sys2Proof.Machine
end

