-- ==== Sys2Proof/Laws/Ops.lean ====
section
/-! SUPPORT. One lemma per shared operation that says what it can do: sequencing, the two bus accesses,
the stack, pairs of reads, and how memory reads after a store. -/

namespace Sys2Proof.Machine

/-! ## Sequencing -/

@[simp] theorem chain_ok {α β : Type} (v : α) (s : State) (k : α → State → Access β) :
    chain (.ok (v, s)) k = k v s := rfl

@[simp] theorem chain_answer {α β : Type} (v : α) (s : State) (k : α → State → Access β) :
    chain (answer v s) k = k v s := rfl

@[simp] theorem chain_error {α β : Type} (f : Fault) (k : α → State → Access β) :
    chain (.error f) k = .error f := rfl

@[simp] theorem andThen_ok {α : Type} (v : α) (s : State) (k : α → State → Out) :
    andThen (.ok (v, s)) k = k v s := rfl

@[simp] theorem andThen_answer {α : Type} (v : α) (s : State) (k : α → State → Out) :
    andThen (answer v s) k = k v s := rfl

@[simp] theorem andThen_error {α : Type} (f : Fault) (k : α → State → Out) :
    andThen (.error f) k = .fault f := rfl

/-- A sequence succeeds exactly when both parts do. -/
theorem chain_eq_ok {α β : Type} {r : Access α} {k : α → State → Access β} {x : β × State} :
    chain r k = .ok x ↔ ∃ v s, r = .ok (v, s) ∧ k v s = .ok x := by
  cases r with
  | ok p => exact Iff.intro (fun h => ⟨p.1, p.2, rfl, h⟩) fun ⟨_, _, h, h'⟩ => by cases h; exact h'
  | error f => exact Iff.intro (fun h => nomatch h) fun ⟨_, _, h, _⟩ => nomatch h

/-- A sequence fails exactly when one of its parts does. -/
theorem chain_eq_error {α β : Type} {r : Access α} {k : α → State → Access β} {f : Fault} :
    chain r k = .error f ↔ r = .error f ∨ ∃ v s, r = .ok (v, s) ∧ k v s = .error f := by
  rcases r with g | ⟨v, s⟩ <;> simp

/-- A meaning answers a next state exactly when its operation succeeds and the rest does. -/
theorem andThen_eq_next {α : Type} {r : Access α} {k : α → State → Out} {t : State} :
    andThen r k = .next t ↔ ∃ v s, r = .ok (v, s) ∧ k v s = .next t := by
  cases r with
  | ok p => exact Iff.intro (fun h => ⟨p.1, p.2, rfl, h⟩) fun ⟨_, _, h, h'⟩ => by cases h; exact h'
  | error f => exact Iff.intro (fun h => nomatch h) fun ⟨_, _, h, _⟩ => nomatch h

/-- A meaning faults exactly when its operation does or the rest does. -/
theorem andThen_eq_fault {α : Type} {r : Access α} {k : α → State → Out} {f : Fault} :
    andThen r k = .fault f ↔ r = .error f ∨ ∃ v s, r = .ok (v, s) ∧ k v s = .fault f := by
  cases r with
  | ok p =>
    refine ⟨fun h => .inr ⟨p.1, p.2, rfl, h⟩, ?_⟩
    rintro (h | ⟨v, s, h, h'⟩)
    · exact nomatch h
    · cases h; exact h'
  | error g =>
    refine ⟨fun h => .inl (by cases h; rfl), ?_⟩
    rintro (h | ⟨v, s, h, _⟩)
    · cases h; rfl
    · exact nomatch h

theorem done_eq_next {n : Nat} {s t : State} : done n s = .next t ↔ t = { s with cycles := n } := by
  simp [done, eq_comm]

/-! ## Bus accesses -/

@[simp] theorem onBus_ok {α : Type} (a : Addr) (x : α × State) : onBus a (.ok x) = .ok x := rfl

@[simp] theorem onBus_error {α : Type} (a : Addr) (kind : BusErrorKind) :
    onBus a (.error kind : BusReply α) = .error (.busError kind a) := rfl

theorem memRead_plain (a : Addr) (s : State) (h : classOf a ≠ .device) :
    memRead a s = .ok (s.mem.read (cellOf s.prgSize a), s) := by
  unfold memRead busRead
  split
  · rfl
  · rfl
  · next e => exact absurd e h

/-- A device read asks the free value and is noted in the log. -/
theorem memRead_device (a : Addr) (s : State) (h : classOf a = .device) :
    memRead a s = match Config.deviceRead s.deviceLog a with
      | .byte v => .ok (v, { s with deviceLog := .read a :: s.deviceLog })
      | .refused => .error (.busError .readOnly a) := by
  simp only [memRead, busRead, h]
  cases Config.deviceRead s.deviceLog a <;> rfl

theorem memWrite_ram (a : Addr) (v : Byte) (s : State) (h : classOf a = .ram) :
    memWrite a v s = .ok ((), { s with mem := s.mem.write (cellOf s.prgSize a) v }) := by
  simp only [memWrite, busWrite, h, onBus_ok]

theorem memWrite_rom (a : Addr) (v : Byte) (s : State) (h : classOf a = .rom) :
    memWrite a v s = .error (.busError .readOnly a) := by
  simp only [memWrite, busWrite, h, onBus_error]

theorem memWrite_device (a : Addr) (v : Byte) (s : State) (h : classOf a = .device) :
    memWrite a v s = match Config.deviceWrite s.deviceLog a v with
      | .taken => .ok ((), { s with deviceLog := .write a v :: s.deviceLog })
      | .refused => .error (.busError .readOnly a) := by
  simp only [memWrite, busWrite, h]
  cases Config.deviceWrite s.deviceLog a v <;> rfl

/-- Everything a successful read can do to the state: note a device read. -/
theorem memRead_next {a : Addr} {s t : State} {v : Byte} (h : memRead a s = .ok (v, t)) :
    t = s ∨ (classOf a = .device ∧ t = { s with deviceLog := .read a :: s.deviceLog }) := by
  by_cases hc : classOf a = .device
  · rw [memRead_device a s hc] at h
    split at h
    · cases h; exact .inr ⟨hc, rfl⟩
    · cases h
  · rw [memRead_plain a s hc] at h
    cases h; exact .inl rfl

/-- Everything a successful write can do to the state: change one RAM cell, or note a device write. -/
theorem memWrite_next {a : Addr} {v : Byte} {s t : State} {u : Unit} (h : memWrite a v s = .ok (u, t)) :
    (classOf a = .ram ∧ t = { s with mem := s.mem.write (cellOf s.prgSize a) v }) ∨
    (classOf a = .device ∧ t = { s with deviceLog := .write a v :: s.deviceLog }) := by
  rcases classOf_cases a with ⟨hc, _⟩ | ⟨hc, _⟩ | ⟨hc, _⟩
  · rw [memWrite_ram a v s hc] at h
    cases h; exact .inl ⟨hc, rfl⟩
  · rw [memWrite_rom a v s hc] at h
    cases h
  · rw [memWrite_device a v s hc] at h
    split at h
    · cases h; exact .inr ⟨hc, rfl⟩
    · cases h

/-- A read fails at a device alone, at the address read and with kind `ReadOnly` (R57, R60, C12). -/
theorem memRead_error {a : Addr} {s : State} {f : Fault} (h : memRead a s = .error f) :
    classOf a = .device ∧ f = .busError .readOnly a := by
  by_cases hc : classOf a = .device
  · rw [memRead_device a s hc] at h
    split at h
    · cases h
    · cases h; exact ⟨hc, rfl⟩
  · rw [memRead_plain a s hc] at h
    cases h

/-- A write fails at ROM or a device, at the address written and with kind `ReadOnly` (R57, R60, C12). -/
theorem memWrite_error {a : Addr} {v : Byte} {s : State} {f : Fault} (h : memWrite a v s = .error f) :
    classOf a ≠ .ram ∧ f = .busError .readOnly a := by
  rcases classOf_cases a with ⟨hc, _⟩ | ⟨hc, _⟩ | ⟨hc, _⟩
  · rw [memWrite_ram a v s hc] at h
    cases h
  · rw [memWrite_rom a v s hc] at h
    cases h; simp [hc]
  · rw [memWrite_device a v s hc] at h
    split at h
    · cases h
    · cases h; simp [hc]

/-! ## Pairs of reads, the stack -/

theorem readPair_plain (lo hi : Addr) (s : State) (hl : classOf lo ≠ .device)
    (hh : classOf hi ≠ .device) :
    readPair lo hi s = .ok (addrOf (s.mem.read (cellOf s.prgSize lo))
      (s.mem.read (cellOf s.prgSize hi)), s) := by
  simp [readPair, memRead_plain, hl, hh, answer]

/-- A pair of reads changes the device log only. -/
theorem readPair_next {lo hi : Addr} {s t : State} {v : Addr} (h : readPair lo hi s = .ok (v, t)) :
    t = { s with deviceLog := t.deviceLog } := by
  obtain ⟨l, s1, h1, h2⟩ := chain_eq_ok.1 h
  obtain ⟨g, s2, h3, h4⟩ := chain_eq_ok.1 h2
  cases h4
  rcases memRead_next h1 with rfl | ⟨_, rfl⟩ <;> rcases memRead_next h3 with rfl | ⟨_, rfl⟩ <;> rfl

/-- A push always succeeds: the stack page is RAM (R11, R134). -/
theorem push_eq (v : Byte) (s : State) :
    push v s = .ok ((), { s with mem := s.mem.write (0x100 + s.sp.toNat) v, sp := s.sp - 1 }) := by
  simp [push, memWrite_ram, answer]

/-- A pop always succeeds: the stack page is RAM (R11, R134). -/
theorem pop_eq (s : State) :
    pop s = .ok (s.mem.read (0x100 + (s.sp + 1).toNat), { s with sp := s.sp + 1 }) := by
  simp [pop, memRead_plain]

theorem pushAddr_eq (v : Addr) (s : State) :
    pushAddr v s = .ok ((), { s with
      mem := (s.mem.write (0x100 + s.sp.toNat) (hiByte v)).write (0x100 + (s.sp - 1).toNat) (loByte v)
      sp := s.sp - 1 - 1 }) := by
  simp [pushAddr, push_eq]

theorem popAddr_eq (s : State) :
    popAddr s = .ok (addrOf (s.mem.read (0x100 + (s.sp + 1).toNat))
      (s.mem.read (0x100 + (s.sp + 1 + 1).toNat)), { s with sp := s.sp + 1 + 1 }) := by
  simp [popAddr, pop_eq, answer]

/-- The vectors are in PRG-ROM (R56, R318), so reading one always succeeds. -/
theorem classOf_vector (k : InterruptKind) :
    classOf k.vector = .rom ∧ classOf (k.vector + 1) = .rom := by
  cases k <;> decide

/-! ## What reads back -/

theorem peek_congr {s t : State} (hm : t.mem = s.mem) (hp : t.prgSize = s.prgSize) (a : Addr) :
    t.peek a = s.peek a := by
  simp [State.peek, hm, hp]

/-- A cell write changes no byte of another cell. -/
theorem peek_write_ne {s t : State} {c : Nat} {v : Byte} (hm : t.mem = s.mem.write c v)
    (hp : t.prgSize = s.prgSize) (a : Addr) (ha : cellOf s.prgSize a ≠ c) : t.peek a = s.peek a := by
  simp only [State.peek, hm, hp]
  rw [Memory.read_write_ne _ _ _ _ (Ne.symm ha)]

end Sys2Proof.Machine
end

