-- ==== Sys2Proof/Laws/Operands.lean ====
section
/-! SUPPORT. The operand forms: every effective address is found in every state, with nothing else changed;
and everything that reading, storing to and modifying an operand can do. -/

namespace Sys2Proof.Machine

/-- The effective address of a memory form, as a value (R87 to R95). -/
def effectiveOf (f : MemForm) (s : State) : Effective :=
  match f with
  | .zp b1 => { ea := zext16 b1, crossed := false }
  | .zpx b1 => { ea := zext16 (b1 + s.x), crossed := false }
  | .zpy b1 => { ea := zext16 (b1 + s.y), crossed := false }
  | .abs a => { ea := a, crossed := false }
  | .abx a => indexed a s.x
  | .aby a => indexed a s.y
  | .izx b1 =>
    { ea := addrOf (s.mem.read (b1 + s.x).toNat) (s.mem.read (b1 + s.x + 1).toNat), crossed := false }
  | .izy b1 => indexed (addrOf (s.mem.read b1.toNat) (s.mem.read (b1 + 1).toNat)) s.y

/-- Resolving a form always succeeds and changes nothing: its pointer lies in the zero page. -/
theorem resolve_eq (f : MemForm) (s : State) : resolve f s = .ok (effectiveOf f s, s) := by
  cases f with
  | izx b1 =>
    simp only [resolve, readPair_plain _ _ _ (by simp : classOf (zext16 (b1 + s.x)) ≠ .device)
      (by simp : classOf (zext16 (b1 + s.x + 1)) ≠ .device), cellOf_zext16, chain_ok]
    rfl
  | izy b1 =>
    simp only [resolve, readPair_plain _ _ _ (by simp : classOf (zext16 b1) ≠ .device)
      (by simp : classOf (zext16 (b1 + 1)) ≠ .device), cellOf_zext16, chain_ok]
    rfl
  | zp | zpx | zpy | abs | abx | aby => rfl

/-- Reading a memory operand is one read at its effective address. -/
theorem readMem_eq (f : MemForm) (s : State) :
    readMem f s = chain (memRead (effectiveOf f s).ea s) fun v t =>
      .ok ({ value := v, crossed := (effectiveOf f s).crossed }, t) := by
  simp only [readMem, resolve_eq, chain_ok, answer]

/-- Reading an operand changes the device log only. -/
theorem readSource_next {o : Source} {s t : State} {m : Operand} (h : readSource o s = .ok (m, t)) :
    t = { s with deviceLog := t.deviceLog } := by
  cases o with
  | imm b1 => cases h; rfl
  | mem f =>
    rw [readSource, readMem_eq] at h
    obtain ⟨v, s1, h1, h2⟩ := chain_eq_ok.1 h
    cases h2
    rcases memRead_next h1 with rfl | ⟨_, rfl⟩ <;> rfl

/-- A store is one write at the effective address. -/
theorem storeMem_eq (f : MemForm) (v : Byte) (s : State) :
    storeMem f v s = memWrite (effectiveOf f s).ea v s := by
  simp only [storeMem, resolve_eq, chain_ok]

/-- A read-modify-write, when it succeeds: RAM is read and written, or a device is read once and then
written once (R62, R355). -/
theorem modifyMem_next {f : MemForm} {g : Byte → State → Byte × State} {s t : State} {r : Byte}
    (h : modifyMem f g s = .ok (r, t)) :
    let ea := (effectiveOf f s).ea
    ∃ v s1 s2, memRead ea s = .ok (v, s1) ∧ r = (g v s1).1 ∧
      memWrite ea r (g v s1).2 = .ok ((), s2) ∧ t = s2 := by
  simp only [modifyMem, resolve_eq, chain_ok] at h
  obtain ⟨v, s1, h1, h2⟩ := chain_eq_ok.1 h
  obtain ⟨u, s2, h3, h4⟩ := chain_eq_ok.1 h2
  cases h4
  exact ⟨v, s1, _, h1, rfl, h3, rfl⟩

end Sys2Proof.Machine
end

