-- ==== Sys2Proof/Laws/Exec.lean ====
section
/-! SUPPORT. Everything a meaning can do when it answers a next state, one lemma per shape of instruction;
and the same of the fetch and of the sequences that a pending event starts. -/

namespace Sys2Proof.Machine

/-! ## Operand reads -/

/-- An operand read is one byte, and at most a note in the device log. -/
theorem readSource_ok {o : Source} {s t : State} {m : Operand} (h : readSource o s = .ok (m, t)) :
    ∃ dl, t = { s with deviceLog := dl } := ⟨_, readSource_next h⟩

/-- An instruction that reads its operand and then works on registers and flags with it (R139). -/
theorem readThen_next {o : Source} {g : Byte → State → State} {s t : State}
    (h : readThen o g s = .next t) :
    ∃ (m : Operand) (dl : List DeviceAccess),
      readSource o s = .ok (m, { s with deviceLog := dl }) ∧
      t = { g m.value { s with deviceLog := dl } with cycles := o.readCycles + crossCycle m.crossed } := by
  obtain ⟨m, s1, h1, h2⟩ := andThen_eq_next.1 h
  obtain ⟨dl, rfl⟩ := readSource_ok h1
  exact ⟨m, dl, h1, done_eq_next.1 h2⟩

/-! ## Writes -/

/-- The memory after a write to `ea` that succeeded: RAM has the byte, a device leaves memory alone. -/
def WrittenAt (prg : PrgSize) (ea : Addr) (v : Byte) (m m' : Memory) : Prop :=
  (classOf ea = .ram ∧ m' = m.write (cellOf prg ea) v) ∨ (classOf ea = .device ∧ m' = m)

/-- A write that succeeds changes memory at its address, or the device log. -/
theorem memWrite_ok {a : Addr} {v : Byte} {s t : State} {u : Unit} (h : memWrite a v s = .ok (u, t)) :
    ∃ m dl, t = { s with mem := m, deviceLog := dl } ∧ WrittenAt s.prgSize a v s.mem m := by
  rcases memWrite_next h with ⟨hc, rfl⟩ | ⟨hc, rfl⟩
  · exact ⟨_, _, rfl, .inl ⟨hc, rfl⟩⟩
  · exact ⟨_, _, rfl, .inr ⟨hc, rfl⟩⟩

/-- A store that succeeds. -/
theorem storeMem_ok {f : MemForm} {v : Byte} {s t : State} {u : Unit} (h : storeMem f v s = .ok (u, t)) :
    ∃ m dl, t = { s with mem := m, deviceLog := dl } ∧
      WrittenAt s.prgSize (effectiveOf f s).ea v s.mem m := by
  rw [storeMem_eq] at h
  exact memWrite_ok h

/-- The byte operation of a read-modify-write touches the flags alone, and reads nothing else. -/
structure FlagsOnly (g : Byte → State → Byte × State) : Prop where
  state : ∀ v s, (g v s).2 = { s with p := (g v s).2.p }
  cong : ∀ v s dl, g v { s with deviceLog := dl } = ((g v s).1, { (g v s).2 with deviceLog := dl })

theorem shiftLeft_flagsOnly : FlagsOnly shiftLeft := ⟨fun _ _ => rfl, fun _ _ _ => rfl⟩
theorem shiftRight_flagsOnly : FlagsOnly shiftRight := ⟨fun _ _ => rfl, fun _ _ _ => rfl⟩
theorem rotateLeft_flagsOnly : FlagsOnly rotateLeft := ⟨fun _ _ => rfl, fun _ _ _ => rfl⟩
theorem rotateRight_flagsOnly : FlagsOnly rotateRight := ⟨fun _ _ => rfl, fun _ _ _ => rfl⟩
theorem increment_flagsOnly : FlagsOnly increment := ⟨fun _ _ => rfl, fun _ _ _ => rfl⟩
theorem decrement_flagsOnly : FlagsOnly decrement := ⟨fun _ _ => rfl, fun _ _ _ => rfl⟩

/-- A read-modify-write that succeeds: with `v` the byte read, the flags are those of the operation on
`v` and memory has its byte at the effective address (R62, R159, R208). -/
theorem modifyMem_ok {f : MemForm} {g : Byte → State → Byte × State} (hg : FlagsOnly g) {s t : State}
    {r : Byte} (h : modifyMem f g s = .ok (r, t)) :
    ∃ v m dl, r = (g v s).1 ∧ t = { s with p := (g v s).2.p, mem := m, deviceLog := dl } ∧
      WrittenAt s.prgSize (effectiveOf f s).ea r s.mem m := by
  obtain ⟨v, s1, s2, h1, h2, h3, rfl⟩ := modifyMem_next h
  obtain ⟨dl, rfl⟩ : ∃ dl, s1 = { s with deviceLog := dl } := by
    rcases memRead_next h1 with rfl | ⟨_, rfl⟩
    · exact ⟨_, rfl⟩
    · exact ⟨_, rfl⟩
  rw [hg.cong] at h2 h3
  obtain ⟨m, dl', ht, hw⟩ := memWrite_ok h3
  have hs := hg.state v s
  refine ⟨v, m, dl', h2, ?_, ?_⟩
  · rw [ht, hs]
  · rw [hs] at hw; exact hw

/-- An instruction that stores a byte (R118). -/
theorem storeByte_next {f : MemForm} {v : Byte} {s t : State} (h : storeByte f v s = .next t) :
    ∃ m dl, t = { s with mem := m, deviceLog := dl, cycles := f.storeCycles } ∧
      WrittenAt s.prgSize (effectiveOf f s).ea v s.mem m := by
  obtain ⟨u, s1, h1, h2⟩ := andThen_eq_next.1 h
  obtain ⟨m, dl, rfl, hw⟩ := storeMem_ok h1
  exact ⟨m, dl, done_eq_next.1 h2, hw⟩

/-- An instruction that modifies a byte of memory in place and then works on registers and flags with the
byte written (R208). -/
theorem modifyThen_next {f : MemForm} {g : Byte → State → Byte × State} {k : Byte → State → State}
    (hg : FlagsOnly g) {s t : State} (h : modifyThen f g k s = .next t) :
    ∃ v m dl, t = { k (g v s).1 { s with p := (g v s).2.p, mem := m, deviceLog := dl } with
        cycles := f.modifyCycles } ∧
      WrittenAt s.prgSize (effectiveOf f s).ea (g v s).1 s.mem m := by
  obtain ⟨r, s1, h1, h2⟩ := andThen_eq_next.1 h
  obtain ⟨v, m, dl, rfl, rfl, hw⟩ := modifyMem_ok hg h1
  exact ⟨v, m, dl, done_eq_next.1 h2, hw⟩

/-- A branch changes `PC` alone, and completes always (R174). -/
theorem branchIf_eq (cond : Bool) (off : Byte) (s : State) :
    branchIf cond off s = .next { s with
      pc := if cond then (branchTarget off s.pc).ea else s.pc
      cycles := if cond then 3 + crossCycle (branchTarget off s.pc).crossed else 2 } := by
  cases cond <;> rfl

/-! ## The shape of each instruction -/

theorem exec_lda (o : Source) (s : State) :
    exec (.lda o) s = readThen o (fun m s => State.setNZ { s with a := m } m) s := rfl

theorem exec_ldx (o : Source) (s : State) :
    exec (.ldx o) s = readThen o (fun m s => State.setNZ { s with x := m } m) s := rfl

theorem exec_ldy (o : Source) (s : State) :
    exec (.ldy o) s = readThen o (fun m s => State.setNZ { s with y := m } m) s := rfl

theorem exec_adc (o : Source) (s : State) :
    exec (.adc o) s = readThen o addWithCarry s := rfl

theorem exec_sbc (o : Source) (s : State) :
    exec (.sbc o) s = readThen o subWithBorrow s := rfl

theorem exec_and (o : Source) (s : State) :
    exec (.and o) s = readThen o (fun m s => s.loadA (s.a &&& m)) s := rfl

theorem exec_ora (o : Source) (s : State) :
    exec (.ora o) s = readThen o (fun m s => s.loadA (s.a ||| m)) s := rfl

theorem exec_eor (o : Source) (s : State) :
    exec (.eor o) s = readThen o (fun m s => s.loadA (s.a ^^^ m)) s := rfl

theorem exec_cmp (o : Source) (s : State) :
    exec (.cmp o) s = readThen o (fun m s => compare s.a m s) s := rfl

theorem exec_cpx (o : Source) (s : State) :
    exec (.cpx o) s = readThen o (fun m s => compare s.x m s) s := rfl

theorem exec_cpy (o : Source) (s : State) :
    exec (.cpy o) s = readThen o (fun m s => compare s.y m s) s := rfl

theorem exec_bit (f : MemForm) (s : State) :
    exec (.bit f) s = readThen (.mem f) bitTest s := rfl

theorem exec_lax (f : MemForm) (s : State) :
    exec (.lax f) s = readThen (.mem f) (fun m s => State.setNZ { s with a := m, x := m } m) s := rfl

theorem exec_sbcu (b1 : Byte) (s : State) :
    exec (.sbcu b1) s = readThen (.imm b1) subWithBorrow s := rfl

theorem exec_sta (f : MemForm) (s : State) :
    exec (.sta f) s = storeByte f s.a s := rfl

theorem exec_stx (f : MemForm) (s : State) :
    exec (.stx f) s = storeByte f s.x s := rfl

theorem exec_sty (f : MemForm) (s : State) :
    exec (.sty f) s = storeByte f s.y s := rfl

theorem exec_sax (f : MemForm) (s : State) :
    exec (.sax f) s = storeByte f (s.a &&& s.x) s := rfl

theorem exec_inc (f : MemForm) (s : State) :
    exec (.inc f) s = modifyThen f increment (fun r s => s.setNZ r) s := rfl

theorem exec_dec (f : MemForm) (s : State) :
    exec (.dec f) s = modifyThen f decrement (fun r s => s.setNZ r) s := rfl

theorem exec_slo (f : MemForm) (s : State) :
    exec (.slo f) s = modifyThen f shiftLeft (fun r s => s.loadA (s.a ||| r)) s := rfl

theorem exec_rla (f : MemForm) (s : State) :
    exec (.rla f) s = modifyThen f rotateLeft (fun r s => s.loadA (s.a &&& r)) s := rfl

theorem exec_sre (f : MemForm) (s : State) :
    exec (.sre f) s = modifyThen f shiftRight (fun r s => s.loadA (s.a ^^^ r)) s := rfl

theorem exec_rra (f : MemForm) (s : State) :
    exec (.rra f) s = modifyThen f rotateRight addWithCarry s := rfl

theorem exec_dcp (f : MemForm) (s : State) :
    exec (.dcp f) s = modifyThen f decrement (fun r s => compare s.a r s) s := rfl

theorem exec_isc (f : MemForm) (s : State) :
    exec (.isc f) s = modifyThen f increment subWithBorrow s := rfl

theorem exec_asl_mem (f : MemForm) (s : State) :
    exec (.asl (.mem f)) s = modifyThen f shiftLeft (fun r s => s.setNZ r) s := rfl

theorem exec_lsr_mem (f : MemForm) (s : State) :
    exec (.lsr (.mem f)) s = modifyThen f shiftRight (fun r s => s.setNZ r) s := rfl

theorem exec_rol_mem (f : MemForm) (s : State) :
    exec (.rol (.mem f)) s = modifyThen f rotateLeft (fun r s => s.setNZ r) s := rfl

theorem exec_ror_mem (f : MemForm) (s : State) :
    exec (.ror (.mem f)) s = modifyThen f rotateRight (fun r s => s.setNZ r) s := rfl

theorem exec_bpl (off : Byte) (s : State) :
    exec (.bpl off) s = branchIf (!s.p.n) off s := rfl

theorem exec_bmi (off : Byte) (s : State) :
    exec (.bmi off) s = branchIf s.p.n off s := rfl

theorem exec_bvc (off : Byte) (s : State) :
    exec (.bvc off) s = branchIf (!s.p.v) off s := rfl

theorem exec_bvs (off : Byte) (s : State) :
    exec (.bvs off) s = branchIf s.p.v off s := rfl

theorem exec_bcc (off : Byte) (s : State) :
    exec (.bcc off) s = branchIf (!s.p.c) off s := rfl

theorem exec_bcs (off : Byte) (s : State) :
    exec (.bcs off) s = branchIf s.p.c off s := rfl

theorem exec_bne (off : Byte) (s : State) :
    exec (.bne off) s = branchIf (!s.p.z) off s := rfl

theorem exec_beq (off : Byte) (s : State) :
    exec (.beq off) s = branchIf s.p.z off s := rfl

/-! ## Sequences -/

/-- A taken interrupt entry always completes: the stack is RAM and the vectors are ROM (R302, R316). -/
theorem interruptEntry_eq (k : InterruptKind) (s : State) :
    interruptEntry k s = .next { s with
      mem := ((s.mem.write (0x100 + s.sp.toNat) (hiByte s.pc)).write (0x100 + (s.sp - 1).toNat)
        (loByte s.pc)).write (0x100 + (s.sp - 1 - 1).toNat) (s.p.pack (k.pushedB s.p))
      sp := s.sp - 1 - 1 - 1
      p := { s.p with i := true }
      brkPending := match k with | .brk => false | .nmi | .irq => s.brkPending
      nmiPending := match k with | .nmi => false | .brk | .irq => s.nmiPending
      pc := addrOf
        ((((s.mem.write (0x100 + s.sp.toNat) (hiByte s.pc)).write (0x100 + (s.sp - 1).toNat)
          (loByte s.pc)).write (0x100 + (s.sp - 1 - 1).toNat)
            (s.p.pack (k.pushedB s.p))).read (cellOf s.prgSize k.vector))
        ((((s.mem.write (0x100 + s.sp.toNat) (hiByte s.pc)).write (0x100 + (s.sp - 1).toNat)
          (loByte s.pc)).write (0x100 + (s.sp - 1 - 1).toNat)
            (s.p.pack (k.pushedB s.p))).read (cellOf s.prgSize (k.vector + 1)))
      cycles := k.cycles } := by
  obtain ⟨h1, h2⟩ := classOf_vector k
  simp only [interruptEntry, pushAddr_eq, push_eq, andThen_ok, State.clearLatch_eq]
  rw [readPair_plain _ _ _ (by rw [h1]; decide) (by rw [h2]; decide)]
  rfl

/-- The reset sequence always completes (R341, R344). -/
theorem resetSequence_eq (s : State) :
    resetSequence s = .next { s with
      a := Config.resetA, x := Config.resetX, y := Config.resetY, sp := Config.resetS, p := resetP
      resetPending := false, nmiPending := false, brkPending := false
      pc := addrOf (s.mem.read (cellOf s.prgSize vecReset)) (s.mem.read (cellOf s.prgSize (vecReset + 1)))
      cycles := resetCycles } := by
  have h1 : classOf vecReset ≠ .device := by decide
  have h2 : classOf (vecReset + 1) ≠ .device := by decide
  simp only [resetSequence]
  rw [readPair_plain _ _ _ h1 h2]
  rfl

/-- A return from an interrupt always completes (R195). -/
theorem returnFromInterrupt_eq (s : State) :
    returnFromInterrupt s = .next { s with
      p := s.p.unpack (s.mem.read (0x100 + (s.sp + 1).toNat))
      pc := addrOf (s.mem.read (0x100 + (s.sp + 1 + 1).toNat)) (s.mem.read (0x100 + (s.sp + 1 + 1 + 1).toNat))
      sp := s.sp + 1 + 1 + 1
      cycles := 6 } := by
  simp only [returnFromInterrupt, pop_eq, popAddr_eq, andThen_ok]
  rfl

/-- A byte fetched moves `PC` on by one, and at most notes a device read. -/
theorem fetchByte_ok {s t : State} {v : Byte} (h : fetchByte s = .ok (v, t)) :
    ∃ dl, memRead s.pc s = .ok (v, { s with deviceLog := dl }) ∧
      t = { s with pc := s.pc + 1, deviceLog := dl } := by
  obtain ⟨w, s1, h1, h2⟩ := chain_eq_ok.1 h
  cases h2
  rcases memRead_next h1 with rfl | ⟨_, rfl⟩
  · exact ⟨_, h1, rfl⟩
  · exact ⟨_, h1, rfl⟩

/-- A fetch delivers the instruction of its opcode and operand bytes, moves `PC` on by the bytes fetched,
and at most notes device reads (R82). -/
theorem fetch_ok {s t : State} {i : Instr} (h : fetch s = .ok (i, t)) :
    ∃ opc b1 b2 dl, i = instrOf opc b1 b2 ∧
      t = { s with pc := s.pc + BitVec.ofNat 16 (1 + operandCount opc), deviceLog := dl } := by
  obtain ⟨opc, s1, h1, h2⟩ := chain_eq_ok.1 h
  obtain ⟨dl1, _, rfl⟩ := fetchByte_ok h1
  split at h2
  · next h0 =>
    cases h2
    exact ⟨opc, 0, 0, dl1, rfl, by rw [h0]; rfl⟩
  · next h0 =>
    obtain ⟨b1, s2, h3, h4⟩ := chain_eq_ok.1 h2
    obtain ⟨dl2, _, rfl⟩ := fetchByte_ok h3
    cases h4
    exact ⟨opc, b1, 0, dl2, rfl, by rw [h0]; simp [BitVec.add_assoc]⟩
  · next n h0 h0' =>
    have hn : operandCount opc = 2 := by
      have h2 : operandCount opc ≤ 2 := by
        unfold operandCount; cases (instrOf opc 0 0).mode <;> decide
      have h3 : operandCount opc ≠ 0 := h0
      have h4 : operandCount opc ≠ 1 := h0'
      omega
    obtain ⟨b1, s2, h3, h4⟩ := chain_eq_ok.1 h2
    obtain ⟨dl2, _, rfl⟩ := fetchByte_ok h3
    obtain ⟨b2, s3, h5, h6⟩ := chain_eq_ok.1 h4
    obtain ⟨dl3, _, rfl⟩ := fetchByte_ok h5
    cases h6
    exact ⟨opc, b1, b2, dl3, rfl, by rw [hn]; simp [BitVec.add_assoc]⟩

end Sys2Proof.Machine
end

