-- ==== Sys2Proof/Laws/PerInstr.lean ====
section
/-! SUPPORT. For every instruction: its encoding is as long as its operand form says, one to three bytes
(R80). -/

namespace Sys2Proof

/-- A memory operand has as many bytes as its form says. -/
theorem MemForm.bytes_length (f : MemForm) : f.bytes.length = f.mode.operandCount := by
  cases f <;> rfl

/-- A read operand has as many bytes as its form says. -/
theorem Source.bytes_length (o : Source) : o.bytes.length = o.mode.operandCount := by
  cases o with
  | imm => rfl
  | mem f => exact f.bytes_length

/-- A shift's operand has as many bytes as its form says. -/
theorem Target.bytes_length (t : Target) : t.bytes.length = t.mode.operandCount := by
  cases t with
  | acc => rfl
  | mem f => exact f.bytes_length

/-- An undocumented `NOP` has as many operand bytes as its form says. -/
theorem NopOperand.bytes_length (o : NopOperand) : o.bytes.length = o.mode.operandCount := by
  cases o with
  | imp => rfl
  | src o => exact o.bytes_length

namespace Laws.EncodedLength

/-- Every encoding of the instruction has the instruction's length, which is 1, 2 or 3 (R80). -/
def Statement (i : Instr) : Prop :=
  ∀ bs, encode i = some bs → bs.length = i.length ∧ 1 ≤ bs.length ∧ bs.length ≤ 3

/-- It is enough that the operand bytes are as many as the form says. -/
theorem of_operandBytes {i : Instr} (h : i.operandBytes.length = i.mode.operandCount) : Statement i := by
  intro bs hbs
  obtain ⟨opc, _, rfl⟩ := Option.map_eq_some_iff.1 hbs
  have hm : i.mode.operandCount ≤ 2 := by cases i.mode <;> decide
  simp only [List.length_cons, Instr.length]
  omega

theorem lda (o : Source) : Statement (.lda o) := of_operandBytes o.bytes_length
theorem ldx (o : Source) : Statement (.ldx o) := of_operandBytes o.bytes_length
theorem ldy (o : Source) : Statement (.ldy o) := of_operandBytes o.bytes_length
theorem sta (f : MemForm) : Statement (.sta f) := of_operandBytes f.bytes_length
theorem stx (f : MemForm) : Statement (.stx f) := of_operandBytes f.bytes_length
theorem sty (f : MemForm) : Statement (.sty f) := of_operandBytes f.bytes_length
theorem tax : Statement .tax := of_operandBytes rfl
theorem tay : Statement .tay := of_operandBytes rfl
theorem txa : Statement .txa := of_operandBytes rfl
theorem tya : Statement .tya := of_operandBytes rfl
theorem tsx : Statement .tsx := of_operandBytes rfl
theorem txs : Statement .txs := of_operandBytes rfl
theorem pha : Statement .pha := of_operandBytes rfl
theorem php : Statement .php := of_operandBytes rfl
theorem pla : Statement .pla := of_operandBytes rfl
theorem plp : Statement .plp := of_operandBytes rfl
theorem adc (o : Source) : Statement (.adc o) := of_operandBytes o.bytes_length
theorem sbc (o : Source) : Statement (.sbc o) := of_operandBytes o.bytes_length
theorem and (o : Source) : Statement (.and o) := of_operandBytes o.bytes_length
theorem ora (o : Source) : Statement (.ora o) := of_operandBytes o.bytes_length
theorem eor (o : Source) : Statement (.eor o) := of_operandBytes o.bytes_length
theorem cmp (o : Source) : Statement (.cmp o) := of_operandBytes o.bytes_length
theorem cpx (o : Source) : Statement (.cpx o) := of_operandBytes o.bytes_length
theorem cpy (o : Source) : Statement (.cpy o) := of_operandBytes o.bytes_length
theorem bit (f : MemForm) : Statement (.bit f) := of_operandBytes f.bytes_length
theorem inc (f : MemForm) : Statement (.inc f) := of_operandBytes f.bytes_length
theorem dec (f : MemForm) : Statement (.dec f) := of_operandBytes f.bytes_length
theorem inx : Statement .inx := of_operandBytes rfl
theorem iny : Statement .iny := of_operandBytes rfl
theorem dex : Statement .dex := of_operandBytes rfl
theorem dey : Statement .dey := of_operandBytes rfl
theorem asl (t : Target) : Statement (.asl t) := of_operandBytes t.bytes_length
theorem lsr (t : Target) : Statement (.lsr t) := of_operandBytes t.bytes_length
theorem rol (t : Target) : Statement (.rol t) := of_operandBytes t.bytes_length
theorem ror (t : Target) : Statement (.ror t) := of_operandBytes t.bytes_length
theorem jmp (addr : Addr) : Statement (.jmp addr) := of_operandBytes rfl
theorem jmpInd (ptr : Addr) : Statement (.jmpInd ptr) := of_operandBytes rfl
theorem jsr (addr : Addr) : Statement (.jsr addr) := of_operandBytes rfl
theorem rts : Statement .rts := of_operandBytes rfl
theorem bpl (off : Byte) : Statement (.bpl off) := of_operandBytes rfl
theorem bmi (off : Byte) : Statement (.bmi off) := of_operandBytes rfl
theorem bvc (off : Byte) : Statement (.bvc off) := of_operandBytes rfl
theorem bvs (off : Byte) : Statement (.bvs off) := of_operandBytes rfl
theorem bcc (off : Byte) : Statement (.bcc off) := of_operandBytes rfl
theorem bcs (off : Byte) : Statement (.bcs off) := of_operandBytes rfl
theorem bne (off : Byte) : Statement (.bne off) := of_operandBytes rfl
theorem beq (off : Byte) : Statement (.beq off) := of_operandBytes rfl
theorem clc : Statement .clc := of_operandBytes rfl
theorem sec : Statement .sec := of_operandBytes rfl
theorem cli : Statement .cli := of_operandBytes rfl
theorem sei : Statement .sei := of_operandBytes rfl
theorem clv : Statement .clv := of_operandBytes rfl
theorem cld : Statement .cld := of_operandBytes rfl
theorem sed : Statement .sed := of_operandBytes rfl
theorem nop : Statement .nop := of_operandBytes rfl
theorem brk : Statement .brk := of_operandBytes rfl
theorem rti : Statement .rti := of_operandBytes rfl
theorem lax (f : MemForm) : Statement (.lax f) := of_operandBytes f.bytes_length
theorem sax (f : MemForm) : Statement (.sax f) := of_operandBytes f.bytes_length
theorem slo (f : MemForm) : Statement (.slo f) := of_operandBytes f.bytes_length
theorem rla (f : MemForm) : Statement (.rla f) := of_operandBytes f.bytes_length
theorem sre (f : MemForm) : Statement (.sre f) := of_operandBytes f.bytes_length
theorem rra (f : MemForm) : Statement (.rra f) := of_operandBytes f.bytes_length
theorem dcp (f : MemForm) : Statement (.dcp f) := of_operandBytes f.bytes_length
theorem isc (f : MemForm) : Statement (.isc f) := of_operandBytes f.bytes_length
theorem nopu (opc : Byte) (o : NopOperand) : Statement (.nopu opc o) := of_operandBytes o.bytes_length
theorem sbcu (b1 : Byte) : Statement (.sbcu b1) := of_operandBytes rfl
theorem unassigned (opc : Byte) : Statement (.unassigned opc) := of_operandBytes rfl

end Laws.EncodedLength
end Sys2Proof
end

