-- ==== Sys2Proof/Tests/Slice0.lean ====
section
/-! SUPPORT. The model's own tests. Expected results are the spec's: spec/opcode_table.json (the golden
table of R99), the operand tables of files 40_ to 46_ (the bytes of the decode tests), and the vectors of
95_test_vectors.md (the step tests; the section is named at each group). Last, for every statement that has
hypotheses, a witness that meets them. -/

namespace Sys2Proof.Tests

open Sys2Proof Sys2Proof.Machine Sys2Proof.Claims

/-! ## Well-formedness: one ill-formed term for each check -/

theorem test_wf_refuses_sources :
    ([.lda (.mem (.zpy 0)), .ldx (.mem (.abx 0)), .ldy (.mem (.aby 0)), .adc (.mem (.zpy 0)),
      .sbc (.mem (.zpy 0)), .and (.mem (.zpy 0)), .ora (.mem (.zpy 0)), .eor (.mem (.zpy 0)),
      .cmp (.mem (.zpy 0)), .cpx (.mem (.zpx 0)), .cpy (.mem (.izy 0))] : List Instr).all
      (fun i => !i.wf && encode i == none) = true := by decide

theorem test_wf_refuses_stores :
    ([.sta (.zpy 0), .stx (.zpx 0), .sty (.zpy 0), .sax (.izy 0)] : List Instr).all
      (fun i => !i.wf && encode i == none) = true := by decide

theorem test_wf_refuses_memory_operands :
    ([.bit (.zpx 0), .inc (.aby 0), .dec (.izx 0), .asl (.mem (.aby 0)), .lsr (.mem (.izy 0)),
      .rol (.mem (.zpy 0)), .ror (.mem (.izx 0))] : List Instr).all
      (fun i => !i.wf && encode i == none) = true := by decide

theorem test_wf_refuses_undocumented :
    ([.lax (.zpx 0), .lax (.abx 0), .slo (.zpy 0), .rla (.zpy 0), .sre (.zpy 0), .rra (.zpy 0),
      .dcp (.zpy 0), .isc (.zpy 0)] : List Instr).all
      (fun i => !i.wf && encode i == none) = true := by decide

theorem test_wf_refuses_opcode_bytes :
    ([.nopu 0xEA .imp, .nopu 0x1A (.src (.imm 0)), .nopu 0x04 (.src (.mem (.abs 0))),
      .nopu 0x1C (.src (.mem (.aby 0))), .unassigned 0xEA, .unassigned 0xEB] : List Instr).all
      (fun i => !i.wf && encode i == none) = true := by decide

/-! ## The Opcode Table (R99, R100, spec/opcode_table.json) -/

/-- Sixteen entries of the Opcode Table. -/
def tableRow (first : Byte) : List (Option Entry) :=
  (List.range 16).map fun k => opcodeTable (first + BitVec.ofNat 8 k)

theorem test_table_row0 : tableRow 0x00 =
   [some ⟨.BRK, .imp, 7, .none, true⟩, some ⟨.ORA, .izx, 6, .none, true⟩, none,
    some ⟨.SLO, .izx, 8, .none, false⟩, some ⟨.NOP, .zp, 3, .none, false⟩,
    some ⟨.ORA, .zp, 3, .none, true⟩, some ⟨.ASL, .zp, 5, .none, true⟩, some ⟨.SLO, .zp, 5, .none, false⟩,
    some ⟨.PHP, .imp, 3, .none, true⟩, some ⟨.ORA, .imm, 2, .none, true⟩,
    some ⟨.ASL, .acc, 2, .none, true⟩, none, some ⟨.NOP, .abs, 4, .none, false⟩,
    some ⟨.ORA, .abs, 4, .none, true⟩, some ⟨.ASL, .abs, 6, .none, true⟩,
    some ⟨.SLO, .abs, 6, .none, false⟩] := by decide +kernel

theorem test_table_row1 : tableRow 0x10 =
   [some ⟨.BPL, .rel, 2, .branch, true⟩, some ⟨.ORA, .izy, 5, .pageCross, true⟩, none,
    some ⟨.SLO, .izy, 8, .none, false⟩, some ⟨.NOP, .zpx, 4, .none, false⟩,
    some ⟨.ORA, .zpx, 4, .none, true⟩, some ⟨.ASL, .zpx, 6, .none, true⟩,
    some ⟨.SLO, .zpx, 6, .none, false⟩, some ⟨.CLC, .imp, 2, .none, true⟩,
    some ⟨.ORA, .aby, 4, .pageCross, true⟩, some ⟨.NOP, .imp, 2, .none, false⟩,
    some ⟨.SLO, .aby, 7, .none, false⟩, some ⟨.NOP, .abx, 4, .pageCross, false⟩,
    some ⟨.ORA, .abx, 4, .pageCross, true⟩, some ⟨.ASL, .abx, 7, .none, true⟩,
    some ⟨.SLO, .abx, 7, .none, false⟩] := by decide +kernel

theorem test_table_row2 : tableRow 0x20 =
   [some ⟨.JSR, .abs, 6, .none, true⟩, some ⟨.AND, .izx, 6, .none, true⟩, none,
    some ⟨.RLA, .izx, 8, .none, false⟩, some ⟨.BIT, .zp, 3, .none, true⟩,
    some ⟨.AND, .zp, 3, .none, true⟩, some ⟨.ROL, .zp, 5, .none, true⟩, some ⟨.RLA, .zp, 5, .none, false⟩,
    some ⟨.PLP, .imp, 4, .none, true⟩, some ⟨.AND, .imm, 2, .none, true⟩,
    some ⟨.ROL, .acc, 2, .none, true⟩, none, some ⟨.BIT, .abs, 4, .none, true⟩,
    some ⟨.AND, .abs, 4, .none, true⟩, some ⟨.ROL, .abs, 6, .none, true⟩,
    some ⟨.RLA, .abs, 6, .none, false⟩] := by decide +kernel

theorem test_table_row3 : tableRow 0x30 =
   [some ⟨.BMI, .rel, 2, .branch, true⟩, some ⟨.AND, .izy, 5, .pageCross, true⟩, none,
    some ⟨.RLA, .izy, 8, .none, false⟩, some ⟨.NOP, .zpx, 4, .none, false⟩,
    some ⟨.AND, .zpx, 4, .none, true⟩, some ⟨.ROL, .zpx, 6, .none, true⟩,
    some ⟨.RLA, .zpx, 6, .none, false⟩, some ⟨.SEC, .imp, 2, .none, true⟩,
    some ⟨.AND, .aby, 4, .pageCross, true⟩, some ⟨.NOP, .imp, 2, .none, false⟩,
    some ⟨.RLA, .aby, 7, .none, false⟩, some ⟨.NOP, .abx, 4, .pageCross, false⟩,
    some ⟨.AND, .abx, 4, .pageCross, true⟩, some ⟨.ROL, .abx, 7, .none, true⟩,
    some ⟨.RLA, .abx, 7, .none, false⟩] := by decide +kernel

theorem test_table_row4 : tableRow 0x40 =
   [some ⟨.RTI, .imp, 6, .none, true⟩, some ⟨.EOR, .izx, 6, .none, true⟩, none,
    some ⟨.SRE, .izx, 8, .none, false⟩, some ⟨.NOP, .zp, 3, .none, false⟩,
    some ⟨.EOR, .zp, 3, .none, true⟩, some ⟨.LSR, .zp, 5, .none, true⟩, some ⟨.SRE, .zp, 5, .none, false⟩,
    some ⟨.PHA, .imp, 3, .none, true⟩, some ⟨.EOR, .imm, 2, .none, true⟩,
    some ⟨.LSR, .acc, 2, .none, true⟩, none, some ⟨.JMP, .abs, 3, .none, true⟩,
    some ⟨.EOR, .abs, 4, .none, true⟩, some ⟨.LSR, .abs, 6, .none, true⟩,
    some ⟨.SRE, .abs, 6, .none, false⟩] := by decide +kernel

theorem test_table_row5 : tableRow 0x50 =
   [some ⟨.BVC, .rel, 2, .branch, true⟩, some ⟨.EOR, .izy, 5, .pageCross, true⟩, none,
    some ⟨.SRE, .izy, 8, .none, false⟩, some ⟨.NOP, .zpx, 4, .none, false⟩,
    some ⟨.EOR, .zpx, 4, .none, true⟩, some ⟨.LSR, .zpx, 6, .none, true⟩,
    some ⟨.SRE, .zpx, 6, .none, false⟩, some ⟨.CLI, .imp, 2, .none, true⟩,
    some ⟨.EOR, .aby, 4, .pageCross, true⟩, some ⟨.NOP, .imp, 2, .none, false⟩,
    some ⟨.SRE, .aby, 7, .none, false⟩, some ⟨.NOP, .abx, 4, .pageCross, false⟩,
    some ⟨.EOR, .abx, 4, .pageCross, true⟩, some ⟨.LSR, .abx, 7, .none, true⟩,
    some ⟨.SRE, .abx, 7, .none, false⟩] := by decide +kernel

theorem test_table_row6 : tableRow 0x60 =
   [some ⟨.RTS, .imp, 6, .none, true⟩, some ⟨.ADC, .izx, 6, .none, true⟩, none,
    some ⟨.RRA, .izx, 8, .none, false⟩, some ⟨.NOP, .zp, 3, .none, false⟩,
    some ⟨.ADC, .zp, 3, .none, true⟩, some ⟨.ROR, .zp, 5, .none, true⟩, some ⟨.RRA, .zp, 5, .none, false⟩,
    some ⟨.PLA, .imp, 4, .none, true⟩, some ⟨.ADC, .imm, 2, .none, true⟩,
    some ⟨.ROR, .acc, 2, .none, true⟩, none, some ⟨.JMP, .ind, 5, .none, true⟩,
    some ⟨.ADC, .abs, 4, .none, true⟩, some ⟨.ROR, .abs, 6, .none, true⟩,
    some ⟨.RRA, .abs, 6, .none, false⟩] := by decide +kernel

theorem test_table_row7 : tableRow 0x70 =
   [some ⟨.BVS, .rel, 2, .branch, true⟩, some ⟨.ADC, .izy, 5, .pageCross, true⟩, none,
    some ⟨.RRA, .izy, 8, .none, false⟩, some ⟨.NOP, .zpx, 4, .none, false⟩,
    some ⟨.ADC, .zpx, 4, .none, true⟩, some ⟨.ROR, .zpx, 6, .none, true⟩,
    some ⟨.RRA, .zpx, 6, .none, false⟩, some ⟨.SEI, .imp, 2, .none, true⟩,
    some ⟨.ADC, .aby, 4, .pageCross, true⟩, some ⟨.NOP, .imp, 2, .none, false⟩,
    some ⟨.RRA, .aby, 7, .none, false⟩, some ⟨.NOP, .abx, 4, .pageCross, false⟩,
    some ⟨.ADC, .abx, 4, .pageCross, true⟩, some ⟨.ROR, .abx, 7, .none, true⟩,
    some ⟨.RRA, .abx, 7, .none, false⟩] := by decide +kernel

theorem test_table_row8 : tableRow 0x80 =
   [some ⟨.NOP, .imm, 2, .none, false⟩, some ⟨.STA, .izx, 6, .none, true⟩,
    some ⟨.NOP, .imm, 2, .none, false⟩, some ⟨.SAX, .izx, 6, .none, false⟩,
    some ⟨.STY, .zp, 3, .none, true⟩, some ⟨.STA, .zp, 3, .none, true⟩, some ⟨.STX, .zp, 3, .none, true⟩,
    some ⟨.SAX, .zp, 3, .none, false⟩, some ⟨.DEY, .imp, 2, .none, true⟩,
    some ⟨.NOP, .imm, 2, .none, false⟩, some ⟨.TXA, .imp, 2, .none, true⟩, none,
    some ⟨.STY, .abs, 4, .none, true⟩, some ⟨.STA, .abs, 4, .none, true⟩,
    some ⟨.STX, .abs, 4, .none, true⟩, some ⟨.SAX, .abs, 4, .none, false⟩] := by decide +kernel

theorem test_table_row9 : tableRow 0x90 =
   [some ⟨.BCC, .rel, 2, .branch, true⟩, some ⟨.STA, .izy, 6, .none, true⟩, none, none,
    some ⟨.STY, .zpx, 4, .none, true⟩, some ⟨.STA, .zpx, 4, .none, true⟩,
    some ⟨.STX, .zpy, 4, .none, true⟩, some ⟨.SAX, .zpy, 4, .none, false⟩,
    some ⟨.TYA, .imp, 2, .none, true⟩, some ⟨.STA, .aby, 5, .none, true⟩,
    some ⟨.TXS, .imp, 2, .none, true⟩, none, none, some ⟨.STA, .abx, 5, .none, true⟩, none,
    none] := by decide +kernel

theorem test_table_rowA : tableRow 0xA0 =
   [some ⟨.LDY, .imm, 2, .none, true⟩, some ⟨.LDA, .izx, 6, .none, true⟩,
    some ⟨.LDX, .imm, 2, .none, true⟩, some ⟨.LAX, .izx, 6, .none, false⟩,
    some ⟨.LDY, .zp, 3, .none, true⟩, some ⟨.LDA, .zp, 3, .none, true⟩, some ⟨.LDX, .zp, 3, .none, true⟩,
    some ⟨.LAX, .zp, 3, .none, false⟩, some ⟨.TAY, .imp, 2, .none, true⟩,
    some ⟨.LDA, .imm, 2, .none, true⟩, some ⟨.TAX, .imp, 2, .none, true⟩, none,
    some ⟨.LDY, .abs, 4, .none, true⟩, some ⟨.LDA, .abs, 4, .none, true⟩,
    some ⟨.LDX, .abs, 4, .none, true⟩, some ⟨.LAX, .abs, 4, .none, false⟩] := by decide +kernel

theorem test_table_rowB : tableRow 0xB0 =
   [some ⟨.BCS, .rel, 2, .branch, true⟩, some ⟨.LDA, .izy, 5, .pageCross, true⟩, none,
    some ⟨.LAX, .izy, 5, .pageCross, false⟩, some ⟨.LDY, .zpx, 4, .none, true⟩,
    some ⟨.LDA, .zpx, 4, .none, true⟩, some ⟨.LDX, .zpy, 4, .none, true⟩,
    some ⟨.LAX, .zpy, 4, .none, false⟩, some ⟨.CLV, .imp, 2, .none, true⟩,
    some ⟨.LDA, .aby, 4, .pageCross, true⟩, some ⟨.TSX, .imp, 2, .none, true⟩, none,
    some ⟨.LDY, .abx, 4, .pageCross, true⟩, some ⟨.LDA, .abx, 4, .pageCross, true⟩,
    some ⟨.LDX, .aby, 4, .pageCross, true⟩, some ⟨.LAX, .aby, 4, .pageCross, false⟩] := by decide +kernel

theorem test_table_rowC : tableRow 0xC0 =
   [some ⟨.CPY, .imm, 2, .none, true⟩, some ⟨.CMP, .izx, 6, .none, true⟩,
    some ⟨.NOP, .imm, 2, .none, false⟩, some ⟨.DCP, .izx, 8, .none, false⟩,
    some ⟨.CPY, .zp, 3, .none, true⟩, some ⟨.CMP, .zp, 3, .none, true⟩, some ⟨.DEC, .zp, 5, .none, true⟩,
    some ⟨.DCP, .zp, 5, .none, false⟩, some ⟨.INY, .imp, 2, .none, true⟩,
    some ⟨.CMP, .imm, 2, .none, true⟩, some ⟨.DEX, .imp, 2, .none, true⟩, none,
    some ⟨.CPY, .abs, 4, .none, true⟩, some ⟨.CMP, .abs, 4, .none, true⟩,
    some ⟨.DEC, .abs, 6, .none, true⟩, some ⟨.DCP, .abs, 6, .none, false⟩] := by decide +kernel

theorem test_table_rowD : tableRow 0xD0 =
   [some ⟨.BNE, .rel, 2, .branch, true⟩, some ⟨.CMP, .izy, 5, .pageCross, true⟩, none,
    some ⟨.DCP, .izy, 8, .none, false⟩, some ⟨.NOP, .zpx, 4, .none, false⟩,
    some ⟨.CMP, .zpx, 4, .none, true⟩, some ⟨.DEC, .zpx, 6, .none, true⟩,
    some ⟨.DCP, .zpx, 6, .none, false⟩, some ⟨.CLD, .imp, 2, .none, true⟩,
    some ⟨.CMP, .aby, 4, .pageCross, true⟩, some ⟨.NOP, .imp, 2, .none, false⟩,
    some ⟨.DCP, .aby, 7, .none, false⟩, some ⟨.NOP, .abx, 4, .pageCross, false⟩,
    some ⟨.CMP, .abx, 4, .pageCross, true⟩, some ⟨.DEC, .abx, 7, .none, true⟩,
    some ⟨.DCP, .abx, 7, .none, false⟩] := by decide +kernel

theorem test_table_rowE : tableRow 0xE0 =
   [some ⟨.CPX, .imm, 2, .none, true⟩, some ⟨.SBC, .izx, 6, .none, true⟩,
    some ⟨.NOP, .imm, 2, .none, false⟩, some ⟨.ISC, .izx, 8, .none, false⟩,
    some ⟨.CPX, .zp, 3, .none, true⟩, some ⟨.SBC, .zp, 3, .none, true⟩, some ⟨.INC, .zp, 5, .none, true⟩,
    some ⟨.ISC, .zp, 5, .none, false⟩, some ⟨.INX, .imp, 2, .none, true⟩,
    some ⟨.SBC, .imm, 2, .none, true⟩, some ⟨.NOP, .imp, 2, .none, true⟩,
    some ⟨.SBC, .imm, 2, .none, false⟩, some ⟨.CPX, .abs, 4, .none, true⟩,
    some ⟨.SBC, .abs, 4, .none, true⟩, some ⟨.INC, .abs, 6, .none, true⟩,
    some ⟨.ISC, .abs, 6, .none, false⟩] := by decide +kernel

theorem test_table_rowF : tableRow 0xF0 =
   [some ⟨.BEQ, .rel, 2, .branch, true⟩, some ⟨.SBC, .izy, 5, .pageCross, true⟩, none,
    some ⟨.ISC, .izy, 8, .none, false⟩, some ⟨.NOP, .zpx, 4, .none, false⟩,
    some ⟨.SBC, .zpx, 4, .none, true⟩, some ⟨.INC, .zpx, 6, .none, true⟩,
    some ⟨.ISC, .zpx, 6, .none, false⟩, some ⟨.SED, .imp, 2, .none, true⟩,
    some ⟨.SBC, .aby, 4, .pageCross, true⟩, some ⟨.NOP, .imp, 2, .none, false⟩,
    some ⟨.ISC, .aby, 7, .none, false⟩, some ⟨.NOP, .abx, 4, .pageCross, false⟩,
    some ⟨.SBC, .abx, 4, .pageCross, true⟩, some ⟨.INC, .abx, 7, .none, true⟩,
    some ⟨.ISC, .abx, 7, .none, false⟩] := by decide +kernel

/-! ## Decoding: one word for each constructor, the opcode written out bit by bit -/

/-- Each list of bytes decodes to its instruction, with nothing left over. -/
def reads (words : List (List Byte × Instr)) : Bool :=
  words.all fun w =>
    match decode w.1 with
    | .ok (i, rest) => i == w.2 && rest == []
    | .error _ => false

theorem test_decode_loads : reads [
    ([0b10101001, 0x80], .lda (.imm 0x80)),
    ([0b10110110, 0xFF], .ldx (.mem (.zpy 0xFF))),
    ([0b10111100, 0x34, 0x12], .ldy (.mem (.abx 0x1234)))] = true := by decide +kernel

theorem test_decode_stores : reads [
    ([0b10010001, 0x10], .sta (.izy 0x10)),
    ([0b10001110, 0x00, 0x02], .stx (.abs 0x0200)),
    ([0b10010100, 0xFF], .sty (.zpx 0xFF))] = true := by decide +kernel

theorem test_decode_transfers : reads [
    ([0b10101010], .tax),
    ([0b10101000], .tay),
    ([0b10001010], .txa),
    ([0b10011000], .tya),
    ([0b10111010], .tsx),
    ([0b10011010], .txs)] = true := by decide +kernel

theorem test_decode_stack : reads [
    ([0b01001000], .pha),
    ([0b00001000], .php),
    ([0b01101000], .pla),
    ([0b00101000], .plp)] = true := by decide +kernel

theorem test_decode_arithmetic : reads [
    ([0b01100001, 0x0F], .adc (.mem (.izx 0x0F))),
    ([0b11111001, 0xFF, 0x02], .sbc (.mem (.aby 0x02FF))),
    ([0b11101011, 0x01], .sbcu 0x01),
    ([0b11000101, 0x7F], .cmp (.mem (.zp 0x7F))),
    ([0b11100000, 0x80], .cpx (.imm 0x80)),
    ([0b11001100, 0x00, 0x03], .cpy (.mem (.abs 0x0300)))] = true := by decide +kernel

theorem test_decode_logic : reads [
    ([0b00110101, 0x10], .and (.mem (.zpx 0x10))),
    ([0b00010001, 0xF0], .ora (.mem (.izy 0xF0))),
    ([0b01011101, 0x01, 0xFF], .eor (.mem (.abx 0xFF01))),
    ([0b00101100, 0x02, 0x20], .bit (.abs 0x2002))] = true := by decide +kernel

theorem test_decode_increments : reads [
    ([0b11111110, 0xF0, 0x12], .inc (.abx 0x12F0)),
    ([0b11000110, 0x40], .dec (.zp 0x40)),
    ([0b11101000], .inx),
    ([0b11001000], .iny),
    ([0b11001010], .dex),
    ([0b10001000], .dey)] = true := by decide +kernel

theorem test_decode_shifts : reads [
    ([0b00001010], .asl .acc),
    ([0b01010110, 0x10], .lsr (.mem (.zpx 0x10))),
    ([0b00101110, 0x00, 0x03], .rol (.mem (.abs 0x0300))),
    ([0b01111110, 0xFF, 0x02], .ror (.mem (.abx 0x02FF)))] = true := by decide +kernel

theorem test_decode_jumps : reads [
    ([0b01001100, 0x0E, 0xC0], .jmp 0xC00E),
    ([0b01101100, 0xFF, 0x30], .jmpInd 0x30FF),
    ([0b00100000, 0x34, 0x12], .jsr 0x1234),
    ([0b01100000], .rts)] = true := by decide +kernel

theorem test_decode_branches : reads [
    ([0b00010000, 0x7F], .bpl 0x7F),
    ([0b00110000, 0x80], .bmi 0x80),
    ([0b01010000, 0x01], .bvc 0x01),
    ([0b01110000, 0xFF], .bvs 0xFF),
    ([0b10010000, 0x02], .bcc 0x02),
    ([0b10110000, 0xFE], .bcs 0xFE),
    ([0b11010000, 0xF9], .bne 0xF9),
    ([0b11110000, 0x00], .beq 0x00)] = true := by decide +kernel

theorem test_decode_flags_system : reads [
    ([0b00011000], .clc),
    ([0b00111000], .sec),
    ([0b01011000], .cli),
    ([0b01111000], .sei),
    ([0b10111000], .clv),
    ([0b11011000], .cld),
    ([0b11111000], .sed),
    ([0b11101010], .nop),
    ([0b00000000], .brk),
    ([0b01000000], .rti)] = true := by decide +kernel

theorem test_decode_undocumented : reads [
    ([0b10110111, 0x10], .lax (.zpy 0x10)),
    ([0b10001111, 0x00, 0x03], .sax (.abs 0x0300)),
    ([0b00000011, 0x10], .slo (.izx 0x10)),
    ([0b00110011, 0x10], .rla (.izy 0x10)),
    ([0b01011011, 0xFF, 0x02], .sre (.aby 0x02FF)),
    ([0b01111111, 0xFF, 0x02], .rra (.abx 0x02FF)),
    ([0b11010111, 0x20], .dcp (.zpx 0x20)),
    ([0b11100111, 0x20], .isc (.zp 0x20)),
    ([0b00011100, 0xFF, 0x10], .nopu 0x1C (.src (.mem (.abx 0x10FF)))),
    ([0b00011010], .nopu 0x1A .imp),
    ([0b10000000, 0xFF], .nopu 0x80 (.src (.imm 0xFF))),
    ([0b00000010], .unassigned 0x02)] = true := by decide +kernel

theorem test_decode_refuses_missing_bytes :
    ([[], [0xA9], [0xAD], [0xAD, 0x00], [0x4C, 0x00], [0xF0]] : List (List Byte)).all
      (fun b => match decode b with | .ok _ => false | .error _ => true) = true := by decide +kernel

theorem test_decodeTableWord :
    decodeTableWord 8 0xEA = some .nop ∧ decodeTableWord 16 0x80A9 = some (.lda (.imm 0x80)) ∧
    decodeTableWord 24 0x30FF6C = some (.jmpInd 0x30FF) ∧ decodeTableWord 8 0xAD = some (.lda (.mem (.abs 0))) ∧
    decodeTableWord 8 0x02 = some (.unassigned 0x02) := by decide +kernel

/-! ## Steps (95_test_vectors.md) -/

/-- Bytes placed from an address on. -/
def place (s : State) (at_ : Addr) : List Byte → State
  | [] => s
  | b :: bs => place (s.poke at_ b) (at_ + 1) bs

/-- The start state of the vectors: reset values, `PC`, the code, and some bytes of memory. -/
def start (pc : Addr) (code : List Byte) (cells : List (Addr × Byte)) : State :=
  cells.foldl (fun s c => s.poke c.1 c.2) (place { State.reset with pc := pc } pc code)

/-- The flags that a packed status byte of the vectors stands for. -/
def flags (p : Byte) : StatusFlags := resetP.unpack p

/-- The outcome is a next state. -/
def isNext (o : Out) : Bool :=
  match o with
  | .next _ => true
  | .fault _ | .refused _ => false

/-- The outcome is a next state, and it is as said. -/
def holds (o : Out) (q : State → Bool) : Bool :=
  match o with
  | .next t => q t
  | .fault _ | .refused _ => false

/-- The outcome is this fault. -/
def faults (o : Out) (f : Fault) : Bool :=
  match o with
  | .fault g => g == f
  | .next _ | .refused _ => false

/-- The four latches of the vectors: reset, BRK, NMI, and the NMI level. -/
def latches (s : State) : List Bool := [s.resetPending, s.brkPending, s.nmiPending, s.nmiPrev]

/-! ### Loads, stores, transfers (2.1, 2.2) -/

theorem test_lda_izy :
    holds (step { start 0x8000 [0xB1, 0x10] [(0x0010, 0xF0), (0x0011, 0x12), (0x1300, 0xBB)] with
        y := 0x10 })
      (fun t => t.a == 0xBB && t.p.pack t.p.b == 0xA4 && t.cycles == 6) = true := by decide

theorem test_lda_izx :
    holds (step { start 0x8000 [0xA1, 0xFF] [(0x0000, 0x12), (0x00FF, 0x34), (0x0100, 0x99), (0x1234, 0x42)] with
        x := 0x00 })
      (fun t => t.a == 0x42 && t.p.pack t.p.b == 0x24 && t.pc == 0x8002 && t.cycles == 6) = true := by decide

theorem test_ldx_zpy :
    holds (step { start 0x8000 [0xB6, 0xFF] [(0x0001, 0x77), (0x0101, 0x99)] with
        y := 0x02 })
      (fun t => t.a == 0x00 && t.x == 0x77 && t.y == 0x02 && t.sp == 0xFD && t.p.pack t.p.b == 0x24 &&
        t.pc == 0x8002 && t.cycles == 4) = true := by decide

theorem test_ldx_imm :
    holds (step { start 0x8000 [0xA2, 0x80] [] with
        p := flags 0x27 })
      (fun t => t.x == 0x80 && t.p.pack t.p.b == 0xA5 && t.cycles == 2) = true := by decide

theorem test_ldy_imm :
    holds (step { start 0x8000 [0xA0, 0x01] [] with
        p := flags 0xA6 })
      (fun t => t.y == 0x01 && t.p.pack t.p.b == 0x24 && t.cycles == 2) = true := by decide

theorem test_sta_izy :
    holds (step { start 0x8000 [0x91, 0x10] [(0x0010, 0xF0), (0x0011, 0x12)] with
        a := 0x5A, y := 0x10 })
      (fun t => t.a == 0x5A && t.p.pack t.p.b == 0x24 && t.peek 0x1300 == some 0x5A && t.cycles == 6) = true := by decide

theorem test_sta_izx :
    holds (step { start 0x8000 [0x81, 0x10] [(0x0014, 0x00), (0x0015, 0x03)] with
        a := 0xAB, x := 0x04 })
      (fun t => t.a == 0xAB && t.p.pack t.p.b == 0x24 && t.peek 0x0300 == some 0xAB && t.cycles == 6) = true := by decide

theorem test_stx_abs :
    holds (step { start 0x8000 [0x8E, 0x00, 0x02] [] with
        x := 0x00 })
      (fun t => t.x == 0x00 && t.p.pack t.p.b == 0x24 && t.peek 0x0200 == some 0x00 && t.cycles == 4) = true := by decide

theorem test_stx_zpy :
    holds (step { start 0x8000 [0x96, 0xF0] [] with
        x := 0x77, y := 0x20 })
      (fun t => t.x == 0x77 && t.p.pack t.p.b == 0x24 && t.peek 0x0010 == some 0x77 && t.cycles == 4) = true := by decide

theorem test_sty_zpx :
    holds (step { start 0x8000 [0x94, 0xFF] [] with
        x := 0x02, y := 0x33 })
      (fun t => t.a == 0x00 && t.x == 0x02 && t.y == 0x33 && t.sp == 0xFD && t.p.pack t.p.b == 0x24 &&
        t.pc == 0x8002 && t.peek 0x0001 == some 0x33 && t.cycles == 4) = true := by decide

theorem test_tax_imp :
    holds (step { start 0x8000 [0xAA] [] with
        a := 0x80 })
      (fun t => t.a == 0x80 && t.x == 0x80 && t.p.pack t.p.b == 0xA4 && t.cycles == 2) = true := by decide

theorem test_tay_imp :
    holds (step { start 0x8000 [0xA8] [] with
        a := 0x00, y := 0x05 })
      (fun t => t.a == 0x00 && t.y == 0x00 && t.p.pack t.p.b == 0x26 && t.cycles == 2) = true := by decide

theorem test_txa_imp :
    holds (step { start 0x8000 [0x8A] [] with
        a := 0xFF, x := 0x7F, p := flags 0xA4 })
      (fun t => t.a == 0x7F && t.x == 0x7F && t.p.pack t.p.b == 0x24 && t.cycles == 2) = true := by decide

theorem test_tya_imp :
    holds (step { start 0x8000 [0x98] [] with
        a := 0x01, y := 0x00 })
      (fun t => t.a == 0x00 && t.y == 0x00 && t.p.pack t.p.b == 0x26 && t.cycles == 2) = true := by decide

theorem test_tsx_imp :
    holds (step { start 0x8000 [0xBA] [] with
        x := 0x11, sp := 0x00 })
      (fun t => t.x == 0x00 && t.sp == 0x00 && t.p.pack t.p.b == 0x26 && t.cycles == 2) = true := by decide

theorem test_txs_imp :
    holds (step { start 0x8000 [0x9A] [] with
        x := 0x00 })
      (fun t => t.x == 0x00 && t.sp == 0x00 && t.p.pack t.p.b == 0x24 && t.cycles == 2) = true := by decide

theorem test_txs_imp_2 :
    holds (step { start 0x8000 [0x9A] [] with
        x := 0x80 })
      (fun t => t.x == 0x80 && t.sp == 0x80 && t.p.pack t.p.b == 0x24 && t.cycles == 2) = true := by decide

/-! ### Arithmetic and logic (2.3, 2.4) -/

theorem test_adc_imm :
    holds (step { start 0x8000 [0x69, 0x80] [] with
        a := 0x80, p := flags 0x24 })
      (fun t => t.a == 0x00 && t.p.pack t.p.b == 0x67 && t.cycles == 2) = true := by decide

theorem test_adc_imm_2 :
    holds (step { start 0x8000 [0x69, 0x00] [] with
        a := 0x7F, p := flags 0x25 })
      (fun t => t.a == 0x80 && t.p.pack t.p.b == 0xE4 && t.cycles == 2) = true := by decide

theorem test_sbc_imm :
    holds (step { start 0x8000 [0xE9, 0xFF] [] with
        a := 0x7F, p := flags 0x25 })
      (fun t => t.a == 0x80 && t.p.pack t.p.b == 0xE4 && t.cycles == 2) = true := by decide

theorem test_sbc_imm_2 :
    holds (step { start 0x8000 [0xE9, 0x00] [] with
        a := 0x80, p := flags 0x24 })
      (fun t => t.a == 0x7F && t.p.pack t.p.b == 0x65 && t.cycles == 2) = true := by decide

theorem test_sbc_imm_undocumented :
    holds (step { start 0x8000 [0xEB, 0x01] [] with
        a := 0x00, p := flags 0x25 })
      (fun t => t.a == 0xFF && t.p.pack t.p.b == 0xA4 && t.cycles == 2) = true := by decide

theorem test_and_imm :
    holds (step { start 0x8000 [0x29, 0xF0] [] with
        a := 0x8F })
      (fun t => t.a == 0x80 && t.p.pack t.p.b == 0xA4 && t.cycles == 2) = true := by decide

theorem test_and_zp :
    holds (step { start 0x8000 [0x25, 0x10] [(0x0010, 0x0F)] with
        a := 0xFF })
      (fun t => t.a == 0x0F && t.p.pack t.p.b == 0x24 && t.cycles == 3) = true := by decide

theorem test_ora_imm :
    holds (step { start 0x8000 [0x09, 0x00] [] with
        a := 0x00 })
      (fun t => t.a == 0x00 && t.p.pack t.p.b == 0x26 && t.cycles == 2) = true := by decide

theorem test_eor_imm :
    holds (step { start 0x8000 [0x49, 0x80] [] with
        a := 0x00 })
      (fun t => t.a == 0x80 && t.p.pack t.p.b == 0xA4 && t.cycles == 2) = true := by decide

theorem test_cmp_imm :
    holds (step { start 0x8000 [0xC9, 0x01] [] with
        a := 0x80 })
      (fun t => t.a == 0x80 && t.p.pack t.p.b == 0x25 && t.cycles == 2) = true := by decide

theorem test_cmp_imm_2 :
    holds (step { start 0x8000 [0xC9, 0x80] [] with
        a := 0x00 })
      (fun t => t.a == 0x00 && t.p.pack t.p.b == 0xA4 && t.cycles == 2) = true := by decide

theorem test_cpx_zp :
    holds (step { start 0x8000 [0xE4, 0x10] [(0x0010, 0x00)] with
        x := 0xFF })
      (fun t => t.x == 0xFF && t.p.pack t.p.b == 0xA5 && t.cycles == 3) = true := by decide

theorem test_cpy_abs :
    holds (step { start 0x8000 [0xCC, 0x00, 0x03] [(0x0300, 0x11)] with
        y := 0x10 })
      (fun t => t.y == 0x10 && t.p.pack t.p.b == 0xA4 && t.cycles == 4) = true := by decide

theorem test_bit_zp :
    holds (step { start 0x8000 [0x24, 0x10] [(0x0010, 0x3F)] with
        a := 0xFF, p := flags 0xE4 })
      (fun t => t.a == 0xFF && t.p.pack t.p.b == 0x24 && t.cycles == 3) = true := by decide

theorem test_bit_abs :
    holds (step { start 0x8000 [0x2C, 0x00, 0x03] [(0x0300, 0xFF)] with
        a := 0x00 })
      (fun t => t.a == 0x00 && t.p.pack t.p.b == 0xE6 && t.cycles == 4) = true := by decide

theorem test_inc_abx :
    holds (step { start 0x8000 [0xFE, 0xF0, 0x12] [(0x1300, 0x01)] with
        x := 0x10 })
      (fun t => t.p.pack t.p.b == 0x24 && t.peek 0x1300 == some 0x02 && t.cycles == 7) = true := by decide

theorem test_inc_zpx :
    holds (step { start 0x8000 [0xF6, 0xFF] [(0x0000, 0xFF)] with
        x := 0x01 })
      (fun t => t.p.pack t.p.b == 0x26 && t.peek 0x0000 == some 0x00 && t.cycles == 6) = true := by decide

theorem test_dec_abs :
    holds (step (start 0x8000 [0xCE, 0x00, 0x03] [(0x0300, 0x01)]))
      (fun t => t.p.pack t.p.b == 0x26 && t.peek 0x0300 == some 0x00 && t.cycles == 6) = true := by decide

theorem test_dec_abx :
    holds (step { start 0x8000 [0xDE, 0xFF, 0x02] [(0x0300, 0x80)] with
        x := 0x01 })
      (fun t => t.p.pack t.p.b == 0x24 && t.peek 0x0300 == some 0x7F && t.cycles == 7) = true := by decide

theorem test_inx_imp :
    holds (step { start 0x8000 [0xE8] [] with
        x := 0x7F, p := flags 0x25 })
      (fun t => t.x == 0x80 && t.p.pack t.p.b == 0xA5 && t.cycles == 2) = true := by decide

theorem test_iny_imp :
    holds (step { start 0x8000 [0xC8] [] with
        y := 0xFF })
      (fun t => t.y == 0x00 && t.p.pack t.p.b == 0x26 && t.cycles == 2) = true := by decide

theorem test_dex_imp :
    holds (step { start 0x8000 [0xCA] [] with
        x := 0x01 })
      (fun t => t.x == 0x00 && t.p.pack t.p.b == 0x26 && t.cycles == 2) = true := by decide

theorem test_dey_imp :
    holds (step { start 0x8000 [0x88] [] with
        y := 0x00 })
      (fun t => t.y == 0xFF && t.p.pack t.p.b == 0xA4 && t.cycles == 2) = true := by decide

/-! ### Shifts (2.5) -/

theorem test_asl_acc :
    holds (step { start 0x8000 [0x0A] [] with
        a := 0x40, p := flags 0x25 })
      (fun t => t.a == 0x80 && t.p.pack t.p.b == 0xA4 && t.cycles == 2) = true := by decide

theorem test_asl_zp :
    holds (step { start 0x8000 [0x06, 0x10] [(0x0010, 0xC0)] with
        a := 0x11 })
      (fun t => t.a == 0x11 && t.p.pack t.p.b == 0xA5 && t.peek 0x0010 == some 0x80 && t.cycles == 5) = true := by decide

theorem test_lsr_acc :
    holds (step { start 0x8000 [0x4A] [] with
        a := 0x80, p := flags 0xA5 })
      (fun t => t.a == 0x40 && t.p.pack t.p.b == 0x24 && t.cycles == 2) = true := by decide

theorem test_lsr_zpx :
    holds (step { start 0x8000 [0x56, 0x10] [(0x0011, 0x02)] with
        x := 0x01 })
      (fun t => t.p.pack t.p.b == 0x24 && t.peek 0x0011 == some 0x01 && t.cycles == 6) = true := by decide

theorem test_rol_acc :
    holds (step { start 0x8000 [0x2A] [] with
        a := 0x80, p := flags 0x25 })
      (fun t => t.a == 0x01 && t.p.pack t.p.b == 0x25 && t.cycles == 2) = true := by decide

theorem test_rol_abs :
    holds (step { start 0x8000 [0x2E, 0x00, 0x03] [(0x0300, 0x7F)] with
        p := flags 0x25 })
      (fun t => t.p.pack t.p.b == 0xA4 && t.peek 0x0300 == some 0xFF && t.cycles == 6) = true := by decide

theorem test_ror_acc :
    holds (step { start 0x8000 [0x6A] [] with
        a := 0x00, p := flags 0x25 })
      (fun t => t.a == 0x80 && t.p.pack t.p.b == 0xA4 && t.cycles == 2) = true := by decide

theorem test_ror_abx :
    holds (step { start 0x8000 [0x7E, 0xFF, 0x02] [(0x0300, 0x02)] with
        x := 0x01, p := flags 0x25 })
      (fun t => t.p.pack t.p.b == 0xA4 && t.peek 0x0300 == some 0x81 && t.cycles == 7) = true := by decide

/-! ### Stack (2.6) -/

theorem test_pha_imp :
    holds (step { start 0x8000 [0x48] [] with
        a := 0x00, sp := 0x00 })
      (fun t => t.a == 0x00 && t.sp == 0xFF && t.p.pack t.p.b == 0x24 && t.peek 0x0100 == some 0x00 &&
        t.cycles == 3) = true := by decide

theorem test_php_imp :
    holds (step { start 0x8000 [0x08] [] with
        p := flags 0xE7 })
      (fun t => t.sp == 0xFC && t.p.pack t.p.b == 0xE7 && t.peek 0x01FD == some 0xF7 &&
        t.cycles == 3) = true := by decide

theorem test_php_imp_2 :
    holds (step { start 0x8000 [0x08] [] with
        sp := 0x80, p := flags 0x20 })
      (fun t => t.sp == 0x7F && t.p.pack t.p.b == 0x20 && t.peek 0x0180 == some 0x30 &&
        t.cycles == 3) = true := by decide

theorem test_pla_imp :
    holds (step { start 0x8000 [0x68] [(0x0100, 0x80)] with
        sp := 0xFF })
      (fun t => t.a == 0x80 && t.sp == 0x00 && t.p.pack t.p.b == 0xA4 && t.cycles == 4) = true := by decide

theorem test_plp_imp :
    holds (step { start 0x8000 [0x28] [(0x01FD, 0xFF)] with
        sp := 0xFC })
      (fun t => t.sp == 0xFD && t.p.pack t.p.b == 0xEF && t.cycles == 4) = true := by decide

theorem test_plp_imp_2 :
    holds (step { start 0x8000 [0x28] [(0x01FD, 0x30)] with
        sp := 0xFC, p := flags 0xEF })
      (fun t => t.sp == 0xFD && t.p.pack t.p.b == 0x20 && t.cycles == 4) = true := by decide

/-! ### Control flow (1.6, 2.7) -/

theorem test_jmp_abs :
    holds (step (start 0x8000 [0x4C, 0x00, 0x80] []))
      (fun t => t.pc == 0x8000 && t.cycles == 3) = true := by decide

theorem test_jmp_ind :
    holds (step (start 0x8000 [0x6C, 0x10, 0x00] [(0x0010, 0xCD), (0x0011, 0xAB)]))
      (fun t => t.pc == 0xABCD && t.cycles == 5) = true := by decide

theorem test_jmp_ind_2 :
    holds (step (start 0x8000 [0x6C, 0xFF, 0x00] [(0x0000, 0xAB), (0x00FF, 0xCD), (0x0100, 0x99)]))
      (fun t => t.pc == 0xABCD && t.cycles == 5) = true := by decide

theorem test_jsr_abs :
    holds (step { start 0x8000 [0x20, 0x00, 0x90] [] with
        sp := 0x00 })
      (fun t => t.sp == 0xFE && t.pc == 0x9000 && t.peek 0x0100 == some 0x80 &&
        t.peek 0x01FF == some 0x02 && t.cycles == 6) = true := by decide

theorem test_jsr_abs_2 :
    holds (step (start 0xFFFD [0x20, 0x00, 0x90] []))
      (fun t => t.sp == 0xFB && t.pc == 0x9000 && t.peek 0x01FD == some 0xFF &&
        t.peek 0x01FC == some 0xFF && t.cycles == 6) = true := by decide

theorem test_rts_imp :
    holds (step { start 0x8000 [0x60] [(0x01FC, 0xFF), (0x01FD, 0xFF)] with
        sp := 0xFB })
      (fun t => t.sp == 0xFD && t.pc == 0x0000 && t.cycles == 6) = true := by decide

theorem test_rts_imp_2 :
    holds (step { start 0x8000 [0x60] [(0x0100, 0x33), (0x0101, 0x44)] with
        sp := 0xFF })
      (fun t => t.sp == 0x01 && t.pc == 0x4434 && t.cycles == 6) = true := by decide

theorem test_bpl_rel :
    holds (step { start 0x8000 [0x10, 0x10] [] with
        p := flags 0x24 })
      (fun t => t.p.pack t.p.b == 0x24 && t.pc == 0x8012 && t.cycles == 3) = true := by decide

theorem test_bpl_rel_2 :
    holds (step { start 0x8000 [0x10, 0x10] [] with
        p := flags 0xA4 })
      (fun t => t.p.pack t.p.b == 0xA4 && t.pc == 0x8002 && t.cycles == 2) = true := by decide

theorem test_bmi_rel :
    holds (step { start 0x8000 [0x30, 0x10] [] with
        p := flags 0xA4 })
      (fun t => t.p.pack t.p.b == 0xA4 && t.pc == 0x8012 && t.cycles == 3) = true := by decide

theorem test_bmi_rel_2 :
    holds (step { start 0x8000 [0x30, 0x10] [] with
        p := flags 0x24 })
      (fun t => t.p.pack t.p.b == 0x24 && t.pc == 0x8002 && t.cycles == 2) = true := by decide

theorem test_bvc_rel :
    holds (step { start 0x8000 [0x50, 0x10] [] with
        p := flags 0x24 })
      (fun t => t.p.pack t.p.b == 0x24 && t.pc == 0x8012 && t.cycles == 3) = true := by decide

theorem test_bvc_rel_2 :
    holds (step { start 0x8000 [0x50, 0x10] [] with
        p := flags 0x64 })
      (fun t => t.p.pack t.p.b == 0x64 && t.pc == 0x8002 && t.cycles == 2) = true := by decide

theorem test_bvs_rel :
    holds (step { start 0x8000 [0x70, 0x10] [] with
        p := flags 0x64 })
      (fun t => t.p.pack t.p.b == 0x64 && t.pc == 0x8012 && t.cycles == 3) = true := by decide

theorem test_bvs_rel_2 :
    holds (step { start 0x8000 [0x70, 0x10] [] with
        p := flags 0x24 })
      (fun t => t.p.pack t.p.b == 0x24 && t.pc == 0x8002 && t.cycles == 2) = true := by decide

theorem test_bcc_rel :
    holds (step (start 0xFF80 [0x90, 0x7F] []))
      (fun t => t.pc == 0x0001 && t.cycles == 4) = true := by decide

theorem test_bcc_rel_2 :
    holds (step (start 0x0000 [0x90, 0x80] []))
      (fun t => t.pc == 0xFF82 && t.cycles == 4) = true := by decide

theorem test_bcs_rel :
    holds (step { start 0x8000 [0xB0, 0x10] [] with
        p := flags 0x25 })
      (fun t => t.p.pack t.p.b == 0x25 && t.pc == 0x8012 && t.cycles == 3) = true := by decide

theorem test_bcs_rel_2 :
    holds (step { start 0x8000 [0xB0, 0x10] [] with
        p := flags 0x24 })
      (fun t => t.p.pack t.p.b == 0x24 && t.pc == 0x8002 && t.cycles == 2) = true := by decide

theorem test_bne_rel :
    holds (step (start 0x80FA [0xD0, 0x05] []))
      (fun t => t.pc == 0x8101 && t.cycles == 4) = true := by decide

theorem test_bne_rel_2 :
    holds (step (start 0x8000 [0xD0, 0x80] []))
      (fun t => t.pc == 0x7F82 && t.cycles == 4) = true := by decide

theorem test_beq_rel :
    holds (step { start 0x8000 [0xF0, 0x10] [] with
        p := flags 0x26 })
      (fun t => t.p.pack t.p.b == 0x26 && t.pc == 0x8012 && t.cycles == 3) = true := by decide

theorem test_beq_rel_2 :
    holds (step { start 0x8000 [0xF0, 0xFE] [] with
        p := flags 0x26 })
      (fun t => t.pc == 0x8000 && t.cycles == 3) = true := by decide

/-! ### Flags, NOP, BRK, RTI (2.8) -/

theorem test_clc_imp :
    holds (step { start 0x8000 [0x18] [] with
        p := flags 0xEF })
      (fun t => t.p.pack t.p.b == 0xEE && t.pc == 0x8001 && t.cycles == 2) = true := by decide

theorem test_sec_imp :
    holds (step { start 0x8000 [0x38] [] with
        p := flags 0x24 })
      (fun t => t.p.pack t.p.b == 0x25 && t.pc == 0x8001 && t.cycles == 2) = true := by decide

theorem test_cli_imp :
    holds (step { start 0x8000 [0x58] [] with
        p := flags 0x24 })
      (fun t => t.p.pack t.p.b == 0x20 && t.pc == 0x8001 && t.cycles == 2) = true := by decide

theorem test_sei_imp :
    holds (step { start 0x8000 [0x78] [] with
        p := flags 0x20 })
      (fun t => t.p.pack t.p.b == 0x24 && t.pc == 0x8001 && t.cycles == 2) = true := by decide

theorem test_clv_imp :
    holds (step { start 0x8000 [0xB8] [] with
        p := flags 0xE4 })
      (fun t => t.p.pack t.p.b == 0xA4 && t.pc == 0x8001 && t.cycles == 2) = true := by decide

theorem test_cld_imp :
    holds (step { start 0x8000 [0xD8] [] with
        p := flags 0x2C })
      (fun t => t.p.pack t.p.b == 0x24 && t.pc == 0x8001 && t.cycles == 2) = true := by decide

theorem test_sed_imp :
    holds (step { start 0x8000 [0xF8] [] with
        p := flags 0x24 })
      (fun t => t.p.pack t.p.b == 0x2C && t.pc == 0x8001 && t.cycles == 2) = true := by decide

theorem test_nop_imp :
    holds (step { start 0x8000 [0xEA] [] with
        p := flags 0xE7 })
      (fun t => t.p.pack t.p.b == 0xE7 && t.pc == 0x8001 && t.cycles == 2) = true := by decide

theorem test_nop_imp_undocumented :
    holds (step { start 0x8000 [0x1A] [] with
        a := 0x12, p := flags 0xE7 })
      (fun t => t.a == 0x12 && t.p.pack t.p.b == 0xE7 && t.pc == 0x8001 && t.cycles == 2) = true := by decide

theorem test_nop_abx_undocumented :
    holds (step { start 0x8000 [0xFC, 0xFF, 0x20] [] with
        x := 0x01 })
      (fun t => t.p.pack t.p.b == 0x24 && t.pc == 0x8003 && t.cycles == 5) = true := by decide

theorem test_brk_imp :
    holds (step (start 0x8000 [0x00, 0xFF] [(0xFFFE, 0x00), (0xFFFF, 0x90)]))
      (fun t => t.sp == 0xFD && t.p.pack t.p.b == 0x24 && t.pc == 0x8002 && t.cycles == 7) = true := by decide

theorem test_rti_imp :
    holds (step { start 0x9000 [0x40] [(0x01FB, 0xF3), (0x01FC, 0x02), (0x01FD, 0x80)] with
        sp := 0xFA })
      (fun t => t.sp == 0xFD && t.p.pack t.p.b == 0xE3 && t.pc == 0x8002 && t.cycles == 6) = true := by decide

theorem test_rti_imp_2 :
    holds (step { start 0x9000 [0x40] [(0x01FB, 0x00), (0x01FC, 0xFF), (0x01FD, 0xFF)] with
        sp := 0xFA, p := flags 0x24 })
      (fun t => t.sp == 0xFD && t.p.pack t.p.b == 0x20 && t.pc == 0xFFFF && t.cycles == 6) = true := by decide

/-! ### Undocumented (2.9) -/

theorem test_lax_aby :
    holds (step { start 0x8000 [0xBF, 0xFF, 0x02] [(0x0300, 0x7F)] with
        y := 0x01 })
      (fun t => t.a == 0x7F && t.x == 0x7F && t.p.pack t.p.b == 0x24 && t.cycles == 5) = true := by decide

theorem test_lax_izy :
    holds (step { start 0x8000 [0xB3, 0x10] [(0x0010, 0xFF), (0x0011, 0x02), (0x0300, 0x01)] with
        y := 0x01 })
      (fun t => t.a == 0x01 && t.x == 0x01 && t.p.pack t.p.b == 0x24 && t.cycles == 6) = true := by decide

theorem test_sax_zpy :
    holds (step { start 0x8000 [0x97, 0x10] [] with
        a := 0xAA, x := 0xF0, y := 0x01 })
      (fun t => t.a == 0xAA && t.x == 0xF0 && t.p.pack t.p.b == 0x24 && t.peek 0x0011 == some 0xA0 &&
        t.cycles == 4) = true := by decide

theorem test_sax_izx :
    holds (step { start 0x8000 [0x83, 0x10] [(0x0014, 0x00), (0x0015, 0x03)] with
        a := 0x0F, x := 0x04 })
      (fun t => t.a == 0x0F && t.x == 0x04 && t.p.pack t.p.b == 0x24 && t.peek 0x0300 == some 0x04 &&
        t.cycles == 6) = true := by decide

theorem test_slo_abs :
    holds (step { start 0x8000 [0x0F, 0x00, 0x03] [(0x0300, 0x80)] with
        a := 0x00 })
      (fun t => t.a == 0x00 && t.p.pack t.p.b == 0x27 && t.peek 0x0300 == some 0x00 && t.cycles == 6) = true := by decide

theorem test_slo_aby :
    holds (step { start 0x8000 [0x1B, 0xFF, 0x02] [(0x0300, 0x40)] with
        a := 0x01, y := 0x01 })
      (fun t => t.a == 0x81 && t.p.pack t.p.b == 0xA4 && t.peek 0x0300 == some 0x80 && t.cycles == 7) = true := by decide

theorem test_rla_abs :
    holds (step { start 0x8000 [0x2F, 0x00, 0x03] [(0x0300, 0x80)] with
        a := 0x0F, p := flags 0x24 })
      (fun t => t.a == 0x00 && t.p.pack t.p.b == 0x27 && t.peek 0x0300 == some 0x00 && t.cycles == 6) = true := by decide

theorem test_rla_izy :
    holds (step { start 0x8000 [0x33, 0x10] [(0x0010, 0x00), (0x0011, 0x03), (0x0300, 0x7F)] with
        a := 0xFF, y := 0x00, p := flags 0x25 })
      (fun t => t.a == 0xFF && t.p.pack t.p.b == 0xA4 && t.peek 0x0300 == some 0xFF && t.cycles == 8) = true := by decide

theorem test_sre_abs :
    holds (step { start 0x8000 [0x4F, 0x00, 0x03] [(0x0300, 0xFF)] with
        a := 0xFF })
      (fun t => t.a == 0x80 && t.p.pack t.p.b == 0xA5 && t.peek 0x0300 == some 0x7F && t.cycles == 6) = true := by decide

theorem test_rra_abs :
    holds (step { start 0x8000 [0x6F, 0x00, 0x03] [(0x0300, 0x00)] with
        a := 0x7F, p := flags 0x25 })
      (fun t => t.a == 0xFF && t.p.pack t.p.b == 0xA4 && t.peek 0x0300 == some 0x80 && t.cycles == 6) = true := by decide

theorem test_rra_abs_2 :
    holds (step { start 0x8000 [0x6F, 0x00, 0x03] [(0x0300, 0xFF)] with
        a := 0x01, p := flags 0x24 })
      (fun t => t.a == 0x81 && t.p.pack t.p.b == 0xE4 && t.peek 0x0300 == some 0x7F && t.cycles == 6) = true := by decide

theorem test_dcp_abs :
    holds (step { start 0x8000 [0xCF, 0x00, 0x03] [(0x0300, 0x00)] with
        a := 0x00 })
      (fun t => t.a == 0x00 && t.p.pack t.p.b == 0x24 && t.peek 0x0300 == some 0xFF && t.cycles == 6) = true := by decide

theorem test_dcp_aby :
    holds (step { start 0x8000 [0xDB, 0xFF, 0x02] [(0x0300, 0x80)] with
        a := 0x7F, y := 0x01 })
      (fun t => t.a == 0x7F && t.p.pack t.p.b == 0x27 && t.peek 0x0300 == some 0x7F && t.cycles == 7) = true := by decide

theorem test_isc_abs :
    holds (step { start 0x8000 [0xEF, 0x00, 0x03] [(0x0300, 0xFF)] with
        a := 0x00, p := flags 0x25 })
      (fun t => t.a == 0x00 && t.p.pack t.p.b == 0x27 && t.peek 0x0300 == some 0x00 && t.cycles == 6) = true := by decide

theorem test_isc_abx :
    holds (step { start 0x8000 [0xFF, 0xFF, 0x02] [(0x0300, 0x00)] with
        a := 0x80, x := 0x01, p := flags 0x25 })
      (fun t => t.a == 0x7F && t.p.pack t.p.b == 0x65 && t.peek 0x0300 == some 0x01 && t.cycles == 7) = true := by decide

/-! ### Reset, interrupts, faults (2.10) -/

theorem test_power_up :
    holds (step { start 0x0000 [] [(0xFFFC, 0x00), (0xFFFD, 0xC0)] with pc := 0x1234, resetPending := true })
      (fun t => t.pc == 0xC000 && t.sp == 0xFD && t.p.pack t.p.b == 0x24 && t.cycles == 0 &&
        latches t == [false, false, false, false]) = true := by decide

theorem test_reset_drops_nmi :
    holds (step (HostAction.requestReset.apply (State.signalNmi { start 0xC001 []
      [(0xFFFC, 0x00), (0xFFFD, 0xC0)] with a := 0x55, x := 0x66, y := 0x77, sp := 0x10, p := flags 0xEB }
      true)))
      (fun t => t.a == 0 && t.x == 0 && t.y == 0 && t.sp == 0xFD && t.p.pack t.p.b == 0x24 &&
        t.pc == 0xC000 && latches t == [false, false, false, true]) = true := by decide

theorem test_nmi_entry :
    holds (step ((start 0x8001 [0xEA] [(0xFFFA, 0x00), (0xFFFB, 0x90)]).signalNmi true))
      (fun t => t.pc == 0x9000 && t.sp == 0xFA && t.peek 0x01FD == some 0x80 &&
        t.peek 0x01FC == some 0x01 && t.peek 0x01FB == some 0x24 && t.cycles == 7 &&
        latches t == [false, false, false, true]) = true := by decide

theorem test_nmi_level_latches_once :
    latches (((start 0x8001 [] []).signalNmi false).signalNmi true) = [false, false, true, true] ∧
    latches (State.signalNmi { start 0x9000 [] [] with nmiPrev := true } true) =
      [false, false, false, true] := by decide

theorem test_irq_entry :
    holds (step { start 0x8001 [0xEA] [(0xFFFE, 0x00), (0xFFFF, 0xA0)] with p := flags 0x20, irqLine := true })
      (fun t => t.pc == 0xA000 && t.sp == 0xFA && t.p.pack t.p.b == 0x24 && t.peek 0x01FB == some 0x20 &&
        t.cycles == 7 && t.irqLine) = true := by decide

theorem test_irq_masked :
    holds (step { start 0x8000 [0x58] [] with irqLine := true })
      (fun t => t.pc == 0x8001 && t.p.pack t.p.b == 0x20 && t.cycles == 2) = true := by decide

theorem test_brk_entry_before_nmi :
    holds (step { start 0x8002 [] [(0xFFFE, 0x00), (0xFFFF, 0xA0)] with
      brkPending := true, nmiPending := true, nmiPrev := true })
      (fun t => t.pc == 0xA000 && t.sp == 0xFA && t.peek 0x01FD == some 0x80 &&
        t.peek 0x01FC == some 0x02 && t.peek 0x01FB == some 0x34 && t.cycles == 0 &&
        latches t == [false, false, true, true]) = true := by decide

theorem test_decode_error : faults (step (start 0x8000 [0x02] [])) (.decodeError 0x02) = true ∧
    faults (step (start 0x8000 [0xAB, 0x00] [])) (.decodeError 0xAB) = true := by decide

theorem test_rom_write : faults (step (start 0x8000 [0x8D, 0x00, 0x80] [])) (.busError .readOnly 0x8000) = true ∧
    faults (step (start 0x8000 [0xEE, 0x00, 0xC0] [(0xC000, 0x10)])) (.busError .readOnly 0xC000) = true := by
  decide

theorem test_mirrors :
    (State.poke State.reset 0x1FFF 0x12).peek 0x07FF = some 0x12 ∧
    (State.poke { State.reset with prgSize := .kib16 } 0xFFFC 0x34).peek 0xBFFC = some 0x34 ∧
    (State.poke State.reset 0xFFFC 0x34).peek 0xBFFC = some 0x00 ∧ State.reset.peek 0x2000 = none := by decide

theorem test_memory_write_is_canonical :
    Memory.write (Memory.write (Memory.write [] 5 1) 3 2) 9 4 = [(3, 2), (5, 1), (9, 4)] ∧
    Memory.write [(3, 2), (5, 1)] 3 0 = [(5, 1)] ∧ Memory.write [(3, 2)] 5 0 = [(3, 2)] := by decide

theorem test_withFetchWord :
    holds (step (State.reset.withFetchWord 16 0x80A9)) (fun t => t.a == 0x80 && t.pc == 0x0002) = true ∧
    holds (step ((State.construct 0x8000).withFetchWord 24 0x30FF4C)) (fun t => t.pc == 0x30FF) = true ∧
    holds (step (State.withFetchWord { State.reset with pc := 0x1FFE } 8 0xEA)) (fun t => t.pc == 0x0001) =
      true := by decide

/-! ## Witnesses: concrete states and operands that meet the hypotheses of a statement, all together -/

/-- A state with every listed byte of memory and registers at boundary values. -/
def busy : State :=
  { start 0xFFFE [0xBD, 0xFF] [(0x0000, 0xFF), (0x00FF, 0x00), (0x01FF, 0x12), (0x0100, 0x34)] with
    a := 0x80, x := 0xFF, y := 0xFF, sp := 0x00 }

theorem witness_DecodeAfterEncode :
    (Instr.lda (.mem (.izy 0xFF))).wf = true ∧ (Instr.jmpInd 0xFFFF).wf = true ∧
    (Instr.nopu 0xFC (.src (.mem (.abx 0)))).wf = true ∧ (Instr.unassigned 0xF2).wf = true := by decide

theorem witness_EncodeAfterDecode :
    decode [0x8D, 0xFF, 0xFF, 0xEA] = .ok (.sta (.abs 0xFFFF), [0xEA]) ∧
    decode [0xFF, 0x00, 0x00] = .ok (.isc (.abx 0x0000), []) := ⟨rfl, rfl⟩

/-- An instruction that wraps from 0xFFFF to 0x0000. -/
theorem witness_StepRunsTheDecodedInstruction :
    pendingEvent busy = none ∧ decode [0xBD, 0xFF, 0xFF] = .ok (.lda (.mem (.abx 0xFFFF)), []) ∧
    (∀ k, k < [0xBD, 0xFF, 0xFF].length →
      busy.peek (busy.pc + BitVec.ofNat 16 k) = ([0xBD, 0xFF, 0xFF] : List Byte)[k]?) :=
  ⟨by decide, rfl, by decide⟩

theorem witness_FetchMovesPastTheInstruction :
    pendingEvent busy = none ∧ fetch busy = .ok (.lda (.mem (.abx 0xFFFF)), { busy with pc := 0x0001 }) :=
  ⟨by decide, rfl⟩

theorem witness_UnknownOpcodeRaisesDecodeError :
    pendingEvent (start 0xFFFF [0xF2] []) = none ∧
    fetchByte (start 0xFFFF [0xF2] []) = .ok (0xF2, { start 0xFFFF [0xF2] [] with pc := 0x0000 }) ∧
    0xF2 ∈ unknownOpcodes ∧ step (start 0xFFFF [0xF2] []) = .fault (.decodeError 0xF2) :=
  ⟨by decide, rfl, by decide, rfl⟩

/-- One state for each of the five clauses, and for both sides of the last. -/
theorem witness_PendingEventsInOrder :
    (State.construct 0).resetPending = true ∧
    (let s := { busy with brkPending := true, nmiPending := true, irqLine := true };
      s.resetPending = false ∧ s.brkPending = true) ∧
    (let s := { busy with nmiPending := true, irqLine := true };
      s.resetPending = false ∧ s.brkPending = false ∧ s.nmiPending = true) ∧
    (let s := { busy with irqLine := true, p := flags 0x20 };
      s.resetPending = false ∧ s.brkPending = false ∧ s.nmiPending = false ∧ s.irqLine = true ∧
        s.p.i = false) ∧
    (let s := { busy with irqLine := true };
      s.resetPending = false ∧ s.brkPending = false ∧ s.nmiPending = false ∧ s.irqLine = true ∧
        s.p.i = true) ∧
    (busy.resetPending = false ∧ busy.brkPending = false ∧ busy.nmiPending = false ∧
      busy.irqLine = false) := by decide

theorem witness_ResetSequenceLeaves : (State.construct 0xFFFF).resetPending = true := rfl

theorem witness_InterruptEntrySavesAndVectors :
    pendingEvent { busy with brkPending := true, nmiPending := true } = some (.interrupt .brk) ∧
    pendingEvent { busy with nmiPending := true } = some (.interrupt .nmi) ∧
    pendingEvent { busy with irqLine := true, p := flags 0x20 } = some (.interrupt .irq) := by decide

theorem witness_BrkThenEntry :
    busy.resetPending = false ∧ busy.mem.wf = true ∧ isNext (step { busy with brkPending := true }) = true := by
  decide

/-- The stack wraps inside its page: `S` is 0x00. -/
theorem witness_RtiUndoesInterruptEntry :
    busy.mem.wf = true ∧ pendingEvent { busy with nmiPending := true } = some (.interrupt .nmi) ∧
    pendingEvent { busy with brkPending := true } = some (.interrupt .brk) ∧
    pendingEvent { busy with irqLine := true, p := flags 0xCB } = some (.interrupt .irq) ∧
    isNext (step { busy with nmiPending := true }) = true ∧
    isNext (step { busy with brkPending := true }) = true ∧
    isNext (step { busy with irqLine := true, p := flags 0xCB }) = true := by decide

theorem witness_CliUnmasksIrqAtOnce :
    (let s := { busy with irqLine := true };
      s.irqLine = true ∧ s.resetPending = false ∧ s.brkPending = false ∧ s.nmiPending = false) := by decide

/-- A step that a bus error ends. -/
theorem witness_AddressMapClasses :
    step (start 0x8000 [0x8D, 0x20, 0x40] []) = .fault (.busError .readOnly 0x4020) := rfl

/-- The last address of each mirror; and the edges of the regions whose bytes are distinct, for a cartridge
of either size: each of them on both sides meets the third clause, any two of one list the fourth. -/
theorem witness_MirrorsReadTheSameByte :
    (0x1FFF : Addr).toNat < 0x2000 ∧
    ({ busy with prgSize := .kib16 }).prgSize = .kib16 ∧ 0xC000 ≤ (0xFFFF : Addr).toNat ∧
    0xC000 ≤ (0xC000 : Addr).toNat ∧
    ([0x0000, 0x03FF, 0x0400, 0x07FF, 0x4020, 0x7FFF, 0x8000, 0xBFFF] : List Addr).all (fun a =>
      decide ((a.toNat < 0x800 ∨ 0x4020 ≤ a.toNat) ∧
        (PrgSize.kib16 = .kib16 → a.toNat < 0xC000) ∧ cellOf .kib16 a = cellOf .kib16 a)) = true ∧
    ([0xC000, 0xFFFF] : List Addr).all (fun a =>
      decide ((a.toNat < 0x800 ∨ 0x4020 ≤ a.toNat) ∧ (PrgSize.kib32 = .kib16 → a.toNat < 0xC000) ∧
        cellOf .kib32 a = cellOf .kib32 a)) = true ∧
    busy.mem.wf = true := by decide

/-- WRAM is 2 KiB: its addresses that differ in the top bit are two bytes, and the next address is the first
again (R56). -/
theorem test_wram_is_2KiB :
    (State.reset.poke 0x0400 0x12).peek 0x0000 = some 0x00 ∧
    (State.reset.poke 0x0400 0x12).peek 0x0C00 = some 0x12 ∧
    (State.reset.poke 0x0800 0x12).peek 0x0000 = some 0x12 := by decide

theorem witness_RamReturnsTheLastByteWritten :
    busy.mem.wf = true ∧ classOf 0x0000 = .ram ∧ classOf 0x1FFF = .ram ∧ classOf 0x6000 = .ram ∧
    classOf 0x7FFF = .ram ∧ classOf 0x4020 ≠ .device ∧ classOf 0xFFFF ≠ .device := by decide

theorem witness_PlainReadsAndRomWrites :
    busy.peek 0xFFFE = some 0xBD ∧ busy.peek 0x1FFF = some 0x00 ∧ classOf 0x7FFF ≠ .device ∧
    classOf 0x4020 = .rom ∧ classOf 0x5FFF = .rom ∧ classOf 0x8000 = .rom := by decide

theorem witness_StepKeepsRomAndInputs :
    isNext (step busy) = true ∧ isNext (step { busy with nmiPending := true }) = true ∧
    isNext (step (State.construct 0)) = true ∧ classOf 0x4020 = .rom ∧ classOf 0xFFFF = .rom := by decide

theorem witness_StackPushAndPop :
    busy.mem.wf = true ∧ push 0xA5 busy = .ok ((), { busy with
      mem := busy.mem.write 0x100 0xA5, sp := 0xFF }) ∧
    pop { busy with mem := busy.mem.write 0x100 0xA5, sp := 0xFF } =
      .ok (0xA5, { busy with mem := busy.mem.write 0x100 0xA5, sp := 0x00 }) := ⟨by decide, rfl, rfl⟩

theorem witness_CyclesFollowTheTable :
    (Instr.lda (.mem (.abx 0x12FF))).opcode = some 0xBD ∧
    isNext (exec (.lda (.mem (.abx 0x12FF))) busy) = true ∧
    (Instr.sta (.abx 0x12FF)).opcode = some 0x9D ∧ isNext (exec (.sta (.abx 0x12FF)) busy) = true ∧
    (Instr.bne 0x80).opcode = some 0xD0 ∧ isNext (exec (.bne 0x80) busy) = true ∧
    (Instr.beq 0x80).opcode = some 0xF0 ∧ isNext (exec (.beq 0x80) busy) = true ∧
    pendingEvent (State.construct 0) = some .reset ∧ isNext (step (State.construct 0)) = true ∧
    pendingEvent { busy with brkPending := true } = some (.interrupt .brk) ∧
    isNext (step { busy with brkPending := true }) = true := by decide

/-- `MemReadLaw` and `ReadLaw`, the hypotheses of LoadsSetRegisterAndFlags, AddAndSubtractInstructions,
LogicInstructions and CompareInstructions: a byte of RAM, a byte of ROM, and a device. -/
theorem witness_MemReadLaw :
    resolve (.abx 0xFF00) busy = .ok (⟨0xFFFF, false⟩, busy) ∧ busy.peek 0xFFFF = some 0xFF ∧
    resolve (.izx 0x00) busy = .ok (⟨0xFF00, false⟩, busy) ∧ busy.peek 0xFF00 = some 0x00 ∧
    resolve (.aby 0x1F01) busy = .ok (⟨0x2000, true⟩, busy) ∧ classOf 0x2000 = .device ∧
    resolve (.abs 0x401F) busy = .ok (⟨0x401F, false⟩, busy) ∧ classOf 0x401F = .device :=
  ⟨rfl, by decide, rfl, by decide, rfl, by decide, rfl, by decide⟩

/-- `StoreLaw` and `ModifyLaw`, the hypotheses of StoresWriteTheirRegister, MemoryIncrements, MemoryShifts and
CombinedReadModifyWrites: RAM, ROM and a device, at the edges of the regions. -/
theorem witness_StoreLaw_ModifyLaw :
    resolve (.zp 0xFF) busy = .ok (⟨0x00FF, false⟩, busy) ∧ classOf 0x00FF = .ram ∧
    resolve (.aby 0x7F00) busy = .ok (⟨0x7FFF, false⟩, busy) ∧ classOf 0x7FFF = .ram ∧
    resolve (.abs 0x8000) busy = .ok (⟨0x8000, false⟩, busy) ∧ classOf 0x8000 = .rom ∧
    resolve (.abx 0x1F01) busy = .ok (⟨0x2000, true⟩, busy) ∧ classOf 0x2000 = .device :=
  ⟨rfl, by decide, rfl, by decide, rfl, by decide, rfl, by decide⟩

/-- `BranchLaw`: each flag clear, then each flag set. -/
theorem witness_BranchesTestTheirFlag :
    (let p := flags 0x00; p.n = false ∧ p.v = false ∧ p.c = false ∧ p.z = false) ∧
    (let p := flags 0xC3; p.n = true ∧ p.v = true ∧ p.c = true ∧ p.z = true) := by decide

theorem witness_UndocumentedNopsDoNothing :
    resolve (.abx 0x20FF) busy = .ok (⟨0x21FE, true⟩, busy) ∧
    resolve (.zpx 0xFF) busy = .ok (⟨0x00FE, false⟩, busy) := ⟨rfl, rfl⟩

/-- The pointer lies at the end of a page. -/
theorem witness_JumpsLoadThePc :
    busy.peek 0x01FF = some 0x12 ∧ busy.peek (addrOf (loByte 0x01FF + 1) (hiByte 0x01FF)) = some 0x34 := by
  decide

theorem witness_RtsUndoesJsr : busy.mem.wf = true ∧ isNext (exec (.jsr 0x9000) busy) = true := by decide

theorem witness_AddWithCarryResult_SubWithBorrowResult_CompareResult :
    (∃ t, t = addWithCarry 0x80 busy) ∧ (∃ t, t = subWithBorrow 0x80 busy) ∧ ∃ t, t = compare 0x80 0x80 busy :=
  ⟨⟨_, rfl⟩, ⟨_, rfl⟩, ⟨_, rfl⟩⟩

theorem witness_DecimalFlagHasNoEffect :
    Instr.adc (.imm 0x09) ∉ [Instr.php, .plp, .rti, .cld, .sed] ∧
    isNext (exec (.adc (.imm 0x09)) busy) = true ∧
    exec (.sta (.abs 0x8000)) busy = .fault (.busError .readOnly 0x8000) ∧
    Instr.sed ∈ [Instr.plp, .rti, .cld, .sed] ∧ Instr.rti ∈ [Instr.plp, .rti, .cld, .sed] :=
  ⟨by decide, by decide, rfl, by decide, by decide⟩

theorem witness_RegistersHaveTheirWriters :
    (Instr.sta (.zp 0xFF)).mnemonic = some .STA ∧ isNext (exec (.sta (.zp 0xFF)) busy) = true ∧
    (Instr.asl (.mem (.zp 0xFF))).mnemonic = some .ASL ∧
    isNext (exec (.asl (.mem (.zp 0xFF))) busy) = true ∧
    (∃ f, Instr.asl (.mem (.zp 0xFF)) ∈ [Instr.asl (.mem f), .lsr (.mem f), .rol (.mem f), .ror (.mem f)]) :=
  ⟨rfl, by decide, rfl, by decide, ⟨.zp 0xFF, by decide⟩⟩

theorem witness_FlagsHaveTheirWriters :
    Instr.mnemonic .txs = some .TXS ∧ isNext (exec .txs busy) = true ∧ Instr.mnemonic .php = some .PHP ∧
    isNext (exec .php busy) = true := by decide

theorem witness_LatchesUntouchedByInstructions :
    isNext (exec .cli { busy with nmiPending := true, irqLine := true }) = true ∧ Instr.cli ≠ .brk := by decide

theorem witness_MemoryFrameOfNonStores :
    (Instr.bit (.zp 0xFF)).mnemonic = some .BIT ∧ isNext (exec (.bit (.zp 0xFF)) busy) = true ∧
    Instr.mnemonic (.ror .acc) = some .ROR ∧ isNext (exec (.ror .acc) busy) = true ∧
    Instr.ror .acc ∈ [Instr.asl .acc, .lsr .acc, .rol .acc, .ror .acc] := by decide

theorem witness_MemoryFrameOfStores :
    Instr.isc (.aby 0x7F00) ∈ (let f := MemForm.aby 0x7F00;
      [Instr.sta f, .stx f, .sty f, .sax f, .inc f, .dec f, .asl (.mem f), .lsr (.mem f), .rol (.mem f),
        .ror (.mem f), .slo f, .rla f, .sre f, .rra f, .dcp f, .isc f]) ∧
    resolve (.aby 0x7F00) busy = .ok (⟨0x7FFF, false⟩, busy) ∧
    isNext (exec (.isc (.aby 0x7F00)) busy) = true := ⟨by decide, rfl, by decide⟩

theorem witness_MemoryFrameOfPushes :
    isNext (exec .pha busy) = true ∧ isNext (exec .php busy) = true ∧ isNext (exec (.jsr 0xFFFF) busy) = true ∧
    cellOf busy.prgSize 0x0101 ≠ cellOf busy.prgSize (stackAddr busy.sp) ∧
    cellOf busy.prgSize 0x0101 ≠ cellOf busy.prgSize (stackAddr (busy.sp - 1)) := by decide

theorem witness_StepKeepsInvariant : busy.Inv ∧ isNext (step busy) = true ∧
    isNext (step { busy with nmiPending := true }) = true := by decide

theorem witness_HostKeepsInvariant : busy.Inv ∧
    (∀ a x y sp pc p, HostAction.setRegisters 1 2 3 4 5 (flags 0xFF) = .setRegisters a x y sp pc p →
      p.r = true ∧ p.b = false) :=
  ⟨by decide, by intro _ _ _ _ _ _ h; cases h; decide⟩

end Sys2Proof.Tests
end

