-- ==== Sys2Proof/Proofs/Scope.lean ====
section
/-! The state operations of 00_scope.md section 4: the stack (R11), `SetNZ` (R9), the packed status
byte (R10). -/

namespace Sys2Proof.Proofs

open Sys2Proof.Machine

/-! ## The stack -/

/-- A pop right after a push goes back to the pushed cell: `S - 1 + 1` is `S`, wrap included. -/
theorem pop_after_push (v : Byte) (s : State) (hwf : s.mem.wf = true) :
    pop { s with mem := s.mem.write (0x100 + s.sp.toNat) v, sp := s.sp - 1 } =
      .ok (v, { s with mem := s.mem.write (0x100 + s.sp.toNat) v }) := by
  rw [pop_eq]
  simp only [BitVec.sub_add_cancel, Memory.read_write _ _ _ _ hwf, if_true]

/-- Settles O21: the stack page is RAM in every state, so `push_eq` and `pop_eq` hold without a premise;
the round trip is `pop_after_push`. -/
theorem stackPushAndPop : Obligations.StackPushAndPop := by
  refine ⟨fun v s => ⟨stackAddr_toNat s.sp, push_eq v s⟩, pop_eq, ?_⟩
  intro v s s1 s2 w hwf hpush hpop
  rw [push_eq] at hpush
  obtain ⟨⟩ := hpush
  rw [pop_after_push v s hwf] at hpop
  obtain ⟨⟩ := hpop
  exact ⟨rfl, rfl⟩

/-! ## `SetNZ` -/

/-- The sign bit of a byte says that it is negative as a signed byte. -/
theorem bit7_iff_toInt_neg (v : Byte) : bit7 v = true ↔ v.toInt < 0 := by
  have hmsb : bit7 v = v.msb := (BitVec.msb_eq_getLsbD_last v).symm
  rw [hmsb, BitVec.msb_eq_toInt, decide_eq_true_iff]

/-- Settles O28: the frame is the definition of `SetNZ`; the two readings are the sign bit as the sign,
and a byte that is zero as a number. -/
theorem setNZSetsSignAndZero : Obligations.SetNZSetsSignAndZero := by
  intro s v
  refine ⟨rfl, ?sign, ?zero, State.setNZ_p s v⟩
  case sign => exact bit7_iff_toInt_neg v
  case zero =>
    rw [State.setNZ_p, StatusFlags.setNZ_z, beq_iff_eq, BitVec.toNat_eq]
    rfl

/-! ## The packed status byte -/

/-- `Unpack` of a packed byte takes the six flags from it and keeps the old `P.R` and `P.B` (R10). -/
theorem unpack_pack (p q : StatusFlags) (b : Bool) :
    q.unpack (p.pack b) = { p with r := q.r, b := q.b } := by
  obtain ⟨hn, hv, -, -, hd, hi, hz, hc⟩ := p.pack_bits b
  simp only [StatusFlags.unpack, hn, hv, hd, hi, hz, hc]

/-- Settles O29: the bit positions are `StatusFlags.pack_bits`, the round trip is `unpack_pack`. -/
theorem packedStatusBits : Obligations.PackedStatusBits :=
  ⟨StatusFlags.pack_bits, unpack_pack⟩

end Sys2Proof.Proofs
end

