-- ==== Sys2Proof/Proofs/State.lean ====
section
/-! The rules of 10_state.md: what a fetch delivers (section 2); which instructions write each register, flag
and latch (sections 1, 3, 5), read off one lemma that says everything an instruction can do (`exec_next`);
that `P.D` decides nothing (R27); and that steps and host actions keep the invariant. -/

namespace Sys2Proof.Proofs

open Sys2Proof.Machine

/-! ## What the matrix of R100 gives -/

/-- Every opcode byte has its cell in the matrix: 16 rows of 16. -/
theorem instrOf_mem (opc : Byte) : ∃ row ∈ opcodeRows, instrOf opc ∈ row := by
  have hlen : ∀ row ∈ opcodeRows, row.length = 16 := by decide
  have hr : opc.toNat / 16 < opcodeRows.length := by
    have := opc.isLt
    have : opcodeRows.length = 16 := rfl
    omega
  have hc : opc.toNat % 16 < (opcodeRows[opc.toNat / 16]).length := by
    rw [hlen _ (List.getElem_mem hr)]
    exact Nat.mod_lt _ (by decide)
  refine ⟨_, List.getElem_mem hr, ?_⟩
  have : instrOf opc = opcodeRows[opc.toNat / 16][opc.toNat % 16] := by
    funext b1 b2
    rw [instrOf, List.getD_eq_getElem _ _ hr, List.getD_eq_getElem _ _ hc]
  rw [this]
  exact List.getElem_mem hc

theorem uniformCell_instrOf (opc : Byte) : UniformCell (instrOf opc) := by
  obtain ⟨row, hrow, hmem⟩ := instrOf_mem opc
  exact cells_uniform row hrow _ hmem

/-- Every cell gives well-formed instructions, whatever the operand bytes (R109). -/
theorem cells_wf : ∀ row ∈ opcodeRows, ∀ c ∈ row, ∀ b1 b2, (c b1 b2).wf = true := by
  simp only [opcodeRows, OpMap.row0, OpMap.row1, OpMap.row2, OpMap.row3, OpMap.row4, OpMap.row5, OpMap.row6,
    OpMap.row7, OpMap.row8, OpMap.row9, OpMap.rowA, OpMap.rowB, OpMap.rowC, OpMap.rowD, OpMap.rowE,
    OpMap.rowF, List.forall_mem_cons, List.not_mem_nil, false_imp_iff, implies_true, and_true]
  and_intros <;> exact fun _ _ => rfl

theorem instrOf_wf (opc b1 b2 : Byte) : (instrOf opc b1 b2).wf = true := by
  obtain ⟨row, hrow, hmem⟩ := instrOf_mem opc
  exact cells_wf row hrow _ hmem b1 b2

/-- The opcode alone decides the length (R80). -/
theorem instrOf_length (opc b1 b2 : Byte) : (instrOf opc b1 b2).length = 1 + operandCount opc := by
  rw [Instr.length, (uniformCell_instrOf opc).mode b1 b2, operandCount]

/-! ## A step: the event that is pending, or the fetch -/

theorem step_of_event {s : State} {e : Event} (he : pendingEvent s = some e) : step s = e.serve s := by
  rw [step, he]

theorem step_of_none {s : State} (he : pendingEvent s = none) :
    step s = andThen (fetch s) fun i t => exec i t := by
  rw [step, he]

/-- Settles O9: the step at construction is the reset sequence, whose vector bytes are not listed. -/
theorem powerUpStepsToReset : Obligations.PowerUpStepsToReset := by
  intro pc
  rw [step_of_event (e := .reset) rfl, Event.serve, resetSequence_eq]
  simp only [State.construct, State.reset, Memory.read]
  rfl

/-- Settles O6: the bytes fetched are those of a cell of the matrix (`fetch_ok`), whose instructions are
well formed and as long as the opcode says. -/
theorem fetchMovesPastTheInstruction : Obligations.FetchMovesPastTheInstruction := by
  constructor
  · intro s hnone
    rw [step_of_none hnone]
    cases fetch s <;> rfl
  · intro s t i h
    obtain ⟨opc, b1, b2, dl, rfl, rfl⟩ := fetch_ok h
    exact ⟨instrOf_wf opc b1 b2, by rw [instrOf_length]⟩

/-- A byte of RAM or ROM is read as it stands there, and the state stays (R57). -/
theorem memRead_of_peek {a : Addr} {s : State} {v : Byte} (h : s.peek a = some v) :
    memRead a s = .ok (v, s) := by
  unfold State.peek at h
  split at h
  · next hc => cases h; exact memRead_plain a s (by simp [hc])
  · next hc => cases h; exact memRead_plain a s (by simp [hc])
  · cases h

theorem fetchByte_of_peek {s : State} {v : Byte} (h : s.peek s.pc = some v) :
    fetchByte s = .ok (v, { s with pc := s.pc + 1 }) := by
  rw [fetchByte, memRead_of_peek h]
  rfl

/-- The bytes of one instruction: the opcode and its operand bytes, as many as the opcode has (R80). -/
theorem decode_eq_ok_nil {bs : List Byte} {i : Instr} (h : decode bs = .ok (i, [])) :
    (∃ opc, operandCount opc = 0 ∧ bs = [opc] ∧ i = instrOf opc 0 0) ∨
    (∃ opc b1, operandCount opc = 1 ∧ bs = [opc, b1] ∧ i = instrOf opc b1 0) ∨
    (∃ opc b1 b2, operandCount opc = 2 ∧ bs = [opc, b1, b2] ∧ i = instrOf opc b1 b2) := by
  cases bs with
  | nil => cases h
  | cons opc rest =>
    rw [decode_cons] at h
    split at h
    · next h0 => cases h; exact .inl ⟨opc, h0, rfl, rfl⟩
    · next h1 => cases h; exact .inr (.inl ⟨opc, _, h1, rfl, rfl⟩)
    · next h2 => cases h; exact .inr (.inr ⟨opc, _, _, h2, rfl, rfl⟩)
    · cases h

theorem fetch_of_operandCount_zero {opc : Byte} {s s1 : State} (hn : operandCount opc = 0)
    (h : fetchByte s = .ok (opc, s1)) : fetch s = .ok (instrOf opc 0 0, s1) := by
  simp only [fetch, h, chain_ok, hn, answer]

theorem fetch_of_operandCount_one {opc b1 : Byte} {s s1 s2 : State} (hn : operandCount opc = 1)
    (h : fetchByte s = .ok (opc, s1)) (h1 : fetchByte s1 = .ok (b1, s2)) :
    fetch s = .ok (instrOf opc b1 0, s2) := by
  simp only [fetch, h, h1, chain_ok, hn, answer]

theorem fetch_of_operandCount_two {opc b1 b2 : Byte} {s s1 s2 s3 : State} (hn : operandCount opc = 2)
    (h : fetchByte s = .ok (opc, s1)) (h1 : fetchByte s1 = .ok (b1, s2)) (h2 : fetchByte s2 = .ok (b2, s3)) :
    fetch s = .ok (instrOf opc b1 b2, s3) := by
  simp only [fetch, h, h1, h2, chain_ok, hn, answer]

/-- The fetch of an instruction whose bytes stand in RAM or ROM (R82). -/
theorem fetch_of_peek {s : State} {bs : List Byte} {i : Instr} (hd : decode bs = .ok (i, []))
    (hb : ∀ k, k < bs.length → s.peek (s.pc + BitVec.ofNat 16 k) = bs[k]?) :
    fetch s = .ok (i, { s with pc := s.pc + BitVec.ofNat 16 bs.length }) := by
  have two : s.pc + 2 = s.pc + 1 + 1 := (BitVec.add_assoc s.pc 1 1).symm
  have three : s.pc + 3 = s.pc + 1 + 1 + 1 := by rw [BitVec.add_assoc, BitVec.add_assoc]; rfl
  obtain ⟨opc, hn, rfl, rfl⟩ | ⟨opc, b1, hn, rfl, rfl⟩ | ⟨opc, b1, b2, hn, rfl, rfl⟩ := decode_eq_ok_nil hd
  · have h0 : s.peek s.pc = some opc := by simpa using hb 0
    exact fetch_of_operandCount_zero hn (fetchByte_of_peek h0)
  · have h0 : s.peek s.pc = some opc := by simpa using hb 0
    have h1 : s.peek (s.pc + 1) = some b1 := by simpa using hb 1
    refine (fetch_of_operandCount_one hn (fetchByte_of_peek h0) (fetchByte_of_peek h1)).trans ?_
    rw [← two]; rfl
  · have h0 : s.peek s.pc = some opc := by simpa using hb 0
    have h1 : s.peek (s.pc + 1) = some b1 := by simpa using hb 1
    have h2 : s.peek (s.pc + 1 + 1) = some b2 := two ▸ hb 2 (by simp)
    refine (fetch_of_operandCount_two hn (fetchByte_of_peek h0) (fetchByte_of_peek h1)
      (fetchByte_of_peek h2)).trans ?_
    rw [← three]; rfl

/-- Settles O5: the fetch delivers the decoded instruction (`fetch_of_peek`), and the step runs it. -/
theorem stepRunsTheDecodedInstruction : Obligations.StepRunsTheDecodedInstruction := by
  intro s i bs hnone hd hb
  rw [step_of_none hnone, fetch_of_peek hd hb, andThen_ok]

/-! ## Writes to RAM -/

/-- The memory `m'` is the memory `m` after writes to RAM addresses alone. -/
inductive RamWrites (prg : PrgSize) (m : Memory) : Memory → Prop where
  | none : RamWrites prg m m
  | write {m' : Memory} (h : RamWrites prg m m') (a : Addr) (v : Byte) (ha : classOf a = .ram) :
    RamWrites prg m (m'.write (cellOf prg a) v)

/-- A byte written to the stack page is a write to RAM (R11). -/
theorem RamWrites.push {prg : PrgSize} {m m' : Memory} (h : RamWrites prg m m') (sp v : Byte) :
    RamWrites prg m (m'.write (0x100 + sp.toNat) v) := by
  rw [← cellOf_stackAddr prg sp]
  exact h.write _ v (classOf_stackAddr sp)

theorem ramWrites_of_writtenAt {prg : PrgSize} {ea : Addr} {v : Byte} {m m' : Memory}
    (h : WrittenAt prg ea v m m') : RamWrites prg m m' := by
  obtain ⟨hc, rfl⟩ | ⟨-, rfl⟩ := h
  · exact RamWrites.none.write ea v hc
  · exact .none

theorem RamWrites.wf {prg : PrgSize} {m m' : Memory} (h : RamWrites prg m m') (hm : m.wf = true) :
    m'.wf = true := by
  induction h with
  | none => exact hm
  | write _ a v _ ih => exact Memory.wf_write ih _ v

theorem RamWrites.mapped {prg : PrgSize} {m m' : Memory} (h : RamWrites prg m m')
    (hm : m.mapped prg = true) : m'.mapped prg = true := by
  induction h with
  | none => exact hm
  | write _ a v ha ih => exact Memory.mapped_write ih (isCell_cellOf prg a (by simp [ha])) v

/-! ## The instructions that always complete -/

theorem exec_pha (s : State) : exec .pha s =
    .next { s with mem := s.mem.write (0x100 + s.sp.toNat) s.a, sp := s.sp - 1, cycles := 3 } := by
  simp only [exec, execPha, push_eq, andThen_ok, done]

theorem exec_php (s : State) : exec .php s =
    .next { s with mem := s.mem.write (0x100 + s.sp.toNat) (s.p.pack true), sp := s.sp - 1, cycles := 3 } := by
  simp only [exec, execPhp, push_eq, andThen_ok, done]

theorem exec_pla (s : State) : exec .pla s =
    .next { s.loadA (s.mem.read (0x100 + (s.sp + 1).toNat)) with sp := s.sp + 1, cycles := 4 } := by
  simp only [exec, execPla, pop_eq, andThen_ok]
  rfl

theorem exec_plp (s : State) : exec .plp s =
    .next { s with p := s.p.unpack (s.mem.read (0x100 + (s.sp + 1).toNat)), sp := s.sp + 1, cycles := 4 } := by
  simp only [exec, execPlp, pop_eq, andThen_ok, done]

theorem exec_jsr (a : Addr) (s : State) : exec (.jsr a) s = .next { s with
    mem := (s.mem.write (0x100 + s.sp.toNat) (hiByte (s.pc - 1))).write (0x100 + (s.sp - 1).toNat)
      (loByte (s.pc - 1))
    sp := s.sp - 1 - 1, pc := a, cycles := 6 } := by
  simp only [exec, execJsr, pushAddr_eq, andThen_ok, done]

theorem exec_rts (s : State) : exec .rts s = .next { s with
    pc := addrOf (s.mem.read (0x100 + (s.sp + 1).toNat)) (s.mem.read (0x100 + (s.sp + 1 + 1).toNat)) + 1
    sp := s.sp + 1 + 1, cycles := 6 } := by
  simp only [exec, execRts, popAddr_eq, andThen_ok, done]

theorem exec_rti (s : State) : exec .rti s = returnFromInterrupt s := rfl

/-- Whether the operand address of an undocumented `NOP` crosses a page. -/
def nopCrossed (o : NopOperand) (s : State) : Bool :=
  match o with
  | .imp | .src (.imm _) => false
  | .src (.mem f) => (effectiveOf f s).crossed

/-- An undocumented `NOP` does not read its operand (R209, D14): it leaves only a cycle count. -/
theorem exec_nopu (opc : Byte) (o : NopOperand) (s : State) :
    exec (.nopu opc o) s = .next { s with cycles := o.readCycles + crossCycle (nopCrossed o s) } := by
  match o with
  | .imp | .src (.imm _) => rfl
  | .src (.mem f) =>
    simp only [exec, execNopu, nopOperand, nopReadsOperand, resolve_eq]
    rfl

/-! ## What an instruction does to the state outside memory -/

/-- A shift or rotate by `g` of the accumulator, or of a byte `v` of memory (R159). -/
def shiftEffect (g : Byte → State → Byte × State) (t : Target) (v : Byte) (s : State) : State :=
  let r := g (match t with | .acc => s.a | .mem _ => v) s
  { s with
    a := match t with | .acc => r.1 | .mem _ => s.a
    p := r.2.p.setNZ r.1 }

/-- A branch: `PC` at the target if it is taken (R174). -/
def branchEffect (taken : Bool) (off : Byte) (s : State) : State :=
  { s with pc := if taken then (branchTarget off s.pc).ea else s.pc }

/-- What an instruction that completes does to registers, flags and latches, given the byte `v` and the
address `w` that it read or popped, whichever of them it reads. -/
def instrEffect (i : Instr) (v : Byte) (w : Addr) (s : State) : State :=
  match i with
  | .lda _ => { s with a := v }.setNZ v
  | .ldx _ => { s with x := v }.setNZ v
  | .ldy _ => { s with y := v }.setNZ v
  | .lax _ => { s with a := v, x := v }.setNZ v
  | .sta _ | .stx _ | .sty _ | .sax _ | .nop | .nopu _ _ | .unassigned _ => s
  | .tax => { s with x := s.a }.setNZ s.a
  | .tay => { s with y := s.a }.setNZ s.a
  | .txa => { s with a := s.x }.setNZ s.x
  | .tya => { s with a := s.y }.setNZ s.y
  | .tsx => { s with x := s.sp }.setNZ s.sp
  | .txs => { s with sp := s.x }
  | .pha | .php => { s with sp := s.sp - 1 }
  | .pla => { s with sp := s.sp + 1, a := v }.setNZ v
  | .plp => { s with sp := s.sp + 1, p := s.p.unpack v }
  | .adc _ => addWithCarry v s
  | .sbc _ | .sbcu _ => subWithBorrow v s
  | .and _ => s.loadA (s.a &&& v)
  | .ora _ => s.loadA (s.a ||| v)
  | .eor _ => s.loadA (s.a ^^^ v)
  | .cmp _ => compare s.a v s
  | .cpx _ => compare s.x v s
  | .cpy _ => compare s.y v s
  | .bit _ => bitTest v s
  | .inc _ => s.setNZ (v + 1)
  | .dec _ => s.setNZ (v - 1)
  | .inx => { s with x := s.x + 1 }.setNZ (s.x + 1)
  | .iny => { s with y := s.y + 1 }.setNZ (s.y + 1)
  | .dex => { s with x := s.x - 1 }.setNZ (s.x - 1)
  | .dey => { s with y := s.y - 1 }.setNZ (s.y - 1)
  | .asl t => shiftEffect shiftLeft t v s
  | .lsr t => shiftEffect shiftRight t v s
  | .rol t => shiftEffect rotateLeft t v s
  | .ror t => shiftEffect rotateRight t v s
  | .slo _ => let r := shiftLeft v s; r.2.loadA (s.a ||| r.1)
  | .rla _ => let r := rotateLeft v s; r.2.loadA (s.a &&& r.1)
  | .sre _ => let r := shiftRight v s; r.2.loadA (s.a ^^^ r.1)
  | .rra _ => let r := rotateRight v s; addWithCarry r.1 r.2
  | .dcp _ => compare s.a (v - 1) s
  | .isc _ => subWithBorrow (v + 1) s
  | .jmp a => { s with pc := a }
  | .jmpInd _ => { s with pc := w }
  | .jsr a => { s with sp := s.sp - 1 - 1, pc := a }
  | .rts => { s with sp := s.sp + 1 + 1, pc := w + 1 }
  | .rti => { s with sp := s.sp + 1 + 1 + 1, p := s.p.unpack v, pc := w }
  | .bpl off => branchEffect (!s.p.n) off s
  | .bmi off => branchEffect s.p.n off s
  | .bvc off => branchEffect (!s.p.v) off s
  | .bvs off => branchEffect s.p.v off s
  | .bcc off => branchEffect (!s.p.c) off s
  | .bcs off => branchEffect s.p.c off s
  | .bne off => branchEffect (!s.p.z) off s
  | .beq off => branchEffect s.p.z off s
  | .clc => { s with p := { s.p with c := false } }
  | .sec => { s with p := { s.p with c := true } }
  | .cli => { s with p := { s.p with i := false } }
  | .sei => { s with p := { s.p with i := true } }
  | .clv => { s with p := { s.p with v := false } }
  | .cld => { s with p := { s.p with d := false } }
  | .sed => { s with p := { s.p with d := true } }
  | .brk => { s with pc := s.pc + brkPad, brkPending := true }

/-- A shift or rotate that completes. -/
theorem shiftBy_next {g : Byte → State → Byte × State} (hg : FlagsOnly g) {tg : Target} {s t : State}
    (h : shiftBy g tg s = .next t) :
    ∃ v m dl n, RamWrites s.prgSize s.mem m ∧
      t = { shiftEffect g tg v s with mem := m, deviceLog := dl, cycles := n } := by
  cases tg with
  | acc =>
    rw [shiftBy, hg.state] at h
    cases h
    exact ⟨0, s.mem, s.deviceLog, _, .none, rfl⟩
  | mem f =>
    obtain ⟨v, m, dl, rfl, hw⟩ := modifyThen_next hg h
    exact ⟨v, m, dl, _, ramWrites_of_writtenAt hw, rfl⟩

/-- Everything an instruction that completes can do: its effect, with writes to RAM and an unspecified
device log and cycle count. -/
theorem exec_next {i : Instr} {s t : State} (h : exec i s = .next t) :
    ∃ v w m dl n, RamWrites s.prgSize s.mem m ∧
      t = { instrEffect i v w s with mem := m, deviceLog := dl, cycles := n } := by
  cases i with
  | lda | ldx | ldy | lax | adc | sbc | sbcu | and | ora | eor | cmp | cpx | cpy | bit =>
    simp only [exec_lda, exec_ldx, exec_ldy, exec_lax, exec_adc, exec_sbc, exec_sbcu, exec_and, exec_ora,
      exec_eor, exec_cmp, exec_cpx, exec_cpy, exec_bit] at h
    obtain ⟨m, dl, -, rfl⟩ := readThen_next h
    exact ⟨m.value, 0, s.mem, dl, _, .none, rfl⟩
  | sta | stx | sty | sax =>
    obtain ⟨m, dl, rfl, hw⟩ := storeByte_next h
    exact ⟨0, 0, m, dl, _, ramWrites_of_writtenAt hw, rfl⟩
  | inc | dec | dcp | isc | slo | rla | sre | rra =>
    simp only [exec_inc, exec_dec, exec_dcp, exec_isc, exec_slo, exec_rla, exec_sre, exec_rra] at h
    obtain ⟨v, m, dl, rfl, hw⟩ := modifyThen_next (by simp only [increment_flagsOnly, decrement_flagsOnly,
      shiftLeft_flagsOnly, rotateLeft_flagsOnly, shiftRight_flagsOnly, rotateRight_flagsOnly]) h
    exact ⟨v, 0, m, dl, _, ramWrites_of_writtenAt hw, rfl⟩
  | asl | lsr | rol | ror =>
    obtain ⟨v, m, dl, n, hm, rfl⟩ := shiftBy_next (by simp only [shiftLeft_flagsOnly, rotateLeft_flagsOnly,
      shiftRight_flagsOnly, rotateRight_flagsOnly]) h
    exact ⟨v, 0, m, dl, n, hm, rfl⟩
  | bpl | bmi | bvc | bvs | bcc | bcs | bne | beq =>
    cases (branchIf_eq ..).symm.trans h
    exact ⟨0, 0, s.mem, s.deviceLog, _, .none, rfl⟩
  | pha | php =>
    simp only [exec_pha, exec_php] at h
    cases h
    exact ⟨0, 0, _, s.deviceLog, _, RamWrites.none.push .., rfl⟩
  | jsr a =>
    cases (exec_jsr a s).symm.trans h
    exact ⟨0, 0, _, s.deviceLog, _, (RamWrites.none.push ..).push .., rfl⟩
  | pla | plp =>
    simp only [exec_pla, exec_plp] at h
    cases h
    exact ⟨_, 0, s.mem, s.deviceLog, _, .none, rfl⟩
  | rts =>
    cases (exec_rts s).symm.trans h
    exact ⟨0, _, s.mem, s.deviceLog, _, .none, rfl⟩
  | rti =>
    cases (returnFromInterrupt_eq s).symm.trans h
    exact ⟨_, _, s.mem, s.deviceLog, _, .none, rfl⟩
  | jmpInd p =>
    obtain ⟨w, s1, h1, h2⟩ := andThen_eq_next.1 h
    rw [readPair_next h1] at h2
    cases h2
    exact ⟨0, w, s.mem, _, _, .none, rfl⟩
  | nopu =>
    cases (exec_nopu ..).symm.trans h
    exact ⟨0, 0, s.mem, s.deviceLog, _, .none, rfl⟩
  | unassigned => cases h
  | tax | tay | txa | tya | tsx | txs | inx | iny | dex | dey | clc | sec | cli | sei | clv | cld | sed
  | nop | brk | jmp =>
    cases h
    exact ⟨0, 0, s.mem, s.deviceLog, _, .none, rfl⟩

/-! ## Registers, flags and latches, and their writers -/

section Writers

variable {i : Instr} {m : Mnemonic} (hi : i.mnemonic = some m) (v : Byte) (w : Addr) (s : State)
include hi

theorem instrEffect_a (hm : m ∉ [Mnemonic.LDA, .PLA, .TXA, .TYA, .ADC, .SBC, .AND, .ORA, .EOR, .ASL, .LSR,
    .ROL, .ROR, .LAX, .SLO, .RLA, .SRE, .RRA, .ISC]) : (instrEffect i v w s).a = s.a := by
  cases i with
  | lda | pla | txa | tya | adc | sbc | sbcu | and | ora | eor | asl | lsr | rol | ror | lax | slo | rla
  | sre | rra | isc => cases hi; exact absurd (by decide) hm
  | _ => rfl

theorem instrEffect_x (hm : m ∉ [Mnemonic.LDX, .TAX, .TSX, .INX, .DEX, .LAX]) :
    (instrEffect i v w s).x = s.x := by
  cases i with
  | ldx | tax | tsx | inx | dex | lax => cases hi; exact absurd (by decide) hm
  | _ => rfl

theorem instrEffect_y (hm : m ∉ [Mnemonic.LDY, .TAY, .INY, .DEY]) : (instrEffect i v w s).y = s.y := by
  cases i with
  | ldy | tay | iny | dey => cases hi; exact absurd (by decide) hm
  | _ => rfl

theorem instrEffect_sp (hm : m ∉ [Mnemonic.PHA, .PHP, .PLA, .PLP, .JSR, .RTS, .RTI, .TXS]) :
    (instrEffect i v w s).sp = s.sp := by
  cases i with
  | pha | php | pla | plp | jsr | rts | rti | txs => cases hi; exact absurd (by decide) hm
  | _ => rfl

theorem instrEffect_pc (hm : m ∉ [Mnemonic.JMP, .JSR, .RTS, .RTI, .BRK, .BPL, .BMI, .BVC, .BVS, .BCC, .BCS,
    .BNE, .BEQ]) : (instrEffect i v w s).pc = s.pc := by
  cases i with
  | jmp | jmpInd | jsr | rts | rti | brk | bpl | bmi | bvc | bvs | bcc | bcs | bne | beq =>
    cases hi; exact absurd (by decide) hm
  | _ => rfl

theorem instrEffect_p_nz (hm : m ∉ [Mnemonic.LDA, .LDX, .LDY, .LAX, .TAX, .TAY, .TXA, .TYA, .TSX, .PLA, .ADC,
    .SBC, .AND, .ORA, .EOR, .INC, .DEC, .INX, .INY, .DEX, .DEY, .ASL, .LSR, .ROL, .ROR, .SLO, .RLA, .SRE, .RRA,
    .ISC, .CMP, .CPX, .CPY, .DCP, .BIT, .PLP, .RTI]) :
    (instrEffect i v w s).p.n = s.p.n ∧ (instrEffect i v w s).p.z = s.p.z := by
  cases i with
  | sta | stx | sty | sax | txs | pha | php | jmp | jmpInd | jsr | rts | bpl | bmi | bvc | bvs | bcc | bcs | bne
  | beq | clc | sec | cli | sei | clv | cld | sed | nop | nopu | brk | unassigned => exact ⟨rfl, rfl⟩
  | _ => cases hi; exact absurd (by decide) hm

theorem instrEffect_p_v (hm : m ∉ [Mnemonic.ADC, .SBC, .RRA, .ISC, .BIT, .CLV, .PLP, .RTI]) :
    (instrEffect i v w s).p.v = s.p.v := by
  cases i with
  | adc | sbc | sbcu | rra | isc | bit | clv | plp | rti => cases hi; exact absurd (by decide) hm
  | _ => rfl

theorem instrEffect_p_c (hm : m ∉ [Mnemonic.ADC, .SBC, .RRA, .ISC, .ASL, .LSR, .ROL, .ROR, .SLO, .RLA, .SRE,
    .CMP, .CPX, .CPY, .DCP, .SEC, .CLC, .PLP, .RTI]) : (instrEffect i v w s).p.c = s.p.c := by
  cases i with
  | adc | sbc | sbcu | rra | isc | asl | lsr | rol | ror | slo | rla | sre | cmp | cpx | cpy | dcp | sec | clc
  | plp | rti => cases hi; exact absurd (by decide) hm
  | _ => rfl

theorem instrEffect_p_d (hm : m ∉ [Mnemonic.SED, .CLD, .PLP, .RTI]) :
    (instrEffect i v w s).p.d = s.p.d := by
  cases i with
  | sed | cld | plp | rti => cases hi; exact absurd (by decide) hm
  | _ => rfl

theorem instrEffect_p_i (hm : m ∉ [Mnemonic.SEI, .CLI, .PLP, .RTI]) :
    (instrEffect i v w s).p.i = s.p.i := by
  cases i with
  | sei | cli | plp | rti => cases hi; exact absurd (by decide) hm
  | _ => rfl

end Writers

/-- A shift or rotate of a byte of memory leaves the accumulator (R161). -/
theorem instrEffect_a_of_memory_shift {i : Instr} {f : MemForm} (v : Byte) (w : Addr) (s : State)
    (hi : i ∈ [Instr.asl (.mem f), .lsr (.mem f), .rol (.mem f), .ror (.mem f)]) :
    (instrEffect i v w s).a = s.a := by
  simp only [List.mem_cons, List.not_mem_nil, or_false] at hi
  rcases hi with rfl | rfl | rfl | rfl <;> rfl

theorem instrEffect_p_r (i : Instr) (v : Byte) (w : Addr) (s : State) :
    (instrEffect i v w s).p.r = s.p.r := by
  cases i <;> rfl

theorem instrEffect_p_b (i : Instr) (v : Byte) (w : Addr) (s : State) :
    (instrEffect i v w s).p.b = s.p.b := by
  cases i <;> rfl

theorem instrEffect_latches (i : Instr) (v : Byte) (w : Addr) (s : State) :
    (instrEffect i v w s).resetPending = s.resetPending ∧ (instrEffect i v w s).nmiPrev = s.nmiPrev ∧
    (instrEffect i v w s).nmiPending = s.nmiPending ∧ (instrEffect i v w s).irqLine = s.irqLine := by
  cases i <;> exact ⟨rfl, rfl, rfl, rfl⟩

theorem instrEffect_prgSize (i : Instr) (v : Byte) (w : Addr) (s : State) :
    (instrEffect i v w s).prgSize = s.prgSize := by
  cases i <;> rfl

theorem instrEffect_brkPending {i : Instr} (hi : i ≠ .brk) (v : Byte) (w : Addr) (s : State) :
    (instrEffect i v w s).brkPending = s.brkPending := by
  cases i with
  | brk => exact absurd rfl hi
  | _ => rfl

/-- Settles O52: with `exec_next`, the writers of each register are those of the instruction's effect. -/
theorem registersHaveTheirWriters : Obligations.RegistersHaveTheirWriters := by
  intro i m s t hi h
  obtain ⟨v, w, mem, dl, n, -, rfl⟩ := exec_next h
  exact ⟨instrEffect_a hi v w s, fun f => instrEffect_a_of_memory_shift v w s, instrEffect_x hi v w s,
    instrEffect_y hi v w s, instrEffect_sp hi v w s, instrEffect_pc hi v w s⟩

/-- Settles O53: with `exec_next`, the writers of each flag are those of the instruction's effect. -/
theorem flagsHaveTheirWriters : Obligations.FlagsHaveTheirWriters := by
  intro i m s t hi h
  obtain ⟨v, w, mem, dl, n, -, rfl⟩ := exec_next h
  exact ⟨instrEffect_p_nz hi v w s, instrEffect_p_v hi v w s, instrEffect_p_c hi v w s,
    instrEffect_p_d hi v w s, instrEffect_p_i hi v w s, instrEffect_p_r i v w s, instrEffect_p_b i v w s⟩

/-- Settles O54: with `exec_next`, the effect of no instruction but `BRK` writes a latch. -/
theorem latchesUntouchedByInstructions : Obligations.LatchesUntouchedByInstructions := by
  intro i s t h
  obtain ⟨v, w, mem, dl, n, -, rfl⟩ := exec_next h
  obtain ⟨hreset, hprev, hnmi, hirq⟩ := instrEffect_latches i v w s
  exact ⟨hreset, hprev, hnmi, hirq, instrEffect_prgSize i v w s, fun hi => instrEffect_brkPending hi v w s⟩

/-! ## The invariant -/

/-- The invariant is kept where `P.R`, `P.B` and the cartridge stay and memory changes by writes to RAM. -/
theorem inv_of_ramWrites {s t : State} (hs : s.Inv) (hr : t.p.r = s.p.r) (hb : t.p.b = s.p.b)
    (hprg : t.prgSize = s.prgSize) (hm : RamWrites s.prgSize s.mem t.mem) : t.Inv := by
  obtain ⟨h1, h2, hwf, hmap⟩ := hs
  exact ⟨hr.trans h1, hb.trans h2, hm.wf hwf, hprg ▸ hm.mapped hmap⟩

theorem exec_keepsInv {i : Instr} {s t : State} (hs : s.Inv) (h : exec i s = .next t) : t.Inv := by
  obtain ⟨v, w, m, dl, n, hm, rfl⟩ := exec_next h
  exact inv_of_ramWrites hs (instrEffect_p_r i v w s) (instrEffect_p_b i v w s) (instrEffect_prgSize i v w s) hm

theorem fetch_keepsInv {i : Instr} {s t : State} (hs : s.Inv) (h : fetch s = .ok (i, t)) : t.Inv := by
  obtain ⟨opc, b1, b2, dl, -, rfl⟩ := fetch_ok h
  exact hs

theorem serve_keepsInv {e : Event} {s t : State} (hs : s.Inv) (h : e.serve s = .next t) : t.Inv := by
  cases e with
  | reset =>
    obtain ⟨-, -, hmem⟩ := hs
    cases (resetSequence_eq s).symm.trans h
    exact ⟨rfl, rfl, hmem⟩
  | interrupt k =>
    cases (interruptEntry_eq k s).symm.trans h
    exact inv_of_ramWrites hs rfl rfl rfl (((RamWrites.none.push ..).push ..).push ..)

/-- Settles O58: an event keeps the invariant by its closed form, and otherwise the fetch and the
instruction do. -/
theorem stepKeepsInvariant : Obligations.StepKeepsInvariant := by
  intro s t hs h
  cases he : pendingEvent s with
  | some e => exact serve_keepsInv hs (step_of_event he ▸ h)
  | none =>
    rw [step_of_none he] at h
    obtain ⟨i, s1, hf, hx⟩ := andThen_eq_next.1 h
    exact exec_keepsInv (fetch_keepsInv hs hf) hx

/-- Settles O59: both memories are empty, and both status registers are `resetP`. -/
theorem resetMeetsInvariant : Obligations.ResetMeetsInvariant :=
  ⟨by decide, fun _ => ⟨rfl, rfl, rfl, rfl⟩⟩

theorem poke_plain {s : State} {a : Addr} (h : classOf a ≠ .device) (b : Byte) :
    s.poke a b = { s with mem := s.mem.write (cellOf s.prgSize a) b } := by
  unfold State.poke
  split
  · rfl
  · rfl
  · next hc => exact absurd hc h

theorem poke_device {s : State} {a : Addr} (h : classOf a = .device) (b : Byte) : s.poke a b = s := by
  rw [State.poke, h]

theorem poke_keepsInv {s : State} (hs : s.Inv) (a : Addr) (b : Byte) : (s.poke a b).Inv := by
  by_cases hc : classOf a = .device
  · rwa [poke_device hc]
  · obtain ⟨hr, hb, hwf, hmap⟩ := hs
    rw [poke_plain hc]
    exact ⟨hr, hb, Memory.wf_write hwf _ b, Memory.mapped_write hmap (isCell_cellOf _ a hc) b⟩

theorem hostAction_keepsInv {s : State} (hs : s.Inv) (h : HostAction)
    (hp : ∀ a x y sp pc p, h = .setRegisters a x y sp pc p → p.r = true ∧ p.b = false) :
    (h.apply s).Inv := by
  cases h with
  | signalNmi | setIrqLine | requestReset => exact hs
  | setRegisters a x y sp pc p =>
    obtain ⟨-, -, hmem⟩ := hs
    obtain ⟨hr, hb⟩ := hp _ _ _ _ _ _ rfl
    exact ⟨hr, hb, hmem⟩

/-- Settles O60: a placed byte goes to a cell of the address map; of the host's actions only
`setRegisters` meets `P`, and its flags hold by the premise. -/
theorem hostKeepsInvariant : Obligations.HostKeepsInvariant :=
  fun _ hs => ⟨poke_keepsInv hs, hostAction_keepsInv hs⟩

/-! ## Updates that no access sees -/

/-- An update of the state that no access to an operand sees: it leaves what the accesses read, and commutes
with what they write. -/
structure Unseen (φ : State → State) : Prop where
  x : ∀ s, (φ s).x = s.x
  y : ∀ s, (φ s).y = s.y
  mem : ∀ s, (φ s).mem = s.mem
  prgSize : ∀ s, (φ s).prgSize = s.prgSize
  deviceLog : ∀ s, (φ s).deviceLog = s.deviceLog
  setMem : ∀ s m, φ { s with mem := m } = { φ s with mem := m }
  setLog : ∀ s dl, φ { s with deviceLog := dl } = { φ s with deviceLog := dl }

/-- The answer of an access, with the state after it updated. -/
def onState {α : Type} (φ : State → State) : Access α → Access α
  | .ok (v, s) => .ok (v, φ s)
  | .error f => .error f

/-- The outcome of a meaning, with the next state updated. -/
def onNext (φ : State → State) : Out → Out
  | .next s => .next (φ s)
  | .fault f => .fault f
  | .refused r => .refused r

theorem chain_onState {α β : Type} {φ : State → State} {r : Access α} {k k' : α → State → Access β}
    (hk : ∀ v s, k' v (φ s) = onState φ (k v s)) :
    chain (onState φ r) k' = onState φ (chain r k) := by
  rcases r with f | ⟨v, s⟩
  · rfl
  · exact hk v s

theorem andThen_onState {α : Type} {φ : State → State} {r : Access α} {k k' : α → State → Out}
    (hk : ∀ v s, k' v (φ s) = onNext φ (k v s)) :
    andThen (onState φ r) k' = onNext φ (andThen r k) := by
  rcases r with f | ⟨v, s⟩
  · rfl
  · exact hk v s

section Unseen

variable {φ : State → State} (hφ : Unseen φ)
include hφ

theorem memRead_unseen (a : Addr) (s : State) : memRead a (φ s) = onState φ (memRead a s) := by
  by_cases hc : classOf a = .device
  · rw [memRead_device _ _ hc, memRead_device _ _ hc, hφ.deviceLog]
    cases Config.deviceRead s.deviceLog a with
    | byte v => exact congrArg (answer v) (hφ.setLog s _).symm
    | refused => rfl
  · rw [memRead_plain _ _ hc, memRead_plain _ _ hc, hφ.mem, hφ.prgSize]
    rfl

theorem memWrite_unseen (a : Addr) (v : Byte) (s : State) :
    memWrite a v (φ s) = onState φ (memWrite a v s) := by
  rcases classOf_cases a with ⟨hc, _⟩ | ⟨hc, _⟩ | ⟨hc, _⟩
  · have hm : (φ s).mem.write (cellOf (φ s).prgSize a) v = s.mem.write (cellOf s.prgSize a) v := by
      rw [hφ.mem, hφ.prgSize]
    rw [memWrite_ram _ _ _ hc, memWrite_ram _ _ _ hc, hm]
    exact congrArg (answer ()) (hφ.setMem s _).symm
  · rw [memWrite_rom _ _ _ hc, memWrite_rom _ _ _ hc]
    rfl
  · rw [memWrite_device _ _ _ hc, memWrite_device _ _ _ hc, hφ.deviceLog]
    cases Config.deviceWrite s.deviceLog a v with
    | taken => exact congrArg (answer ()) (hφ.setLog s _).symm
    | refused => rfl

theorem effectiveOf_unseen (f : MemForm) (s : State) : effectiveOf f (φ s) = effectiveOf f s := by
  cases f <;> simp only [effectiveOf, hφ.x, hφ.y, hφ.mem]

theorem nopCrossed_unseen (o : NopOperand) (s : State) : nopCrossed o (φ s) = nopCrossed o s := by
  match o with
  | .imp | .src (.imm _) => rfl
  | .src (.mem f) => rw [nopCrossed, effectiveOf_unseen hφ, nopCrossed]

theorem readPair_unseen (lo hi : Addr) (s : State) :
    readPair lo hi (φ s) = onState φ (readPair lo hi s) := by
  simp only [readPair, memRead_unseen hφ]
  exact chain_onState fun _ s => by
    rw [memRead_unseen hφ]
    exact chain_onState fun _ _ => rfl

theorem readSource_unseen (o : Source) (s : State) :
    readSource o (φ s) = onState φ (readSource o s) := by
  cases o with
  | imm b1 => rfl
  | mem f =>
    simp only [readSource, readMem_eq, effectiveOf_unseen hφ, memRead_unseen hφ]
    exact chain_onState fun _ _ => rfl

theorem storeMem_unseen (f : MemForm) (v : Byte) (s : State) :
    storeMem f v (φ s) = onState φ (storeMem f v s) := by
  rw [storeMem_eq, storeMem_eq, effectiveOf_unseen hφ, memWrite_unseen hφ]

theorem modifyMem_unseen (f : MemForm) {g : Byte → State → Byte × State}
    (hg : ∀ v s, g v (φ s) = ((g v s).1, φ (g v s).2)) (s : State) :
    modifyMem f g (φ s) = onState φ (modifyMem f g s) := by
  simp only [modifyMem, resolve_eq, chain_ok, effectiveOf_unseen hφ, memRead_unseen hφ]
  refine chain_onState fun v s => ?_
  simp only [hg, memWrite_unseen hφ]
  exact chain_onState fun _ _ => rfl

end Unseen

/-! ## `P.D` -/

/-- The state with `P.D` replaced. -/
def withD (d : Bool) (s : State) : State := { s with p := { s.p with d := d } }

theorem withD_unseen (d : Bool) : Unseen (withD d) where
  x _ := rfl
  y _ := rfl
  mem _ := rfl
  prgSize _ := rfl
  deviceLog _ := rfl
  setMem _ _ := rfl
  setLog _ _ := rfl

theorem readThen_withD (d : Bool) (o : Source) {g : Byte → State → State}
    (hg : ∀ v s, g v (withD d s) = withD d (g v s)) (s : State) :
    readThen o g (withD d s) = onNext (withD d) (readThen o g s) := by
  rw [readThen, readSource_unseen (withD_unseen d)]
  exact andThen_onState fun v s => by rw [hg]; rfl

theorem storeByte_withD (d : Bool) (f : MemForm) (v : Byte) (s : State) :
    storeByte f v (withD d s) = onNext (withD d) (storeByte f v s) := by
  rw [storeByte, storeMem_unseen (withD_unseen d)]
  exact andThen_onState fun _ _ => rfl

theorem modifyThen_withD (d : Bool) (f : MemForm) {g : Byte → State → Byte × State}
    {k : Byte → State → State} (hg : ∀ v s, g v (withD d s) = ((g v s).1, withD d (g v s).2))
    (hk : ∀ v s, k v (withD d s) = withD d (k v s)) (s : State) :
    modifyThen f g k (withD d s) = onNext (withD d) (modifyThen f g k s) := by
  rw [modifyThen, modifyMem_unseen (withD_unseen d) f hg]
  exact andThen_onState fun v s => by rw [hk]; rfl

theorem shiftBy_withD (d : Bool) (t : Target) {g : Byte → State → Byte × State}
    (hg : ∀ v s, g v (withD d s) = ((g v s).1, withD d (g v s).2)) (s : State) :
    shiftBy g t (withD d s) = onNext (withD d) (shiftBy g t s) := by
  cases t with
  | acc =>
    have ha := hg s.a s
    simp only [shiftBy]
    rw [show (withD d s).a = s.a from rfl, ha]
    rfl
  | mem f => exact modifyThen_withD d f hg (fun _ _ => by rfl) s

theorem branchIf_withD (d cond : Bool) (off : Byte) (s : State) :
    branchIf cond off (withD d s) = onNext (withD d) (branchIf cond off s) := by
  cases cond <;> rfl

/-- An instruction that does not write or push `P.D` commutes with replacing it (R27). -/
theorem exec_withD (d : Bool) {i : Instr} (hi : i ∉ [Instr.php, .plp, .rti, .cld, .sed]) (s : State) :
    exec i (withD d s) = onNext (withD d) (exec i s) := by
  cases i with
  | lda | ldx | ldy | lax | adc | sbc | sbcu | and | ora | eor | cmp | cpx | cpy | bit =>
    simp only [exec_lda, exec_ldx, exec_ldy, exec_lax, exec_adc, exec_sbc, exec_sbcu, exec_and, exec_ora,
      exec_eor, exec_cmp, exec_cpx, exec_cpy, exec_bit]
    exact readThen_withD d _ (fun _ _ => by rfl) s
  | sta | stx | sty | sax => exact storeByte_withD d _ _ s
  | inc | dec | dcp | isc | slo | rla | sre | rra =>
    simp only [exec_inc, exec_dec, exec_dcp, exec_isc, exec_slo, exec_rla, exec_sre, exec_rra]
    exact modifyThen_withD d _ (fun _ _ => by rfl) (fun _ _ => by rfl) s
  | asl | lsr | rol | ror => exact shiftBy_withD d _ (fun _ _ => by rfl) s
  | bpl | bmi | bvc | bvs | bcc | bcs | bne | beq => exact branchIf_withD d _ _ s
  | nopu =>
    simp only [exec_nopu, nopCrossed_unseen (withD_unseen d)]
    rfl
  | pha | pla | jsr | rts =>
    simp only [exec_pha, exec_pla, exec_jsr, exec_rts]
    rfl
  | jmpInd p =>
    simp only [exec, execJmpInd, resolveIndirect, readPair_unseen (withD_unseen d)]
    exact andThen_onState fun _ _ => rfl
  | php | plp | rti | cld | sed => exact absurd (by decide) hi
  | tax | tay | txa | tya | tsx | txs | inx | iny | dex | dey | clc | sec | cli | sei | clv
  | nop | brk | jmp | unassigned => rfl

/-- An instruction that writes `P.D` does not see what it was. -/
theorem exec_withD_of_writer (d : Bool) {i : Instr} (hi : i ∈ [Instr.plp, .rti, .cld, .sed]) (s : State) :
    exec i (withD d s) = exec i s := by
  simp only [List.mem_cons, List.not_mem_nil, or_false] at hi
  rcases hi with rfl | rfl | rfl | rfl
  · rw [exec_plp, exec_plp]
    rfl
  · rw [exec_rti, exec_rti, returnFromInterrupt_eq, returnFromInterrupt_eq]
    rfl
  · rfl
  · rfl

/-- Settles O50: `exec_withD` for the instructions that leave `P.D`, `exec_withD_of_writer` for the others. -/
theorem decimalFlagHasNoEffect : Obligations.DecimalFlagHasNoEffect := by
  intro i s d
  refine ⟨fun hi => ⟨fun t h => ?_, fun f h => ?_⟩, fun hi => exec_withD_of_writer d hi s⟩
  · exact (exec_withD d hi s).trans (congrArg (onNext (withD d)) h)
  · exact (exec_withD d hi s).trans (congrArg (onNext (withD d)) h)

end Sys2Proof.Proofs
end

