-- ==== Sys2Proof/Proofs/Memory.lean ====
section
/-! The rules of 20_memory.md: the address map and its mirrors (section 3); what RAM and ROM read as (R57,
R64); how an access can fail and what it notes (R57, R60, R62), by one rule per operation; and which bytes an
instruction can change (R52). -/

namespace Sys2Proof.Proofs

open Sys2Proof.Machine

/-! ## Bytes of RAM and ROM -/

theorem peek_plain {s : State} {a : Addr} (h : classOf a ≠ .device) :
    s.peek a = some (s.mem.read (cellOf s.prgSize a)) := by
  unfold State.peek
  split
  · rfl
  · rfl
  · next hc => exact absurd hc h

theorem ne_device_of_ram {a : Addr} (h : classOf a = .ram) : classOf a ≠ .device := by
  rw [h]
  decide

theorem ne_device_of_rom {a : Addr} (h : classOf a = .rom) : classOf a ≠ .device := by
  rw [h]
  decide

/-- A byte whose cell holds the same in two states reads alike in both. -/
theorem peek_congr_cell {s t : State} {a : Addr}
    (hm : t.mem.read (cellOf s.prgSize a) = s.mem.read (cellOf s.prgSize a)) (hp : t.prgSize = s.prgSize) :
    t.peek a = s.peek a := by
  simp only [State.peek, hp, hm]

/-- Two addresses of one cell read alike. -/
theorem peek_eq_of_cellOf_eq {s : State} {a b : Addr} (ha : classOf a ≠ .device) (hb : classOf b ≠ .device)
    (h : cellOf s.prgSize a = cellOf s.prgSize b) : s.peek a = s.peek b := by
  rw [peek_plain ha, peek_plain hb, h]

/-- Reading at any address after a write to one cell of a canonical memory. -/
theorem peek_write {s : State} (hwf : s.mem.wf = true) (c : Nat) (v : Byte) {b : Addr}
    (hb : classOf b ≠ .device) :
    State.peek { s with mem := s.mem.write c v } b =
      if cellOf s.prgSize b = c then some v else s.peek b := by
  rw [peek_plain hb, peek_plain hb, Memory.read_write _ _ _ _ hwf]
  simp only [eq_comm (a := c), apply_ite some]

/-- Settles O19: `memRead_of_peek` and `memWrite_rom` are the laws of RAM and ROM, and the last clause is the
definition of the CPU's side of an access. -/
theorem plainReadsAndRomWrites : Obligations.PlainReadsAndRomWrites := by
  refine ⟨fun s a v => memRead_of_peek, fun s a h => ⟨_, peek_plain h⟩, fun s a v => memWrite_rom a v s, ?_⟩
  intro s a v
  constructor
  · rw [memRead]
    cases busRead a s <;> rfl
  · rw [memWrite]
    cases busWrite a v s <;> rfl

/-- Settles O18: the write is `memWrite_ram`, what reads back is `peek_write`. -/
theorem ramReturnsTheLastByteWritten : Obligations.RamReturnsTheLastByteWritten := by
  intro s a v hwf ha
  exact ⟨_, memWrite_ram a v s ha, rfl, fun b hb => peek_write hwf _ v hb⟩

/-! ## The address map -/

/-- An address that is no mirror of a lower one is its own cell (R56). -/
theorem cellOf_unmirrored {prg : PrgSize} {a : Addr} (ha : a.toNat < 0x800 ∨ 0x4020 ≤ a.toNat)
    (hprg : prg = .kib16 → a.toNat < 0xC000) : cellOf prg a = a.toNat := by
  rcases region_cases a with ⟨h, e⟩ | ⟨_, _, e⟩ | ⟨_, _, e⟩ | ⟨_, _, e⟩ | ⟨_, _, e⟩ | ⟨h, e⟩
  · rw [cellOf_wram prg a h]
    omega
  iterate 4 · simp only [cellOf, e]
  · cases prg with
    | kib16 =>
      have := hprg rfl
      simp only [cellOf, e]
      omega
    | kib32 => simp only [cellOf, e]

theorem classOf_unmirrored {a : Addr} (ha : a.toNat < 0x800 ∨ 0x4020 ≤ a.toNat) :
    classOf a ≠ .device := by
  rcases classOf_cases a with ⟨e, _⟩ | ⟨e, _⟩ | ⟨_, h⟩
  · exact ne_device_of_ram e
  · exact ne_device_of_rom e
  · omega

/-- The cell behind a 16 KiB PRG-ROM address (R56). -/
theorem cellOf_prgRom_kib16 {a : Addr} (h : 0x8000 ≤ a.toNat) :
    cellOf .kib16 a = 0x8000 + a.toNat % 0x4000 := by
  have e : region a = .prgRom := by grind [region]
  simp only [cellOf, e]

theorem peek_wram_mirror (s : State) {a : Addr} (h : a.toNat < 0x2000) :
    s.peek a = s.peek (a &&& 0x07FF) := by
  have hn : (a &&& 0x07FF).toNat = a.toNat % 0x800 :=
    (BitVec.toNat_and ..).trans (Nat.and_two_pow_sub_one_eq_mod a.toNat 11)
  have hm : (a &&& 0x07FF).toNat < 0x2000 := by omega
  refine peek_eq_of_cellOf_eq (ne_device_of_ram (classOf_wram _ h)) (ne_device_of_ram (classOf_wram _ hm)) ?_
  rw [cellOf_wram _ _ h, cellOf_wram _ _ hm, hn, Nat.mod_mod]

theorem peek_prgRom_mirror {s : State} (hs : s.prgSize = .kib16) {a : Addr} (h : 0xC000 ≤ a.toNat) :
    s.peek a = s.peek (a - 0x4000) := by
  have hn : (a - 0x4000).toNat = a.toNat - 0x4000 := by bv_omega
  have ha : 0x8000 ≤ a.toNat := by omega
  have hb : 0x8000 ≤ (a - 0x4000).toNat := by omega
  refine peek_eq_of_cellOf_eq (ne_device_of_rom (classOf_prgRom _ ha)) (ne_device_of_rom (classOf_prgRom _ hb)) ?_
  rw [hs, cellOf_prgRom_kib16 ha, cellOf_prgRom_kib16 hb, hn]
  omega

/-- Settles O17: the mirrors are one cell, and an address that is no mirror is its own cell
(`cellOf_unmirrored`), so that two of them are two cells. -/
theorem mirrorsReadTheSameByte : Obligations.MirrorsReadTheSameByte := by
  have distinct : ∀ (prg : PrgSize) (a b : Addr),
      (a.toNat < 0x800 ∨ 0x4020 ≤ a.toNat) → (b.toNat < 0x800 ∨ 0x4020 ≤ b.toNat) →
      (prg = .kib16 → a.toNat < 0xC000 ∧ b.toNat < 0xC000) → cellOf prg a = cellOf prg b → a = b := by
    intro prg a b ha hb hprg h
    rw [cellOf_unmirrored ha fun hk => (hprg hk).1, cellOf_unmirrored hb fun hk => (hprg hk).2] at h
    exact BitVec.eq_of_toNat_eq h
  refine ⟨fun s a => peek_wram_mirror s, fun s a hs => peek_prgRom_mirror hs, distinct, ?_⟩
  intro s a b v hwf ha hb hprg
  rw [poke_plain (classOf_unmirrored ha), peek_write hwf _ v (classOf_unmirrored hb)]
  refine if_congr ⟨fun h => (distinct _ b a hb ha (fun hk => (hprg hk).symm) h).symm, ?_⟩ rfl rfl
  rintro rfl
  rfl

/-! ## How an operation can fail, and what it notes -/

/-- A fault that is a bus error is `ReadOnly`, at an address that is not RAM (R57, R302, C12). -/
def ReadOnlyOffRam (f : Fault) : Prop :=
  ∀ kind a, f = .busError kind a → kind = .readOnly ∧ classOf a ≠ .ram

theorem readOnlyOffRam_busError {a : Addr} (h : classOf a ≠ .ram) :
    ReadOnlyOffRam (.busError .readOnly a) := by
  rintro _ _ ⟨⟩
  exact ⟨rfl, h⟩

theorem readOnlyOffRam_decodeError (opc : Byte) : ReadOnlyOffRam (.decodeError opc) :=
  fun _ _ h => nomatch h

/-- An operation begun in `s` fails by `ReadOnlyOffRam` alone, and else at most adds accesses to the device
log (R62). -/
def LoggedAccess {α : Type} (s : State) : Access α → Prop
  | .ok (_, t) => s.deviceLog <:+ t.deviceLog
  | .error f => ReadOnlyOffRam f

/-- The same of a meaning. -/
def LoggedOut (s : State) : Out → Prop
  | .next t => s.deviceLog <:+ t.deviceLog
  | .fault f => ReadOnlyOffRam f
  | .refused _ => True

theorem LoggedAccess.mono {α : Type} {s t : State} {r : Access α} (hr : LoggedAccess t r)
    (h : s.deviceLog <:+ t.deviceLog) : LoggedAccess s r := by
  cases r with
  | ok x => exact h.trans hr
  | error => exact hr

theorem LoggedOut.mono {s t : State} {o : Out} (ho : LoggedOut t o) (h : s.deviceLog <:+ t.deviceLog) :
    LoggedOut s o := by
  cases o with
  | next u => exact h.trans ho
  | fault => exact ho
  | refused => trivial

theorem LoggedAccess.chain {α β : Type} {s : State} {r : Access α} {k : α → State → Access β}
    (hr : LoggedAccess s r) (hk : ∀ v t, LoggedAccess t (k v t)) : LoggedAccess s (chain r k) := by
  rcases r with f | ⟨v, t⟩
  · exact hr
  · exact (hk v t).mono hr

theorem LoggedAccess.andThen {α : Type} {s : State} {r : Access α} {k : α → State → Out}
    (hr : LoggedAccess s r) (hk : ∀ v t, LoggedOut t (k v t)) : LoggedOut s (andThen r k) := by
  rcases r with f | ⟨v, t⟩
  · exact hr
  · exact (hk v t).mono hr

/-- What completes with the device log as it was is logged. -/
theorem LoggedOut.of_next {s t : State} {o : Out} (ho : o = .next t) (h : t.deviceLog = s.deviceLog) :
    LoggedOut s o := by
  rw [ho, LoggedOut, h]

theorem memRead_logged (a : Addr) (s : State) : LoggedAccess s (memRead a s) := by
  cases h : memRead a s with
  | ok x =>
    obtain ⟨b, t⟩ := x
    rcases memRead_next h with rfl | ⟨-, rfl⟩
    · exact List.suffix_rfl
    · exact List.suffix_cons ..
  | error f =>
    obtain ⟨hc, rfl⟩ := memRead_error h
    exact readOnlyOffRam_busError (by rw [hc]; decide)

theorem memWrite_logged (a : Addr) (v : Byte) (s : State) : LoggedAccess s (memWrite a v s) := by
  cases h : memWrite a v s with
  | ok x =>
    obtain ⟨u, t⟩ := x
    rcases memWrite_next h with ⟨-, rfl⟩ | ⟨-, rfl⟩
    · exact List.suffix_rfl
    · exact List.suffix_cons ..
  | error f =>
    obtain ⟨hc, rfl⟩ := memWrite_error h
    exact readOnlyOffRam_busError hc

theorem readPair_logged (lo hi : Addr) (s : State) : LoggedAccess s (readPair lo hi s) :=
  (memRead_logged lo s).chain fun _ s => (memRead_logged hi s).chain fun _ _ => List.suffix_rfl

theorem readSource_logged (o : Source) (s : State) : LoggedAccess s (readSource o s) := by
  cases o with
  | imm => exact List.suffix_rfl
  | mem f =>
    rw [readSource, readMem_eq]
    exact (memRead_logged _ s).chain fun _ _ => List.suffix_rfl

theorem modifyMem_logged (f : MemForm) {g : Byte → State → Byte × State}
    (hg : ∀ v s, (g v s).2.deviceLog = s.deviceLog) (s : State) :
    LoggedAccess s (modifyMem f g s) := by
  simp only [modifyMem, resolve_eq, chain_ok]
  refine (memRead_logged _ s).chain fun v t => LoggedAccess.chain ?_ fun _ _ => List.suffix_rfl
  refine (memWrite_logged _ _ (g v t).2).mono ?_
  rw [hg]

theorem fetchByte_logged (s : State) : LoggedAccess s (fetchByte s) :=
  (memRead_logged s.pc s).chain fun _ _ => List.suffix_rfl

theorem fetch_logged (s : State) : LoggedAccess s (fetch s) := by
  refine (fetchByte_logged s).chain fun opc s1 => ?_
  split
  · exact List.suffix_rfl
  · exact (fetchByte_logged s1).chain fun _ _ => List.suffix_rfl
  · exact (fetchByte_logged s1).chain fun _ s2 => (fetchByte_logged s2).chain fun _ _ => List.suffix_rfl

theorem readThen_logged (o : Source) {g : Byte → State → State}
    (hg : ∀ v s, (g v s).deviceLog = s.deviceLog) (s : State) : LoggedOut s (readThen o g s) :=
  (readSource_logged o s).andThen fun _ t => .of_next rfl (hg _ t)

theorem storeByte_logged (f : MemForm) (v : Byte) (s : State) : LoggedOut s (storeByte f v s) := by
  rw [storeByte, storeMem_eq]
  exact (memWrite_logged _ v s).andThen fun _ _ => .of_next rfl rfl

theorem modifyThen_logged (f : MemForm) {g : Byte → State → Byte × State} {k : Byte → State → State}
    (hg : ∀ v s, (g v s).2.deviceLog = s.deviceLog) (hk : ∀ r s, (k r s).deviceLog = s.deviceLog)
    (s : State) : LoggedOut s (modifyThen f g k s) :=
  (modifyMem_logged f hg s).andThen fun _ t => .of_next rfl (hk _ t)

theorem shiftBy_logged (tg : Target) {g : Byte → State → Byte × State}
    (hg : ∀ v s, (g v s).2.deviceLog = s.deviceLog) (s : State) : LoggedOut s (shiftBy g tg s) := by
  cases tg with
  | acc => exact .of_next rfl (hg s.a s)
  | mem f => exact modifyThen_logged f hg (k := fun r s => s.setNZ r) (fun _ _ => rfl) s

/-- No instruction raises a bus error other than `ReadOnly` off RAM, or takes an access out of the log. -/
theorem exec_logged (i : Instr) (s : State) : LoggedOut s (exec i s) := by
  cases i with
  | lda | ldx | ldy | lax | adc | sbc | sbcu | and | ora | eor | cmp | cpx | cpy | bit =>
    simp only [exec_lda, exec_ldx, exec_ldy, exec_lax, exec_adc, exec_sbc, exec_sbcu, exec_and, exec_ora,
      exec_eor, exec_cmp, exec_cpx, exec_cpy, exec_bit]
    exact readThen_logged _ (fun _ _ => by rfl) s
  | sta | stx | sty | sax => exact storeByte_logged _ _ s
  | inc | dec | dcp | isc | slo | rla | sre | rra =>
    simp only [exec_inc, exec_dec, exec_dcp, exec_isc, exec_slo, exec_rla, exec_sre, exec_rra]
    exact modifyThen_logged _ (fun _ _ => by rfl) (fun _ _ => by rfl) s
  | asl | lsr | rol | ror => exact shiftBy_logged _ (fun _ _ => by rfl) s
  | bpl | bmi | bvc | bvs | bcc | bcs | bne | beq => exact .of_next (branchIf_eq ..) rfl
  | jmpInd p => exact (readPair_logged ..).andThen fun _ _ => .of_next rfl rfl
  | pha => exact .of_next (exec_pha s) rfl
  | php => exact .of_next (exec_php s) rfl
  | pla => exact .of_next (exec_pla s) rfl
  | plp => exact .of_next (exec_plp s) rfl
  | jsr a => exact .of_next (exec_jsr a s) rfl
  | rts => exact .of_next (exec_rts s) rfl
  | rti => exact .of_next (returnFromInterrupt_eq s) rfl
  | nopu opc o => exact .of_next (exec_nopu opc o s) rfl
  | unassigned opc => exact readOnlyOffRam_decodeError opc
  | tax | tay | txa | tya | tsx | txs | inx | iny | dex | dey | clc | sec | cli | sei | clv | cld | sed
  | nop | brk | jmp => exact .of_next rfl rfl

theorem serve_logged (e : Event) (s : State) : LoggedOut s (e.serve s) := by
  cases e with
  | reset => exact .of_next (resetSequence_eq s) rfl
  | interrupt k => exact .of_next (interruptEntry_eq k s) rfl

theorem step_logged (s : State) : LoggedOut s (step s) := by
  cases he : pendingEvent s with
  | some e => exact step_of_event he ▸ serve_logged e s
  | none =>
    rw [step_of_none he]
    exact (fetch_logged s).andThen exec_logged

/-- Settles O16: the classes are `classOf_cases`, the faults `step_logged`. -/
theorem addressMapClasses : Obligations.AddressMapClasses := by
  constructor
  · intro a
    rcases classOf_cases a with ⟨e, h⟩ | ⟨e, h⟩ | ⟨e, h⟩ <;> grind
  · intro s kind a h
    have hs := step_logged s
    rw [h] at hs
    exact hs kind a rfl

/-! ## What no step changes -/

/-- Writes to RAM leave every byte of ROM: no RAM cell is a ROM cell (R57). -/
theorem RamWrites.read_rom {prg : PrgSize} {m m' : Memory} (h : RamWrites prg m m') {a : Addr}
    (ha : classOf a = .rom) : m'.read (cellOf prg a) = m.read (cellOf prg a) := by
  induction h with
  | none => rfl
  | write _ b v hb ih => rw [Memory.read_write_ne _ _ _ _ (cellOf_ram_ne_rom prg b a hb ha), ih]

/-- From `s` to `t`, memory changes by writes to RAM alone, and the cartridge and the inputs stay. -/
structure KeepsInputs (s t : State) : Prop where
  mem : RamWrites s.prgSize s.mem t.mem
  prgSize : t.prgSize = s.prgSize
  irqLine : t.irqLine = s.irqLine
  nmiPrev : t.nmiPrev = s.nmiPrev

theorem KeepsInputs.peek_rom {s t : State} (h : KeepsInputs s t) {a : Addr} (ha : classOf a = .rom) :
    t.peek a = s.peek a :=
  peek_congr_cell (h.mem.read_rom ha) h.prgSize

theorem exec_keepsInputs {i : Instr} {s t : State} (h : exec i s = .next t) : KeepsInputs s t := by
  obtain ⟨v, w, m, dl, n, hm, rfl⟩ := exec_next h
  obtain ⟨-, hprev, -, hirq⟩ := instrEffect_latches i v w s
  exact ⟨hm, instrEffect_prgSize i v w s, hirq, hprev⟩

theorem serve_keepsInputs {e : Event} {s t : State} (h : e.serve s = .next t) : KeepsInputs s t := by
  cases e with
  | reset =>
    cases (resetSequence_eq s).symm.trans h
    exact ⟨.none, rfl, rfl, rfl⟩
  | interrupt k =>
    cases (interruptEntry_eq k s).symm.trans h
    exact ⟨((RamWrites.none.push ..).push ..).push .., rfl, rfl, rfl⟩

theorem step_keepsInputs {s t : State} (h : step s = .next t) : KeepsInputs s t := by
  cases he : pendingEvent s with
  | some e => exact serve_keepsInputs (step_of_event he ▸ h)
  | none =>
    rw [step_of_none he] at h
    obtain ⟨i, s1, hf, hx⟩ := andThen_eq_next.1 h
    obtain ⟨opc, b1, b2, dl, -, rfl⟩ := fetch_ok hf
    obtain ⟨hm, hp, hirq, hprev⟩ := exec_keepsInputs hx
    exact ⟨hm, hp, hirq, hprev⟩

/-- Settles O20: `step_keepsInputs`, and `step_logged` for the device log. -/
theorem stepKeepsRomAndInputs : Obligations.StepKeepsRomAndInputs := by
  intro s t h
  have hk := step_keepsInputs h
  have hl := step_logged s
  rw [h] at hl
  obtain ⟨new, hnew⟩ := hl
  exact ⟨fun a => hk.peek_rom, hk.prgSize, hk.irqLine, hk.nmiPrev, new, hnew.symm⟩

/-! ## Which bytes an instruction changes -/

theorem exec_prgSize {i : Instr} {s t : State} (h : exec i s = .next t) : t.prgSize = s.prgSize :=
  (exec_keepsInputs h).prgSize

/-- An instruction that does not store to its operand or push leaves memory (R52). -/
theorem exec_mem_of_nonStore {i : Instr} {m : Mnemonic} {s t : State} (hi : i.mnemonic = some m)
    (hm : m ∉ [Mnemonic.STA, .STX, .STY, .SAX, .INC, .DEC, .ASL, .LSR, .ROL, .ROR, .SLO, .RLA, .SRE, .RRA, .DCP,
      .ISC, .PHA, .PHP, .JSR]) (h : exec i s = .next t) : t.mem = s.mem := by
  cases i with
  | sta | stx | sty | sax | inc | dec | asl | lsr | rol | ror | slo | rla | sre | rra | dcp | isc | pha | php
  | jsr => cases hi; exact absurd (by decide) hm
  | lda | ldx | ldy | lax | adc | sbc | sbcu | and | ora | eor | cmp | cpx | cpy | bit =>
    simp only [exec_lda, exec_ldx, exec_ldy, exec_lax, exec_adc, exec_sbc, exec_sbcu, exec_and, exec_ora,
      exec_eor, exec_cmp, exec_cpx, exec_cpy, exec_bit] at h
    obtain ⟨v, dl, -, rfl⟩ := readThen_next h
    rfl
  | bpl | bmi | bvc | bvs | bcc | bcs | bne | beq =>
    cases (branchIf_eq ..).symm.trans h
    rfl
  | pla | plp | rts =>
    simp only [exec_pla, exec_plp, exec_rts] at h
    cases h
    rfl
  | rti =>
    cases (returnFromInterrupt_eq s).symm.trans h
    rfl
  | jmpInd p =>
    obtain ⟨w, s1, h1, h2⟩ := andThen_eq_next.1 h
    rw [readPair_next h1] at h2
    cases h2
    rfl
  | nopu =>
    cases (exec_nopu ..).symm.trans h
    rfl
  | unassigned => cases h
  | tax | tay | txa | tya | tsx | txs | inx | iny | dex | dey | clc | sec | cli | sei | clv | cld | sed
  | nop | brk | jmp =>
    cases h
    rfl

theorem exec_mem_of_accumulator_shift {i : Instr} {s t : State}
    (hi : i ∈ [Instr.asl .acc, .lsr .acc, .rol .acc, .ror .acc]) (h : exec i s = .next t) :
    t.mem = s.mem := by
  simp only [List.mem_cons, List.not_mem_nil, or_false] at hi
  rcases hi with rfl | rfl | rfl | rfl <;> cases h <;> rfl

/-- Settles O55: memory is the same list, and so every byte is. -/
theorem memoryFrameOfNonStores : Obligations.MemoryFrameOfNonStores := by
  intro i m s t hi h
  exact ⟨fun hm => peek_congr (exec_mem_of_nonStore hi hm h) (exec_prgSize h),
    fun hacc => peek_congr (exec_mem_of_accumulator_shift hacc h) (exec_prgSize h)⟩

/-- A write to RAM or to a device that succeeded changes no byte but the one at its address. -/
theorem sameMemoryBut_of_writtenAt {s t : State} {ea : Addr} {v : Byte}
    (hw : WrittenAt s.prgSize ea v s.mem t.mem) (hp : t.prgSize = s.prgSize) : SameMemoryBut ea s t := by
  intro a ha
  obtain ⟨-, hm⟩ | ⟨-, hm⟩ := hw
  · exact peek_write_ne hm hp a ha
  · exact peek_congr hm hp a

theorem storeByte_sameMemoryBut {f : MemForm} {v : Byte} {s t : State} (h : storeByte f v s = .next t) :
    SameMemoryBut (effectiveOf f s).ea s t := by
  obtain ⟨m, dl, rfl, hw⟩ := storeByte_next h
  exact sameMemoryBut_of_writtenAt hw rfl

theorem modifyThen_sameMemoryBut {f : MemForm} {g : Byte → State → Byte × State} {k : Byte → State → State}
    (hg : FlagsOnly g) (hmem : ∀ r s, (k r s).mem = s.mem) (hprg : ∀ r s, (k r s).prgSize = s.prgSize)
    {s t : State} (h : modifyThen f g k s = .next t) : SameMemoryBut (effectiveOf f s).ea s t := by
  obtain ⟨v, m, dl, ht, hw⟩ := modifyThen_next hg h
  have hm : t.mem = m := ht ▸ hmem _ _
  exact sameMemoryBut_of_writtenAt (hm ▸ hw) (ht ▸ hprg _ _)

/-- Settles O56: the four stores are `storeByte`, the twelve others `modifyThen`, and each of these has its
frame. -/
theorem memoryFrameOfStores : Obligations.MemoryFrameOfStores := by
  intro f i s s1 t e hi he h
  cases (resolve_eq f s).symm.trans he
  simp only [List.mem_cons, List.not_mem_nil, or_false] at hi
  rcases hi with rfl | rfl | rfl | rfl | rfl | rfl | rfl | rfl | rfl | rfl | rfl | rfl | rfl | rfl | rfl | rfl
  iterate 4 exact storeByte_sameMemoryBut h
  all_goals
    simp only [exec_inc, exec_dec, exec_asl_mem, exec_lsr_mem, exec_rol_mem, exec_ror_mem, exec_slo, exec_rla,
      exec_sre, exec_rra, exec_dcp, exec_isc] at h
    exact modifyThen_sameMemoryBut (by simp only [increment_flagsOnly, decrement_flagsOnly,
      shiftLeft_flagsOnly, rotateLeft_flagsOnly, shiftRight_flagsOnly, rotateRight_flagsOnly])
      (fun _ _ => by rfl) (fun _ _ => by rfl) h

/-- Settles O57: each push is a write to the cell of its stack address (`exec_pha`, `exec_php`, `exec_jsr`). -/
theorem memoryFrameOfPushes : Obligations.MemoryFrameOfPushes := by
  intro s t a c
  rw [cellOf_stackAddr, cellOf_stackAddr]
  constructor
  · rintro (h | h) hc
    · cases (exec_pha s).symm.trans h
      exact peek_congr_cell (Memory.read_write_ne _ _ _ _ hc.symm) rfl
    · cases (exec_php s).symm.trans h
      exact peek_congr_cell (Memory.read_write_ne _ _ _ _ hc.symm) rfl
  · intro h hhi hlo
    cases (exec_jsr a s).symm.trans h
    exact peek_congr_cell ((Memory.read_write_ne _ _ _ _ hlo.symm).trans
      (Memory.read_write_ne _ _ _ _ hhi.symm)) rfl

end Sys2Proof.Proofs
end

section
/-! The rules of 30_encoding.md: decoding and encoding are inverse to each other (R80 to R83, R100, R109), the
counts of the Opcode Table (R99, R108), and what each memory operand form delivers (R87 to R95). -/

namespace Sys2Proof.Proofs

open Sys2Proof.Machine

/-! ## Decoding, in terms of the matrix -/

theorem operandCount_le_two (opc : Byte) : operandCount opc ≤ 2 := by
  unfold operandCount
  cases (instrOf opc 0 0).mode <;> decide

/-- Decoding takes as many operand bytes as the opcode has and leaves the rest; an operand byte that the
opcode does not have is not looked at, and 0 stands for it (R80, R82). -/
theorem decode_eq_ok_iff {bs rest : List Byte} {i : Instr} :
    decode bs = .ok (i, rest) ↔ ∃ opc ops, ops.length = operandCount opc ∧ bs = opc :: (ops ++ rest) ∧
      i = instrOf opc (ops.getD 0 0) (ops.getD 1 0) := by
  constructor
  · intro h
    cases bs with
    | nil => cases h
    | cons opc tail =>
      rw [decode_cons] at h
      split at h
      · next h0 => cases h; exact ⟨opc, [], h0.symm, rfl, rfl⟩
      · next h1 => cases h; exact ⟨opc, [_], h1.symm, rfl, rfl⟩
      · next h2 => cases h; exact ⟨opc, [_, _], h2.symm, rfl, rfl⟩
      · cases h
  · rintro ⟨opc, ops, hlen, rfl, rfl⟩
    have hle : ops.length ≤ 2 := hlen ▸ operandCount_le_two opc
    rw [decode_cons, ← hlen]
    match ops, hle with
    | [], _ | [_], _ | [_, _], _ => rfl

/-! ## The encoder read off the matrix -/

/-- The encoder's opcode for what a cell of the matrix gives is that cell's number. -/
theorem opcode_instrOf (opc b1 b2 : Byte) : (instrOf opc b1 b2).opcode = some opc := by
  have hzero : ∀ opc : Byte, (instrOf opc 0 0).opcode = some opc := by decide
  rw [(uniformCell_instrOf opc).opcode, hzero]

theorem operandBytes_instrOf (opc b1 b2 : Byte) :
    (instrOf opc b1 b2).operandBytes = [b1, b2].take (operandCount opc) :=
  (uniformCell_instrOf opc).bytes b1 b2

theorem operandBytes_length_instrOf (opc b1 b2 : Byte) :
    (instrOf opc b1 b2).operandBytes.length = operandCount opc := by
  rw [operandBytes_instrOf, List.length_take]
  exact Nat.min_eq_left (operandCount_le_two opc)

/-- The operand bytes that a cell was given, as many as its opcode has, are those of what it gives. -/
theorem operandBytes_instrOf_getD (opc : Byte) {ops : List Byte} (hlen : ops.length = operandCount opc) :
    (instrOf opc (ops.getD 0 0) (ops.getD 1 0)).operandBytes = ops := by
  have hle : ops.length ≤ 2 := hlen ▸ operandCount_le_two opc
  rw [operandBytes_instrOf, ← hlen]
  match ops, hle with
  | [], _ | [_], _ | [_, _], _ => rfl

/-- Settles O2: what decodes is a cell of the matrix on its operand bytes (`decode_eq_ok_iff`), whose opcode and
operand bytes the encoder gives back. -/
theorem encodeAfterDecode : Obligations.EncodeAfterDecode := by
  intro bs rest i h
  obtain ⟨opc, ops, hlen, rfl, rfl⟩ := decode_eq_ok_iff.1 h
  refine ⟨instrOf_wf _ _ _, opc :: ops, ?_, rfl, ?_⟩
  · rw [encode, opcode_instrOf, operandBytes_instrOf_getD opc hlen, Option.map_some]
  · rw [instrOf_length, List.length_cons, hlen, Nat.add_comm]

/-! ## The matrix read off the encoder -/

/-- The cell that gives the instruction `k` of a memory form. -/
def formCell (f : MemForm) (k : MemForm → Instr) : Cell :=
  match f with
  | .zp _ => OpMap.zp k
  | .zpx _ => OpMap.zpx k
  | .zpy _ => OpMap.zpy k
  | .abs _ => OpMap.abs k
  | .abx _ => OpMap.abx k
  | .aby _ => OpMap.aby k
  | .izx _ => OpMap.izx k
  | .izy _ => OpMap.izy k

theorem formCell_bytes (f : MemForm) (k : MemForm → Instr) :
    formCell f k (f.bytes.getD 0 0) (f.bytes.getD 1 0) = k f := by
  cases f with
  | abs a => exact congrArg (fun a => k (.abs a)) (addrOf_lo_hi a)
  | abx a => exact congrArg (fun a => k (.abx a)) (addrOf_lo_hi a)
  | aby a => exact congrArg (fun a => k (.aby a)) (addrOf_lo_hi a)
  | zp | zpx | zpy | izx | izy => rfl

/-- The instruction `i` is what the matrix gives for the opcode on the operand bytes of `i`. -/
def GivenBy (i : Instr) (opc : Byte) : Prop :=
  instrOf opc (i.operandBytes.getD 0 0) (i.operandBytes.getD 1 0) = i

/-- The matrix has the instructions `k` of the memory forms where the operand table `c` of the encoder says. -/
def InMatrix (c : FormCodes) (k : MemForm → Instr) : Prop :=
  ∀ (f : MemForm) (opc : Byte), c.pick f = some opc → instrOf opc = formCell f k

theorem InMatrix.givenBy {c : FormCodes} {k : MemForm → Instr} (hc : InMatrix c k)
    (hk : ∀ f, (k f).operandBytes = f.bytes) {f : MemForm} {opc : Byte} (h : c.pick f = some opc) :
    GivenBy (k f) opc := by
  rw [GivenBy, hk, hc f opc h, formCell_bytes]

theorem givenBy_of_sourceCode {c : FormCodes} {k : Source → Instr} {immCode : Byte}
    (himm : instrOf immCode = OpMap.imm k) (hc : InMatrix c (OpMap.src k))
    (hk : ∀ o, (k o).operandBytes = o.bytes) {o : Source} {opc : Byte} (h : o.code immCode c = some opc) :
    GivenBy (k o) opc := by
  cases o with
  | imm b1 =>
    cases h
    rw [GivenBy, hk, himm]
    rfl
  | mem f => exact hc.givenBy (fun f => hk (.mem f)) h

theorem givenBy_of_targetCode {c : FormCodes} {k : Target → Instr} {accCode : Byte}
    (hacc : instrOf accCode = OpMap.acc k) (hc : InMatrix c (OpMap.tgt k))
    (hk : ∀ t, (k t).operandBytes = t.bytes) {t : Target} {opc : Byte} (h : t.code accCode c = some opc) :
    GivenBy (k t) opc := by
  cases t with
  | acc =>
    cases h
    rw [GivenBy, hacc]
    rfl
  | mem f => exact hc.givenBy (fun f => hk (.mem f)) h

/-- Each opcode byte of R105 has the undocumented `NOP` of its form in the matrix. -/
theorem nopBytes_inMatrix (f : MemForm) :
    ∀ opc ∈ nopBytes f.mode, instrOf opc = formCell f (OpMap.src (OpMap.nopu opc)) := by
  cases f <;>
    simp only [MemForm.mode, nopBytes, List.forall_mem_cons, List.not_mem_nil, false_imp_iff, implies_true,
      and_true]
  case zp | zpx | abs | abx => and_intros <;> rfl

theorem nopu_givenBy {opc : Byte} {o : NopOperand} (h : opc ∈ nopBytes o.mode) :
    GivenBy (.nopu opc o) opc := by
  match o with
  | .imp =>
    have hcell : ∀ opc ∈ nopBytes .imp, instrOf opc 0 0 = .nopu opc .imp := by decide
    exact hcell opc h
  | .src (.imm b1) =>
    have hcell : ∀ opc ∈ nopBytes .imm, instrOf opc = OpMap.imm (OpMap.nopu opc) := by
      simp only [nopBytes, List.forall_mem_cons, List.not_mem_nil, false_imp_iff, implies_true, and_true]
      and_intros <;> rfl
    exact congrFun (congrFun (hcell opc h) b1) 0
  | .src (.mem f) =>
    rw [GivenBy, nopBytes_inMatrix f opc h]
    exact formCell_bytes f _

theorem unassigned_givenBy {opc : Byte} (h : opc ∈ unassignedBytes) : GivenBy (.unassigned opc) opc := by
  have hcell : ∀ opc ∈ unassignedBytes, instrOf opc 0 0 = .unassigned opc := by decide
  exact hcell opc h

/-- Every instruction with an opcode is what the matrix gives for that opcode on the instruction's operand
bytes. An operand table of the encoder is compared with the matrix form by form: a form the table has names the
cell of that form, a form it has not has no opcode. -/
theorem givenBy_of_opcode {i : Instr} {opc : Byte} (h : i.opcode = some opc) : GivenBy i opc := by
  cases i with
  | lda | ldx | ldy | adc | sbc | and | ora | eor | cmp | cpx | cpy =>
    exact givenBy_of_sourceCode rfl (by rintro (_ | _ | _ | _ | _ | _ | _ | _) _ ⟨⟩ <;> rfl) (fun _ => rfl) h
  | asl | lsr | rol | ror =>
    exact givenBy_of_targetCode rfl (by rintro (_ | _ | _ | _ | _ | _ | _ | _) _ ⟨⟩ <;> rfl) (fun _ => rfl) h
  | sta | stx | sty | bit | inc | dec | lax | sax | slo | rla | sre | rra | dcp | isc =>
    exact InMatrix.givenBy (by rintro (_ | _ | _ | _ | _ | _ | _ | _) _ ⟨⟩ <;> rfl) (fun _ => rfl) h
  | jmp a => cases h; exact congrArg Instr.jmp (addrOf_lo_hi a)
  | jmpInd a => cases h; exact congrArg Instr.jmpInd (addrOf_lo_hi a)
  | jsr a => cases h; exact congrArg Instr.jsr (addrOf_lo_hi a)
  | nopu opc' o =>
    obtain ⟨hmem, ⟨⟩⟩ := Option.ite_none_right_eq_some.1 h
    exact nopu_givenBy hmem
  | unassigned opc' =>
    obtain ⟨hmem, ⟨⟩⟩ := Option.ite_none_right_eq_some.1 h
    exact unassigned_givenBy hmem
  | tax | tay | txa | tya | tsx | txs | pha | php | pla | plp | inx | iny | dex | dey | rts
  | bpl | bmi | bvc | bvs | bcc | bcs | bne | beq
  | clc | sec | cli | sei | clv | cld | sed | nop | brk | rti | sbcu => cases h; rfl

/-! ## Every well-formed instruction has an opcode -/

theorem wf_eq_isSome_opcode (i : Instr) : i.wf = i.opcode.isSome := by
  cases i with
  | lda o | ldx o | ldy o | adc o | sbc o | and o | ora o | eor o | cmp o | cpx o | cpy o =>
    cases o with
    | imm => rfl
    | mem f => cases f <;> rfl
  | asl t | lsr t | rol t | ror t =>
    cases t with
    | acc => rfl
    | mem f => cases f <;> rfl
  | sta f | stx f | sty f | bit f | inc f | dec f | lax f | sax f | slo f | rla f | sre f | rra f | dcp f
  | isc f => cases f <;> rfl
  | nopu opc o => exact Bool.eq_iff_iff.2 (decide_eq_true_iff.trans Option.isSome_ite.symm)
  | unassigned opc => exact Bool.eq_iff_iff.2 (decide_eq_true_iff.trans Option.isSome_ite.symm)
  | _ => rfl

/-- Settles O1: the instruction has an opcode (`wf_eq_isSome_opcode`) and is what the matrix gives for it on the
encoded operand bytes (`givenBy_of_opcode`). -/
theorem decodeAfterEncode : Obligations.DecodeAfterEncode := by
  intro i rest hwf
  obtain ⟨opc, hopc⟩ := Option.isSome_iff_exists.1 ((wf_eq_isSome_opcode i).symm.trans hwf)
  have hi : instrOf opc (i.operandBytes.getD 0 0) (i.operandBytes.getD 1 0) = i := givenBy_of_opcode hopc
  have hlen : i.operandBytes.length = operandCount opc := by
    rw [← operandBytes_length_instrOf opc (i.operandBytes.getD 0 0) (i.operandBytes.getD 1 0), hi]
  exact ⟨opc :: i.operandBytes, by rw [encode, hopc, Option.map_some],
    decode_eq_ok_iff.2 ⟨opc, i.operandBytes, hlen, rfl, hi.symm⟩⟩

/-! ## The Opcode Table -/

/-- Settles O3: a closed statement, so each count is evaluated over the 256 cells of the matrix (the membership
is the spec's decision D12). -/
theorem opcodeTableCounts : Obligations.OpcodeTableCounts := by
  refine ⟨?entries, ?documented, ?undocumented, ?unlisted⟩
  case entries => decide +kernel
  case documented => decide +kernel
  case undocumented => decide +kernel
  case unlisted => decide +kernel

/-! ## Operand forms -/

/-- A byte of the zero page is RAM, in its own cell (R56). -/
theorem peek_zext16 (s : State) (v : Byte) : s.peek (zext16 v) = some (s.mem.read v.toNat) := by
  have hram : classOf (zext16 v) ≠ .device := ne_device_of_ram (classOf_zext16 v)
  rw [peek_plain hram, cellOf_zext16]

/-- Settles O22: every form resolves to `effectiveOf` in the same state (`resolve_eq`), and the bytes of a pointer
are those of the zero page. -/
theorem operandFormsResolve : Obligations.OperandFormsResolve := by
  intro b1 a s
  refine ⟨resolve_eq (.zp b1) s, resolve_eq (.zpx b1) s, resolve_eq (.zpy b1) s, resolve_eq (.abs a) s,
    resolve_eq (.abx a) s, resolve_eq (.aby a) s, ?izx, ?izy⟩
  case izx => exact ⟨_, _, peek_zext16 s _, peek_zext16 s _, resolve_eq (.izx b1) s⟩
  case izy => exact ⟨_, _, peek_zext16 s _, peek_zext16 s _, resolve_eq (.izy b1) s⟩

end Sys2Proof.Proofs
end

section
/-! The rules of 40_load_store_transfer.md: the shared laws of operand reads, stores and implied instructions,
and with them the loads (R120 to R122, R200), the stores (R123 to R125, R201) and the transfers (R126 to R131). -/

namespace Sys2Proof.Proofs

open Sys2Proof.Machine Sys2Proof.Claims

/-! ## Encodings written out in the spec -/

/-- Settles O4: closed strings, so the decoder is evaluated on each. -/
theorem specBytesDecode : Obligations.SpecBytesDecode :=
  ⟨rfl, rfl, rfl, rfl, rfl, rfl, rfl, rfl, rfl, rfl⟩

/-! ## Loads -/

/-- With `resolve_eq`: whatever a form resolves to is `effectiveOf`, in the same state. -/
theorem eq_of_resolve {f : MemForm} {s s1 : State} {e : Effective} (h : resolve f s = .ok (e, s1)) :
    e = effectiveOf f s ∧ s1 = s := by
  cases (resolve_eq f s).symm.trans h
  exact ⟨rfl, rfl⟩

/-- An instruction with a memory operand is one read of the effective address, then its operation (R118). -/
theorem readThen_mem (f : MemForm) (g : Byte → State → State) (s : State) :
    readThen (.mem f) g s = andThen (memRead (effectiveOf f s).ea s) fun v t =>
      done (f.readCycles + (effectiveOf f s).crossed.toNat) (g v t) := by
  rw [readThen, readSource, readMem_eq]
  cases memRead (effectiveOf f s).ea s <;> rfl

/-- An instruction of the shape `readThen` meets the law of operand reads: RAM and ROM answer their byte, and a
device's answer decides. -/
theorem memReadLaw_of_readThen {mk : MemForm → Instr} {k : Byte → State → State}
    (hexec : ∀ f s, exec (mk f) s = readThen (.mem f) k s) : MemReadLaw mk k := by
  refine ⟨?plain, ?device⟩
  case plain =>
    intro f s s1 e v hres hv
    obtain ⟨rfl, rfl⟩ := eq_of_resolve hres
    rw [hexec, readThen_mem, memRead_of_peek hv]
    rfl
  case device =>
    intro f s s1 e hres hdev
    obtain ⟨rfl, rfl⟩ := eq_of_resolve hres
    rw [hexec, readThen_mem, memRead_device _ _ hdev]
    cases Config.deviceRead s1.deviceLog (effectiveOf f s1).ea <;> rfl

/-- The same with the immediate form, whose byte is the operand itself (R86). -/
theorem readLaw_of_readThen {mk : Source → Instr} {k : Byte → State → State}
    (hexec : ∀ o s, exec (mk o) s = readThen o k s) : ReadLaw mk k :=
  ⟨fun b s => hexec (.imm b) s, memReadLaw_of_readThen fun f s => hexec (.mem f) s⟩

/-- Settles O24: each load is `readThen` with its register and `SetNZ`. -/
theorem loadsSetRegisterAndFlags : Obligations.LoadsSetRegisterAndFlags :=
  ⟨readLaw_of_readThen exec_lda, readLaw_of_readThen exec_ldx, readLaw_of_readThen exec_ldy,
    memReadLaw_of_readThen exec_lax⟩

/-! ## Stores -/

/-- An instruction of the shape `storeByte` meets the law of stores: what the one write does is decided by the
class of the effective address (R57). -/
theorem storeLaw_of_storeByte {mk : MemForm → Instr} {v : State → Byte}
    (hexec : ∀ f s, exec (mk f) s = storeByte f (v s) s) : StoreLaw mk v := by
  intro f s s1 e hres
  obtain ⟨rfl, rfl⟩ := eq_of_resolve hres
  rw [hexec, storeByte, storeMem_eq]
  refine ⟨?ram, ?rom, ?device⟩
  case ram =>
    intro hram
    rw [memWrite_ram _ _ _ hram]
    rfl
  case rom =>
    intro hrom
    rw [memWrite_rom _ _ _ hrom]
    rfl
  case device =>
    intro hdev
    rw [memWrite_device _ _ _ hdev]
    cases Config.deviceWrite s1.deviceLog (effectiveOf f s1).ea (v s1) <;> rfl

/-- Settles O25: each store is `storeByte` of its register. -/
theorem storesWriteTheirRegister : Obligations.StoresWriteTheirRegister :=
  ⟨storeLaw_of_storeByte exec_sta, storeLaw_of_storeByte exec_stx, storeLaw_of_storeByte exec_sty,
    storeLaw_of_storeByte exec_sax⟩

/-! ## Transfers -/

/-- An instruction without operand bytes whose meaning is `done 2` of its operation. -/
theorem impliedLaw_of_done {i : Instr} {opc : Byte} {k : State → State} (hopc : i.opcode = some opc)
    (hops : i.operandBytes = []) (hexec : ∀ s, exec i s = done 2 (k s)) : ImpliedLaw i opc k :=
  ⟨by rw [encode, hopc, hops, Option.map_some], hexec⟩

theorem exec_tax (s : State) : exec .tax s = done 2 (State.setNZ { s with x := s.a } s.a) := rfl
theorem exec_tay (s : State) : exec .tay s = done 2 (State.setNZ { s with y := s.a } s.a) := rfl
theorem exec_txa (s : State) : exec .txa s = done 2 (State.setNZ { s with a := s.x } s.x) := rfl
theorem exec_tya (s : State) : exec .tya s = done 2 (State.setNZ { s with a := s.y } s.y) := rfl
theorem exec_tsx (s : State) : exec .tsx s = done 2 (State.setNZ { s with x := s.sp } s.sp) := rfl
theorem exec_txs (s : State) : exec .txs s = done 2 { s with sp := s.x } := rfl

/-- Settles O26: each transfer has its opcode and no operand byte, and is `done 2` of its copy. -/
theorem transfersCopyRegisters : Obligations.TransfersCopyRegisters :=
  ⟨impliedLaw_of_done rfl rfl exec_tax, impliedLaw_of_done rfl rfl exec_tay,
    impliedLaw_of_done rfl rfl exec_txa, impliedLaw_of_done rfl rfl exec_tya,
    impliedLaw_of_done rfl rfl exec_tsx, impliedLaw_of_done rfl rfl exec_txs⟩

end Sys2Proof.Proofs
end

section
/-! The rules of 41_stack.md: `PHA`, `PHP`, `PLA` and `PLP` (R135 to R138). -/

namespace Sys2Proof.Proofs

open Sys2Proof.Machine Sys2Proof.Claims

/-- The byte the next `Pop` returns is the one above `S` in the stack page (R11). -/
theorem stackByte_zero (s : State) : stackByte s 0 = s.mem.read (0x100 + (s.sp + 1).toNat) := rfl

/-- Settles O27: the closed forms of the two pushes are those of the statement; the two pulls take the popped
byte (`stackByte_zero`), `PLA` through `SetNZ` and `PLP` through `Unpack`, flag by flag. -/
theorem stackInstructions : Obligations.StackInstructions := by
  intro s
  refine ⟨exec_pha s, exec_php s, ?pla, ?plp⟩
  case pla =>
    rw [exec_pla, stackByte_zero]
    rfl
  case plp =>
    rw [exec_plp, stackByte_zero]
    rfl

end Sys2Proof.Proofs
end

section
/-! The rules of 42_arithmetic_logic.md: the three helpers (R156 to R158), the instructions that read an operand
(R139 to R148, R210), `INC` and `DEC` with the shared law of a read-modify-write (R149, R150), and the register
forms (R151 to R154). -/

namespace Sys2Proof.Proofs

open Sys2Proof.Machine Sys2Proof.Claims

/-! ## Bytes as signed and unsigned numbers -/

theorem bit7_eq_decide (v : Byte) : bit7 v = decide (128 ≤ v.toNat) :=
  (BitVec.msb_eq_getLsbD_last v).symm.trans (BitVec.msb_eq_decide v)

theorem bit7_and (v w : Byte) : bit7 (v &&& w) = (bit7 v && bit7 w) := BitVec.getLsbD_and

theorem bit7_xor (v w : Byte) : bit7 (v ^^^ w) = (bit7 v ^^ bit7 w) := BitVec.getLsbD_xor

theorem bit7_not (v : Byte) : bit7 (~~~v) = !bit7 v := BitVec.getLsbD_not.trans (Bool.true_and _)

theorem toNat_not_byte (v : Byte) : (~~~v).toNat = 255 - v.toNat := BitVec.toNat_not

/-- A byte is its signed value, plus 256 where that is negative. -/
theorem toInt_eq_toNat_or (v : Byte) :
    (v.toNat < 128 ∧ v.toInt = v.toNat) ∨ (128 ≤ v.toNat ∧ v.toInt = (v.toNat : Int) - 256) := by
  have hv := BitVec.toInt_eq_toNat_cond v
  split at hv
  · exact .inl ⟨by omega, hv⟩
  · exact .inr ⟨by omega, hv⟩

/-- The complement as a signed byte: `-1 - v`, with no wrap. -/
theorem toInt_not_byte (v : Byte) : (~~~v).toInt = -1 - v.toInt := by
  have hnot := toNat_not_byte v
  have hlt := v.isLt
  have hv := toInt_eq_toNat_or v
  have hw := toInt_eq_toNat_or (~~~v)
  omega

/-- A wrapped sum has the wrong sign exactly when the signed sum is out of range. -/
theorem signs_iff_out_of_range {a m r : Byte} {c : Bool}
    (hr : r.toNat = (a.toNat + m.toNat + c.toNat) % 256) :
    (bit7 a = bit7 m ∧ bit7 r ≠ bit7 a) ↔
      a.toInt + m.toInt + c.toNat < -128 ∨ 127 < a.toInt + m.toInt + c.toNat := by
  have hc := c.toNat_le
  have ha := toInt_eq_toNat_or a
  have hm := toInt_eq_toNat_or m
  simp only [bit7_eq_decide, ne_eq, decide_eq_decide]
  omega

/-! ## `AddWithCarry` -/

theorem addWithCarry_a_toNat (m : Byte) (s : State) :
    (addWithCarry m s).a.toNat = (s.a.toNat + m.toNat + s.p.c.toNat) % 256 :=
  BitVec.toNat_ofNat _ _

/-- `P.V` as R156 computes it, from three sign bits: the operands agree and the result differs. -/
theorem addWithCarry_v_iff (m : Byte) (s : State) :
    (addWithCarry m s).p.v = true ↔ bit7 s.a = bit7 m ∧ bit7 (addWithCarry m s).a ≠ bit7 s.a := by
  have hv : (addWithCarry m s).p.v =
      bit7 ((s.a ^^^ (addWithCarry m s).a) &&& (m ^^^ (addWithCarry m s).a)) := rfl
  rw [hv, bit7_and, bit7_xor, bit7_xor]
  generalize bit7 s.a = a7, bit7 m = m7, bit7 (addWithCarry m s).a = r7
  revert a7 m7 r7
  decide

/-- Settles O30: the sum is a number modulo 256, so the sign bits of `addWithCarry_v_iff` say whether the signed
sum fits (`signs_iff_out_of_range`). -/
theorem addWithCarryResult : Obligations.AddWithCarryResult := by
  rintro m s t rfl
  have hv := addWithCarry_v_iff m s
  exact ⟨addWithCarry_a_toNat m s, rfl, decide_eq_true_iff, hv,
    hv.trans (signs_iff_out_of_range (addWithCarry_a_toNat m s)), rfl, beq_iff_eq⟩

/-! ## `SubWithBorrow` -/

/-- The two results are one byte, since `A - m - (1 - C)` and `A + (255 - m) + C` differ by 256. -/
theorem subWithBorrow_a (m : Byte) (s : State) : (subWithBorrow m s).a = (addWithCarry (~~~m) s).a := by
  have hlt := m.isLt
  have hsub : (subWithBorrow m s).a.toNat =
      (((s.a.toNat : Int) - m.toNat - (1 - s.p.c.toNat)) % 256).toNat := BitVec.toNat_ofInt _
  apply BitVec.eq_of_toNat_eq
  rw [hsub, addWithCarry_a_toNat, toNat_not_byte]
  omega

theorem subWithBorrow_c (m : Byte) (s : State) : (subWithBorrow m s).p.c = (addWithCarry (~~~m) s).p.c := by
  have hlt := m.isLt
  have hiff : (0 : Int) ≤ (s.a.toNat : Int) - m.toNat - (1 - s.p.c.toNat) ↔
      0xFF < s.a.toNat + (~~~m).toNat + s.p.c.toNat := by
    rw [toNat_not_byte]
    omega
  exact decide_eq_decide.2 hiff

/-- Where the signs of `A` and `m` differ, a result with the sign of `m` is one without that of `A`: so R157's
test is R156's on the complement. -/
theorem subWithBorrow_v (m : Byte) (s : State) : (subWithBorrow m s).p.v = (addWithCarry (~~~m) s).p.v := by
  have hsub : (subWithBorrow m s).p.v = bit7 ((s.a ^^^ m) &&& (s.a ^^^ (subWithBorrow m s).a)) := rfl
  rw [Bool.eq_iff_iff, addWithCarry_v_iff, hsub, subWithBorrow_a, bit7_and, bit7_xor, bit7_xor, bit7_not]
  generalize bit7 s.a = a7, bit7 m = m7, bit7 (addWithCarry (~~~m) s).a = r7
  revert a7 m7 r7
  decide

/-- A subtraction is an addition of the complement (R157 against R156). -/
theorem subWithBorrow_eq_addWithCarry_not (m : Byte) (s : State) :
    subWithBorrow m s = addWithCarry (~~~m) s := by
  have hframe : subWithBorrow m s = { s with
      a := (subWithBorrow m s).a
      p := { s.p.setNZ (subWithBorrow m s).a with c := (subWithBorrow m s).p.c, v := (subWithBorrow m s).p.v } } :=
    rfl
  rw [hframe, subWithBorrow_a, subWithBorrow_c, subWithBorrow_v]
  rfl

/-- Settles O31: every clause is that of `addWithCarryResult` for the complement, whose value is `255 - m`
unsigned and `-1 - m` signed, and whose sign is the other one. -/
theorem subWithBorrowResult : Obligations.SubWithBorrowResult := by
  intro m s t ht
  have hadd := ht.trans (subWithBorrow_eq_addWithCarry_not m s)
  obtain ⟨hsum, hframe, hc, hsigns, hrange, hn, hz⟩ := addWithCarryResult (~~~m) s t hadd
  have hlt := m.isLt
  have hm7 : (~~~m).getLsbD 7 = !m.getLsbD 7 := bit7_not m
  rw [toNat_not_byte] at hsum hc
  rw [toInt_not_byte] at hrange
  refine ⟨?diff, hframe, ?noBorrow, ?signs, ?range, hn, hz, hadd⟩
  case diff => omega
  case noBorrow =>
    rw [hc]
    omega
  case signs =>
    rw [hsigns, hm7]
    generalize s.a.getLsbD 7 = a7, m.getLsbD 7 = m7, t.a.getLsbD 7 = r7
    revert a7 m7 r7
    decide
  case range =>
    rw [hrange]
    omega

/-! ## `Compare` -/

/-- Settles O32: `P.Z` is that of the difference, which is 0 for equal bytes alone. -/
theorem compareResult : Obligations.CompareResult := by
  rintro reg m s t rfl
  have hz : (compare reg m s).p.z = true ↔ reg = m := beq_iff_eq.trans sub_eq_zero
  exact ⟨rfl, decide_eq_true_iff, hz, rfl⟩

/-! ## The instructions that read an operand -/

/-- Settles O34: `ADC` and `SBC` are `readThen` of their helper, the second `SBC #` reads its operand byte. -/
theorem addAndSubtractInstructions : Obligations.AddAndSubtractInstructions :=
  ⟨readLaw_of_readThen exec_adc, readLaw_of_readThen exec_sbc, exec_sbcu⟩

/-- Settles O35: each is `readThen` of its bitwise operation. -/
theorem logicInstructions : Obligations.LogicInstructions :=
  ⟨readLaw_of_readThen exec_and, readLaw_of_readThen exec_ora, readLaw_of_readThen exec_eor,
    memReadLaw_of_readThen exec_bit⟩

/-- Settles O36: each is `readThen` of `Compare` with its register. -/
theorem compareInstructions : Obligations.CompareInstructions :=
  ⟨readLaw_of_readThen exec_cmp, readLaw_of_readThen exec_cpx, readLaw_of_readThen exec_cpy⟩

/-! ## The instructions that modify memory -/

/-- A read-modify-write is one read of the effective address, the operation, and one write there (R355). -/
theorem modifyThen_eq (f : MemForm) (g : Byte → State → Byte × State) (k : Byte → State → State) (s : State) :
    modifyThen f g k s = andThen (memRead (effectiveOf f s).ea s) fun v t =>
      andThen (memWrite (effectiveOf f s).ea (g v t).1 (g v t).2) fun _ u =>
        done f.modifyCycles (k (g v t).1 u) := by
  rw [modifyThen, modifyMem, resolve_eq, chain_ok]
  cases memRead (effectiveOf f s).ea s with
  | error => rfl
  | ok x =>
    obtain ⟨v, t⟩ := x
    simp only [chain_ok, andThen_ok]
    cases memWrite (effectiveOf f s).ea (g v t).1 (g v t).2 <;> rfl

theorem flagsOnly_mem {g : Byte → State → Byte × State} (hg : FlagsOnly g) (v : Byte) (s : State) :
    (g v s).2.mem = s.mem := by rw [hg.state]

theorem flagsOnly_prgSize {g : Byte → State → Byte × State} (hg : FlagsOnly g) (v : Byte) (s : State) :
    (g v s).2.prgSize = s.prgSize := by rw [hg.state]

theorem flagsOnly_deviceLog {g : Byte → State → Byte × State} (hg : FlagsOnly g) (v : Byte) (s : State) :
    (g v s).2.deviceLog = s.deviceLog := by rw [hg.state]

/-- An instruction of the shape `modifyThen` meets the law of read-modify-writes, where its byte operation
touches flags alone: the write then finds the memory and the device log that the read left. -/
theorem modifyLaw_of_modifyThen {mk : MemForm → Instr} {g : Byte → State → Byte × State}
    {k : Byte → State → State} (hg : FlagsOnly g) (hexec : ∀ f s, exec (mk f) s = modifyThen f g k s) :
    ModifyLaw mk g k := by
  intro f s s1 e hres
  obtain ⟨rfl, rfl⟩ := eq_of_resolve hres
  rw [hexec, modifyThen_eq]
  refine ⟨?ram, ?rom, ?device⟩
  case ram =>
    intro hram
    simp only [memRead_plain _ _ (ne_device_of_ram hram), andThen_ok, memWrite_ram _ _ _ hram,
      flagsOnly_mem hg, flagsOnly_prgSize hg]
    rfl
  case rom =>
    intro hrom
    rw [memRead_plain _ _ (ne_device_of_rom hrom), andThen_ok, memWrite_rom _ _ _ hrom]
    rfl
  case device =>
    intro hdev
    rw [memRead_device _ _ hdev]
    cases Config.deviceRead s1.deviceLog (effectiveOf f s1).ea with
    | refused => rfl
    | byte v =>
      simp only [andThen_ok, memWrite_device _ _ _ hdev, flagsOnly_deviceLog hg]
      cases Config.deviceWrite (.read (effectiveOf f s1).ea :: s1.deviceLog) (effectiveOf f s1).ea
        (g v { s1 with deviceLog := .read (effectiveOf f s1).ea :: s1.deviceLog }).1 <;> rfl

/-- Settles O38: both are `modifyThen` of an operation that touches no flag of its own. -/
theorem memoryIncrements : Obligations.MemoryIncrements :=
  ⟨modifyLaw_of_modifyThen increment_flagsOnly exec_inc, modifyLaw_of_modifyThen decrement_flagsOnly exec_dec⟩

/-! ## The register forms -/

theorem exec_inx (s : State) : exec .inx s = done 2 (State.setNZ { s with x := s.x + 1 } (s.x + 1)) := rfl
theorem exec_iny (s : State) : exec .iny s = done 2 (State.setNZ { s with y := s.y + 1 } (s.y + 1)) := rfl
theorem exec_dex (s : State) : exec .dex s = done 2 (State.setNZ { s with x := s.x - 1 } (s.x - 1)) := rfl
theorem exec_dey (s : State) : exec .dey s = done 2 (State.setNZ { s with y := s.y - 1 } (s.y - 1)) := rfl

/-- Settles O37: each has its opcode and no operand byte, and is `done 2` of its step of 1. -/
theorem registerIncrements : Obligations.RegisterIncrements :=
  ⟨impliedLaw_of_done rfl rfl exec_inx, impliedLaw_of_done rfl rfl exec_iny,
    impliedLaw_of_done rfl rfl exec_dex, impliedLaw_of_done rfl rfl exec_dey⟩

end Sys2Proof.Proofs
end

section
/-! The rules of 43_shift_rotate.md: the four helpers as arithmetic (R160), the shifts and rotates of memory and
of the accumulator (R159, R161 to R164). -/

namespace Sys2Proof.Proofs

open Sys2Proof.Machine Sys2Proof.Claims

/-! ## The bit shifted out -/

theorem bit7_toNat (v : Byte) : (bit7 v).toNat = v.toNat / 128 := by
  have hbit : (bit7 v).toNat = v.toNat / 2 ^ 7 % 2 := Nat.toNat_testBit v.toNat 7
  have hlt := v.isLt
  omega

theorem bit0_toNat (v : Byte) : (v.getLsbD 0).toNat = v.toNat % 2 := by
  have hbit : (v.getLsbD 0).toNat = v.toNat / 2 ^ 0 % 2 := Nat.toNat_testBit v.toNat 0
  omega

/-! ## The helpers as arithmetic -/

theorem shiftLeft_toNat (v : Byte) (s : State) :
    (shiftLeft v s).1.toNat + 256 * (shiftLeft v s).2.p.c.toNat = 2 * v.toNat := by
  have hres : (shiftLeft v s).1.toNat = v.toNat <<< 1 % 256 := BitVec.toNat_shiftLeft
  have hout : (shiftLeft v s).2.p.c.toNat = v.toNat / 128 := bit7_toNat v
  have hlt := v.isLt
  omega

theorem shiftRight_toNat (v : Byte) (s : State) :
    2 * (shiftRight v s).1.toNat + (shiftRight v s).2.p.c.toNat = v.toNat := by
  have hres : (shiftRight v s).1.toNat = v.toNat / 2 := BitVec.toNat_ushiftRight v 1
  have hout : (shiftRight v s).2.p.c.toNat = v.toNat % 2 := bit0_toNat v
  omega

/-- Where no bit is set on both sides, an `|||` is a sum: how the bit that comes in joins the shifted byte. -/
theorem toNat_or_of_and_eq_zero {x y : Byte} (h : x &&& y = 0) : (x ||| y).toNat = x.toNat + y.toNat := by
  rw [← BitVec.add_eq_or_of_and_eq_zero x y h, BitVec.toNat_add_of_and_eq_zero h]

/-- A rotate to the left is the shift, with the old `P.C` at bit 0. -/
theorem rotateLeft_toNat_eq_shiftLeft (v : Byte) (s : State) :
    (rotateLeft v s).1.toNat = (shiftLeft v s).1.toNat + s.p.c.toNat := by
  have hfree : (v <<< 1) &&& bitByte s.p.c = 0 := by
    ext i
    cases i <;> simp [bitByte]
  have hin : (bitByte s.p.c).toNat = s.p.c.toNat := by
    cases s.p.c <;> rfl
  exact (toNat_or_of_and_eq_zero hfree).trans (by rw [hin]; rfl)

/-- A rotate to the right is the shift, with the old `P.C` at bit 7. -/
theorem rotateRight_toNat_eq_shiftRight (v : Byte) (s : State) :
    (rotateRight v s).1.toNat = (shiftRight v s).1.toNat + 128 * s.p.c.toNat := by
  have hfree : (v >>> 1) &&& (bitByte s.p.c <<< 7) = 0 := by
    ext i hi
    rcases Nat.lt_or_ge i 7 with hlow | hhigh
    · simp [hlow]
    · simp [show 8 ≤ 1 + i by omega]
  have hin : (bitByte s.p.c <<< 7).toNat = 128 * s.p.c.toNat := by
    cases s.p.c <;> rfl
  exact (toNat_or_of_and_eq_zero hfree).trans (by rw [hin]; rfl)

/-- Settles O33: the shifts lose the bit that `P.C` takes, and a rotate is its shift with the old `P.C` in the
place left free; its carry out is that of the shift. -/
theorem shiftsRotateThroughCarry : Obligations.ShiftsRotateThroughCarry := by
  intro v s
  have hleft := shiftLeft_toNat v s
  have hright := shiftRight_toNat v s
  refine ⟨hleft, hright, ?rotateLeft, ?rotateRight, ?frame⟩
  case rotateLeft =>
    have hc : (rotateLeft v s).2 = (shiftLeft v s).2 := rfl
    rw [hc, rotateLeft_toNat_eq_shiftLeft]
    omega
  case rotateRight =>
    have hc : (rotateRight v s).2 = (shiftRight v s).2 := rfl
    rw [hc, rotateRight_toNat_eq_shiftRight]
    omega
  case frame =>
    simp only [List.forall_mem_cons]
    exact ⟨rfl, rfl, rfl, rfl, List.forall_mem_nil _⟩

/-! ## The instructions -/

/-- Settles O39: each is `modifyThen` of its helper, which touches flags alone, then `SetNZ` of the byte written. -/
theorem memoryShifts : Obligations.MemoryShifts :=
  ⟨modifyLaw_of_modifyThen shiftLeft_flagsOnly exec_asl_mem,
    modifyLaw_of_modifyThen shiftRight_flagsOnly exec_lsr_mem,
    modifyLaw_of_modifyThen rotateLeft_flagsOnly exec_rol_mem,
    modifyLaw_of_modifyThen rotateRight_flagsOnly exec_ror_mem⟩

/-- A shift or rotate of `A` (R159): the helper on `A` and the flags, then `A` and `SetNZ` of the result. -/
def shiftA (g : Byte → State → Byte × State) (s : State) : State :=
  State.setNZ { (g s.a s).2 with a := (g s.a s).1 } (g s.a s).1

theorem exec_asl_acc (s : State) : exec (.asl .acc) s = done 2 (shiftA shiftLeft s) := rfl
theorem exec_lsr_acc (s : State) : exec (.lsr .acc) s = done 2 (shiftA shiftRight s) := rfl
theorem exec_rol_acc (s : State) : exec (.rol .acc) s = done 2 (shiftA rotateLeft s) := rfl
theorem exec_ror_acc (s : State) : exec (.ror .acc) s = done 2 (shiftA rotateRight s) := rfl

/-- Settles O40: each has its opcode and no operand byte, and is `done 2` of its helper on `A`. -/
theorem accumulatorShifts : Obligations.AccumulatorShifts :=
  ⟨impliedLaw_of_done rfl rfl exec_asl_acc, impliedLaw_of_done rfl rfl exec_lsr_acc,
    impliedLaw_of_done rfl rfl exec_rol_acc, impliedLaw_of_done rfl rfl exec_ror_acc⟩

end Sys2Proof.Proofs
end

section
/-! The rules of 44_control_flow.md: `JMP` (R170, R171), `JSR` and `RTS` with their round trip (R172, R173), and
the conditional branches (R174 to R182). -/

namespace Sys2Proof.Proofs

open Sys2Proof.Machine Sys2Proof.Claims

/-! ## Jumps -/

theorem exec_jmp (a : Addr) (s : State) : exec (.jmp a) s = done 3 { s with pc := a } := rfl

theorem exec_jmpInd (p : Addr) (s : State) : exec (.jmpInd p) s =
    andThen (readPair p (nextInPage p) s) fun target t => done 5 { t with pc := target } := rfl

/-- A pair of bytes of RAM or ROM is read as it stands there, and the state stays (R57). -/
theorem readPair_of_peek {lo hi : Addr} {s : State} {l h : Byte} (hl : s.peek lo = some l)
    (hh : s.peek hi = some h) : readPair lo hi s = .ok (addrOf l h, s) := by
  rw [readPair, memRead_of_peek hl, chain_ok, memRead_of_peek hh, chain_ok, answer]

/-- Settles O43: the indirect form is one `readPair` from the pointer and the next offset of its page, whose
outcome decides between the jump and the fault. -/
theorem jumpsLoadThePc : Obligations.JumpsLoadThePc := by
  refine ⟨fun a => ⟨rfl, rfl, addrOf_lo_hi a⟩, exec_jmp, ?plain, ?anywhere⟩
  case plain =>
    intro p s lo hi hlo hhi
    rw [exec_jmpInd, nextInPage, readPair_of_peek hlo hhi, andThen_ok, done]
  case anywhere =>
    intro p s
    rw [exec_jmpInd, nextInPage]
    cases readPair p (addrOf (loByte p + 1) (hiByte p)) s <;> rfl

/-! ## Subroutines -/

/-- Settles O44: the closed form of `JSR`, whose two decrements of `S` are one of 2. -/
theorem jsrPushesItsLastByte : Obligations.JsrPushesItsLastByte := by
  intro a s
  have hsp : s.sp - 2 = s.sp - 1 - 1 := (sub_sub s.sp 1 1).symm
  rw [exec_jsr, hsp]
  rfl

/-- The byte that the second of two pops returns (R11). -/
theorem stackByte_one (s : State) : stackByte s 1 = s.mem.read (0x100 + (s.sp + 1 + 1).toNat) := by
  rw [BitVec.add_assoc]
  rfl

/-- Settles O45: the closed form of `RTS`, whose two increments of `S` are one of 2. -/
theorem rtsAddsOne : Obligations.RtsAddsOne := by
  intro s
  have hsp : s.sp + 2 = s.sp + 1 + 1 := (BitVec.add_assoc s.sp 1 1).symm
  rw [exec_rts, stackByte_zero, stackByte_one, hsp]

/-- After an address is pushed, its low byte is the lower of the two and its high byte still stands above it:
`S - 1` is never `S`, wrap included. -/
theorem read_pushedAddr {m : Memory} (hwf : m.wf = true) (sp hi lo : Byte) :
    (pushed (pushed m sp hi) (sp - 1) lo).read (0x100 + (sp - 1).toNat) = lo ∧
    (pushed (pushed m sp hi) (sp - 1) lo).read (0x100 + sp.toNat) = hi := by
  have hne : 0x100 + (sp - 1).toNat ≠ 0x100 + sp.toNat := by bv_omega
  constructor
  · rw [pushed, pushed, Memory.read_write _ _ _ _ (Memory.wf_write hwf _ _), if_pos rfl]
  · rw [pushed, Memory.read_write_ne _ _ _ _ hne, pushed, Memory.read_write _ _ _ _ hwf, if_pos rfl]

/-- Two pops return the address that two pushes left on the stack, and go back to the old `S`, in any state that
has that stack. -/
theorem popAddr_of_pushedAddr {m : Memory} (hwf : m.wf = true) (sp : Byte) (v : Addr) (t : State)
    (hmem : t.mem = pushed (pushed m sp (hiByte v)) (sp - 1) (loByte v)) (hsp : t.sp = sp - 1 - 1) :
    popAddr t = .ok (v, { t with sp := sp }) := by
  obtain ⟨hlo, hhi⟩ := read_pushedAddr hwf sp (hiByte v) (loByte v)
  rw [popAddr_eq, hsp, BitVec.sub_add_cancel, BitVec.sub_add_cancel, hmem, hlo, hhi, addrOf_lo_hi]

theorem exec_rts_eq_popAddr (s : State) :
    exec .rts s = andThen (popAddr s) fun target t => done 6 { t with pc := target + 1 } := rfl

/-- Settles O46: `RTS` pops what `JSR` pushed, `PC - 1`, and adds 1; `JSR` and the callee address leave the
other registers. -/
theorem rtsUndoesJsr : Obligations.RtsUndoesJsr := by
  intro a callee s t hwf hjsr
  cases (exec_jsr a s).symm.trans hjsr
  rw [exec_rts_eq_popAddr, popAddr_of_pushedAddr hwf s.sp (s.pc - 1) _ rfl rfl, andThen_ok]
  exact ⟨_, rfl, BitVec.sub_add_cancel s.pc 1, rfl, rfl, rfl, rfl, rfl⟩

/-! ## Branches -/

/-- An instruction of the shape `branchIf` meets the law of branches, where the bit it tests says that the
condition holds (R174). -/
theorem branchLaw_of_branchIf {mk : Byte → Instr} {taken : StatusFlags → Bool} {cond : StatusFlags → Prop}
    (hcond : ∀ p, taken p = true ↔ cond p) (hexec : ∀ off s, exec (mk off) s = branchIf (taken s.p) off s) :
    BranchLaw mk cond := by
  intro off s
  rw [hexec, ← hcond]
  refine ⟨?taken, ?untaken⟩
  case taken =>
    intro htaken
    rw [htaken]
    rfl
  case untaken =>
    intro huntaken
    rw [eq_false_of_ne_true huntaken]
    rfl

theorem branchLaw_of_flagSet {mk : Byte → Instr} (flag : StatusFlags → Bool)
    (hexec : ∀ off s, exec (mk off) s = branchIf (flag s.p) off s) : BranchLaw mk (fun p => flag p = true) :=
  branchLaw_of_branchIf (fun _ => Iff.rfl) hexec

theorem branchLaw_of_flagClear {mk : Byte → Instr} (flag : StatusFlags → Bool)
    (hexec : ∀ off s, exec (mk off) s = branchIf (!flag s.p) off s) : BranchLaw mk (fun p => flag p = false) :=
  branchLaw_of_branchIf (taken := fun p => !flag p) (fun p => iff_of_eq (Bool.not_eq_true' (flag p))) hexec

/-- Settles O47: each branch is `branchIf` of its flag, or of its flag's complement. -/
theorem branchesTestTheirFlag : Obligations.BranchesTestTheirFlag :=
  ⟨branchLaw_of_flagClear StatusFlags.n exec_bpl, branchLaw_of_flagSet StatusFlags.n exec_bmi,
    branchLaw_of_flagClear StatusFlags.v exec_bvc, branchLaw_of_flagSet StatusFlags.v exec_bvs,
    branchLaw_of_flagClear StatusFlags.c exec_bcc, branchLaw_of_flagSet StatusFlags.c exec_bcs,
    branchLaw_of_flagClear StatusFlags.z exec_bne, branchLaw_of_flagSet StatusFlags.z exec_beq⟩

end Sys2Proof.Proofs
end

section
/-! The rules of 45_flags_system.md: the flag instructions and `NOP` (R185 to R192), `RTI` (R195), and `BRK` with
the entry that follows it (R194). -/

namespace Sys2Proof.Proofs

open Sys2Proof.Machine Sys2Proof.Claims

/-! ## The flag instructions and `NOP` -/

theorem exec_clc (s : State) : exec .clc s = done 2 { s with p := { s.p with c := false } } := rfl
theorem exec_sec (s : State) : exec .sec s = done 2 { s with p := { s.p with c := true } } := rfl
theorem exec_cli (s : State) : exec .cli s = done 2 { s with p := { s.p with i := false } } := rfl
theorem exec_sei (s : State) : exec .sei s = done 2 { s with p := { s.p with i := true } } := rfl
theorem exec_clv (s : State) : exec .clv s = done 2 { s with p := { s.p with v := false } } := rfl
theorem exec_cld (s : State) : exec .cld s = done 2 { s with p := { s.p with d := false } } := rfl
theorem exec_sed (s : State) : exec .sed s = done 2 { s with p := { s.p with d := true } } := rfl
theorem exec_nop (s : State) : exec .nop s = done 2 s := rfl

/-- Settles O48: each has its opcode and no operand byte, and is `done 2` of its one flag write. -/
theorem flagInstructions : Obligations.FlagInstructions :=
  ⟨impliedLaw_of_done rfl rfl exec_clc, impliedLaw_of_done rfl rfl exec_sec,
    impliedLaw_of_done rfl rfl exec_cli, impliedLaw_of_done rfl rfl exec_sei,
    impliedLaw_of_done rfl rfl exec_clv, impliedLaw_of_done rfl rfl exec_cld,
    impliedLaw_of_done rfl rfl exec_sed, impliedLaw_of_done rfl rfl exec_nop⟩

/-! ## The pending event -/

theorem pendingEvent_of_brk {s : State} (hreset : s.resetPending = false) (hbrk : s.brkPending = true) :
    pendingEvent s = some (.interrupt .brk) := by
  simp [pendingEvent, hreset, hbrk]

theorem pendingEvent_of_irq {s : State} (hreset : s.resetPending = false) (hbrk : s.brkPending = false)
    (hnmi : s.nmiPending = false) (hirq : s.irqLine = true) (hi : s.p.i = false) :
    pendingEvent s = some (.interrupt .irq) := by
  simp [pendingEvent, hreset, hbrk, hnmi, hirq, hi]

/-- Settles O15: `CLI` leaves the line and the latches, and with `P.I` clear the line is what is left to serve. -/
theorem cliUnmasksIrqAtOnce : Obligations.CliUnmasksIrqAtOnce := by
  intro s hirq hreset hbrk hnmi
  exact ⟨_, exec_cli s, pendingEvent_of_irq hreset hbrk hnmi hirq rfl⟩

/-! ## `RTI` -/

/-- The byte that the third of three pops returns (R11). -/
theorem stackByte_two (s : State) : stackByte s 2 = s.mem.read (0x100 + (s.sp + 1 + 1 + 1).toNat) := by
  rw [BitVec.add_assoc, BitVec.add_assoc]
  rfl

/-- Settles O49: the closed form of a return from an interrupt, whose three increments of `S` are one of 3 and
whose status byte goes through `Unpack`. -/
theorem rtiRestoresStatusAndPc : Obligations.RtiRestoresStatusAndPc := by
  intro s
  have hsp : s.sp + 3 = s.sp + 1 + 1 + 1 := by
    rw [BitVec.add_assoc, BitVec.add_assoc]
    rfl
  rw [exec_rti, returnFromInterrupt_eq, stackByte_zero, stackByte_one, stackByte_two, hsp]
  rfl

/-! ## An interrupt entry, in terms of the stack and the vector -/

/-- The memory after an entry's three pushes: the high and the low byte of the return address, then the status
byte (R316). -/
def entryMemory (m : Memory) (sp : Byte) (ret : Addr) (status : Byte) : Memory :=
  pushed (pushed (pushed m sp (hiByte ret)) (sp - 1) (loByte ret)) (sp - 2) status

/-- No push of an entry reaches another of its bytes: `S`, `S - 1` and `S - 2` differ, wrap included. -/
theorem read_entryMemory {m : Memory} (hwf : m.wf = true) (sp : Byte) (ret : Addr) (status : Byte) :
    (entryMemory m sp ret status).read (0x100 + sp.toNat) = hiByte ret ∧
    (entryMemory m sp ret status).read (0x100 + (sp - 1).toNat) = loByte ret ∧
    (entryMemory m sp ret status).read (0x100 + (sp - 2).toNat) = status := by
  obtain ⟨hlo, hhi⟩ := read_pushedAddr hwf sp (hiByte ret) (loByte ret)
  have hne : 0x100 + (sp - 2).toNat ≠ 0x100 + sp.toNat := by bv_omega
  have hne1 : 0x100 + (sp - 2).toNat ≠ 0x100 + (sp - 1).toNat := by bv_omega
  refine ⟨?high, ?low, ?status⟩
  case high => exact (Memory.read_write_ne _ _ _ _ hne).trans hhi
  case low => exact (Memory.read_write_ne _ _ _ _ hne1).trans hlo
  case status =>
    have hwf2 := Memory.wf_write (Memory.wf_write hwf (0x100 + sp.toNat) (hiByte ret))
      (0x100 + (sp - 1).toNat) (loByte ret)
    exact (Memory.read_write _ _ _ _ hwf2).trans (if_pos rfl)

/-- The stack page is RAM, and each of its addresses its own cell (R11, R56). -/
theorem peek_stackAddr (s : State) (sp : Byte) :
    s.peek (stackAddr sp) = some (s.mem.read (0x100 + sp.toNat)) := by
  rw [peek_plain (ne_device_of_ram (classOf_stackAddr sp)), cellOf_stackAddr]

/-- The step that serves an interrupt is its entry: the pushes leave the vector that it reads, so that its target
is the two bytes that stood there (R316, R318). -/
theorem step_of_interrupt {k : InterruptKind} {s : State} (he : pendingEvent s = some (.interrupt k)) :
    ∃ lo hi, s.peek k.vector = some lo ∧ s.peek (k.vector + 1) = some hi ∧
      step s = .next { s.clearLatch k with
        mem := entryMemory s.mem s.sp s.pc (s.p.pack (k.pushedB s.p))
        sp := s.sp - 3, p := { s.p with i := true }, pc := addrOf lo hi, cycles := k.cycles } := by
  obtain ⟨hlo, hhi⟩ := classOf_vector k
  have hsp2 : s.sp - 1 - 1 = s.sp - 2 := sub_sub s.sp 1 1
  have hsp3 : s.sp - 2 - 1 = s.sp - 3 := sub_sub s.sp 2 1
  have hram : RamWrites s.prgSize s.mem (entryMemory s.mem s.sp s.pc (s.p.pack (k.pushedB s.p))) :=
    ((RamWrites.none.push ..).push ..).push ..
  refine ⟨_, _, peek_plain (ne_device_of_rom hlo), peek_plain (ne_device_of_rom hhi), ?_⟩
  rw [← hram.read_rom hlo, ← hram.read_rom hhi, step_of_event he, Event.serve, State.clearLatch_eq,
    interruptEntry_eq, hsp2, hsp3]
  rfl

/-! ## `BRK` -/

theorem exec_brk (s : State) : exec .brk s = done 7 { s with pc := s.pc + brkPad, brkPending := true } := rfl

/-- Settles O13: the latch that `BRK` sets comes before NMI and IRQ (`pendingEvent_of_brk`), so that the next step
is its entry (`step_of_interrupt`), whose three bytes lie on the stack (`read_entryMemory`). -/
theorem brkThenEntry : Obligations.BrkThenEntry := by
  intro s
  refine ⟨exec_brk s, fun hreset hwf => ?_⟩
  have hpending : pendingEvent { s with pc := s.pc + 1, brkPending := true, cycles := 7 } =
      some (.interrupt .brk) := pendingEvent_of_brk hreset rfl
  obtain ⟨lo, hi, hlo, hhi, hstep⟩ := step_of_interrupt hpending
  obtain ⟨hhigh, hlow, hstatus⟩ := read_entryMemory hwf s.sp (s.pc + 1) (s.p.pack true)
  refine ⟨_, lo, hi, hlo, hhi, hstep, ?_⟩
  refine ⟨rfl, rfl, rfl, rfl, rfl, ?high, ?low, ?status⟩
  case high => exact (peek_stackAddr _ _).trans (congrArg some hhigh)
  case low => exact (peek_stackAddr _ _).trans (congrArg some hlow)
  case status => exact (peek_stackAddr _ _).trans (congrArg some hstatus)

end Sys2Proof.Proofs
end

section
/-! The rules of 46_undocumented.md: the six combined read-modify-writes (R202 to R208) and the undocumented
`NOP`s (R209). -/

namespace Sys2Proof.Proofs

open Sys2Proof.Machine Sys2Proof.Claims

/-- Settles O41: each is `modifyThen` of its memory operation, which touches flags alone, and the accumulator
operation then runs on the flags and the byte that it left (R208). -/
theorem combinedReadModifyWrites : Obligations.CombinedReadModifyWrites :=
  ⟨modifyLaw_of_modifyThen shiftLeft_flagsOnly exec_slo,
    modifyLaw_of_modifyThen rotateLeft_flagsOnly exec_rla,
    modifyLaw_of_modifyThen shiftRight_flagsOnly exec_sre,
    modifyLaw_of_modifyThen rotateRight_flagsOnly exec_rra,
    modifyLaw_of_modifyThen decrement_flagsOnly exec_dcp,
    modifyLaw_of_modifyThen increment_flagsOnly exec_isc⟩

/-- Settles O42: `exec_nopu` has the whole effect, the cycle count. A form without a memory operand takes 2
cycles; one with it takes its base count, and one more where the address it resolves to crosses a page (D14: the
operand there is not read). -/
theorem undocumentedNopsDoNothing : Obligations.UndocumentedNopsDoNothing := by
  refine ⟨?noMemory, ?memory⟩
  case noMemory => exact fun opc b s => ⟨exec_nopu opc .imp s, exec_nopu opc (.src (.imm b)) s⟩
  case memory =>
    intro opc f s s1 e hres
    obtain ⟨rfl, rfl⟩ := eq_of_resolve hres
    exact exec_nopu opc (.src (.mem f)) s1

end Sys2Proof.Proofs
end

section
/-! The rules of 60_exceptions.md: the order in which a step serves what is pending (section 1), what raises
`DecodeError` (section 2), the NMI edge detector (section 3), an interrupt entry (section 5) and the return from it
(section 6). -/

namespace Sys2Proof.Proofs

open Sys2Proof.Machine Sys2Proof.Claims

/-! ## Which event is pending -/

theorem pendingEvent_of_reset {s : State} (hreset : s.resetPending = true) : pendingEvent s = some .reset := by
  simp [pendingEvent, hreset]

theorem pendingEvent_of_nmi {s : State} (hreset : s.resetPending = false) (hbrk : s.brkPending = false)
    (hnmi : s.nmiPending = true) : pendingEvent s = some (.interrupt .nmi) := by
  simp [pendingEvent, hreset, hbrk, hnmi]

theorem pendingEvent_of_quiet {s : State} (hreset : s.resetPending = false) (hbrk : s.brkPending = false)
    (hnmi : s.nmiPending = false) (hirq : s.irqLine = false ∨ s.p.i = true) : pendingEvent s = none := by
  rcases hirq with hirq | hirq <;> simp [pendingEvent, hreset, hbrk, hnmi, hirq]

/-- Settles O8: the conditions of each branch say which event is pending, and the step serves it; where none is,
the step fetches. -/
theorem pendingEventsInOrder : Obligations.PendingEventsInOrder := by
  intro s
  refine ⟨?reset, ?brk, ?nmi, ?irq, ?quiet⟩
  case reset => exact fun hreset => step_of_event (pendingEvent_of_reset hreset)
  case brk => exact fun hreset hbrk => step_of_event (pendingEvent_of_brk hreset hbrk)
  case nmi => exact fun hreset hbrk hnmi => step_of_event (pendingEvent_of_nmi hreset hbrk hnmi)
  case irq =>
    exact fun hreset hbrk hnmi hirq hi => step_of_event (pendingEvent_of_irq hreset hbrk hnmi hirq hi)
  case quiet => exact fun hreset hbrk hnmi hirq => step_of_none (pendingEvent_of_quiet hreset hbrk hnmi hirq)

/-! ## The NMI edge detector -/

/-- A level that stays is no rising edge, so that signalling it again latches nothing (R311). -/
theorem signalNmi_signalNmi (s : State) (level : Bool) :
    (s.signalNmi level).signalNmi level = s.signalNmi level := by
  simp only [State.signalNmi, Bool.and_not_self, Bool.or_false]

/-- Settles O12: latch, level and frame are the definition of the detector; a repeated level is
`signalNmi_signalNmi`. -/
theorem nmiLatchesOnRisingEdge : Obligations.NmiLatchesOnRisingEdge :=
  fun s level => ⟨rfl, rfl, signalNmi_signalNmi s level, rfl⟩

/-! ## An interrupt entry, and the return from it -/

/-- Settles O11: `step_of_interrupt`, with the vector, the latch and bit 4 of the pushed status read off for each
kind. -/
theorem interruptEntrySavesAndVectors : Obligations.InterruptEntrySavesAndVectors := by
  intro s k he
  obtain ⟨lo, hi, hlo, hhi, hstep⟩ := step_of_interrupt he
  cases k with
  | brk | nmi | irq => exact ⟨lo, hi, hlo, hhi, hstep⟩

/-- A return from an interrupt pops what an entry pushed, in any state that has that stack: the six flags of the
pushed status, the return address, and the old `S` (R195, R321). -/
theorem exec_rti_of_entryMemory {m : Memory} (hwf : m.wf = true) (sp : Byte) (ret : Addr) (p : StatusFlags)
    (b : Bool) (t : State) (hmem : t.mem = entryMemory m sp ret (p.pack b)) (hsp : t.sp = sp - 3) :
    exec .rti t = .next { t with
      p := { p with r := t.p.r, b := t.p.b }, pc := ret, sp := sp, cycles := 6 } := by
  obtain ⟨hhi, hlo, hstatus⟩ := read_entryMemory hwf sp ret (p.pack b)
  have h1 : sp - 3 + 1 = sp - 2 := by bv_omega
  have h2 : sp - 2 + 1 = sp - 1 := by bv_omega
  have h3 : sp - 1 + 1 = sp := BitVec.sub_add_cancel sp 1
  rw [exec_rti, returnFromInterrupt_eq, hsp, h1, h2, h3, hmem, hstatus, hlo, hhi, unpack_pack, addrOf_lo_hi]

/-- Settles O14: the entry leaves its three bytes on the stack (`step_of_interrupt`), and the return takes them
back (`exec_rti_of_entryMemory`); the entry has kept `P.R` and `P.B`, which the return does not load (D7). -/
theorem rtiUndoesInterruptEntry : Obligations.RtiUndoesInterruptEntry := by
  intro s t k handler hwf he hstep
  obtain ⟨lo, hi, -, -, hentry⟩ := step_of_interrupt he
  rw [State.clearLatch_eq] at hentry
  cases hentry.symm.trans hstep
  exact ⟨_, exec_rti_of_entryMemory hwf s.sp s.pc s.p (k.pushedB s.p) _ rfl rfl, rfl, rfl, rfl, rfl, rfl, rfl, rfl⟩

/-! ## What raises `DecodeError` -/

/-- An operation that can fail by a bus error alone (R302). -/
def BusErrorsOnly {α : Type} : Access α → Prop
  | .ok _ => True
  | .error f => ∃ kind a, f = .busError kind a

/-- The same of a meaning. -/
def BusFaultsOnly : Out → Prop
  | .fault f => ∃ kind a, f = .busError kind a
  | .next _ | .refused _ => True

theorem BusErrorsOnly.chain {α β : Type} {r : Access α} {k : α → State → Access β} (hr : BusErrorsOnly r)
    (hk : ∀ v t, BusErrorsOnly (k v t)) : BusErrorsOnly (chain r k) := by
  rcases r with f | ⟨v, t⟩
  · exact hr
  · exact hk v t

theorem BusErrorsOnly.andThen {α : Type} {r : Access α} {k : α → State → Out} (hr : BusErrorsOnly r)
    (hk : ∀ v t, BusFaultsOnly (k v t)) : BusFaultsOnly (andThen r k) := by
  rcases r with f | ⟨v, t⟩
  · exact hr
  · exact hk v t

theorem BusFaultsOnly.of_next {o : Out} {t : State} (ho : o = .next t) : BusFaultsOnly o := by
  rw [ho]
  trivial

theorem memRead_busErrorsOnly (a : Addr) (s : State) : BusErrorsOnly (memRead a s) := by
  cases h : memRead a s with
  | ok => trivial
  | error f => exact ⟨_, _, (memRead_error h).2⟩

theorem memWrite_busErrorsOnly (a : Addr) (v : Byte) (s : State) : BusErrorsOnly (memWrite a v s) := by
  cases h : memWrite a v s with
  | ok => trivial
  | error f => exact ⟨_, _, (memWrite_error h).2⟩

theorem readPair_busErrorsOnly (lo hi : Addr) (s : State) : BusErrorsOnly (readPair lo hi s) :=
  (memRead_busErrorsOnly lo s).chain fun _ t => (memRead_busErrorsOnly hi t).chain fun _ _ => trivial

theorem fetchByte_busErrorsOnly (s : State) : BusErrorsOnly (fetchByte s) :=
  (memRead_busErrorsOnly s.pc s).chain fun _ _ => trivial

theorem fetch_busErrorsOnly (s : State) : BusErrorsOnly (fetch s) := by
  refine (fetchByte_busErrorsOnly s).chain fun opc s1 => ?_
  split
  · trivial
  · exact (fetchByte_busErrorsOnly s1).chain fun _ _ => trivial
  · exact (fetchByte_busErrorsOnly s1).chain fun _ s2 => (fetchByte_busErrorsOnly s2).chain fun _ _ => trivial

theorem readThen_busFaultsOnly (o : Source) (g : Byte → State → State) (s : State) :
    BusFaultsOnly (readThen o g s) := by
  cases o with
  | imm => trivial
  | mem f =>
    rw [readThen_mem]
    exact (memRead_busErrorsOnly _ s).andThen fun _ _ => trivial

theorem storeByte_busFaultsOnly (f : MemForm) (v : Byte) (s : State) : BusFaultsOnly (storeByte f v s) := by
  rw [storeByte, storeMem_eq]
  exact (memWrite_busErrorsOnly _ v s).andThen fun _ _ => trivial

theorem modifyThen_busFaultsOnly (f : MemForm) (g : Byte → State → Byte × State) (k : Byte → State → State)
    (s : State) : BusFaultsOnly (modifyThen f g k s) := by
  rw [modifyThen_eq]
  exact (memRead_busErrorsOnly _ s).andThen fun _ _ => (memWrite_busErrorsOnly ..).andThen fun _ _ => trivial

theorem shiftBy_busFaultsOnly (g : Byte → State → Byte × State) (tg : Target) (s : State) :
    BusFaultsOnly (shiftBy g tg s) := by
  cases tg with
  | acc => trivial
  | mem f => exact modifyThen_busFaultsOnly f g _ s

/-- An instruction of the Opcode Table faults by the bus alone (R301, R302). -/
theorem exec_busFaultsOnly {i : Instr} (hi : ∀ opc, i ≠ .unassigned opc) (s : State) :
    BusFaultsOnly (exec i s) := by
  cases i with
  | lda | ldx | ldy | lax | adc | sbc | sbcu | and | ora | eor | cmp | cpx | cpy | bit =>
    simp only [exec_lda, exec_ldx, exec_ldy, exec_lax, exec_adc, exec_sbc, exec_sbcu, exec_and, exec_ora,
      exec_eor, exec_cmp, exec_cpx, exec_cpy, exec_bit, readThen_busFaultsOnly]
  | sta | stx | sty | sax => exact storeByte_busFaultsOnly _ _ s
  | inc | dec | dcp | isc | slo | rla | sre | rra => exact modifyThen_busFaultsOnly _ _ _ s
  | asl | lsr | rol | ror => exact shiftBy_busFaultsOnly _ _ s
  | bpl | bmi | bvc | bvs | bcc | bcs | bne | beq => exact .of_next (branchIf_eq ..)
  | jmpInd p => exact (readPair_busErrorsOnly ..).andThen fun _ _ => trivial
  | pha => exact .of_next (exec_pha s)
  | php => exact .of_next (exec_php s)
  | pla => exact .of_next (exec_pla s)
  | plp => exact .of_next (exec_plp s)
  | jsr a => exact .of_next (exec_jsr a s)
  | rts => exact .of_next (exec_rts s)
  | rti => exact .of_next (returnFromInterrupt_eq s)
  | nopu opc o => exact .of_next (exec_nopu opc o s)
  | unassigned opc => exact absurd rfl (hi opc)
  | tax | tay | txa | tya | tsx | txs | inx | iny | dex | dey | clc | sec | cli | sei | clv | cld | sed
  | nop | brk | jmp => trivial

/-- An instruction that raises `DecodeError` is the byte without entry that it names (R301). -/
theorem eq_unassigned_of_decodeError {i : Instr} {s : State} {opc : Byte}
    (h : exec i s = .fault (.decodeError opc)) : i = .unassigned opc := by
  by_cases hi : ∃ opc', i = .unassigned opc'
  · obtain ⟨opc', rfl⟩ := hi
    cases h
    rfl
  · have hbus := exec_busFaultsOnly (not_exists.1 hi) s
    rw [h] at hbus
    obtain ⟨kind, a, ⟨⟩⟩ := hbus

theorem serve_busFaultsOnly (e : Event) (s : State) : BusFaultsOnly (e.serve s) := by
  cases e with
  | reset => exact .of_next (resetSequence_eq s)
  | interrupt k => exact .of_next (interruptEntry_eq k s)

/-- Each byte of R108 is fetched alone, and stands for itself (R82). -/
theorem fetch_of_unassigned {opc : Byte} {s s1 : State} (hmem : opc ∈ unassignedBytes)
    (h : fetchByte s = .ok (opc, s1)) : fetch s = .ok (.unassigned opc, s1) := by
  have hcell : instrOf opc 0 0 = .unassigned opc := unassigned_givenBy hmem
  have hcount : operandCount opc = 0 := by
    rw [operandCount, hcell]
    rfl
  rw [fetch_of_operandCount_zero hcount h, hcell]

/-- What a fetch delivers has the opcode byte that stands at `PC` (R82). -/
theorem fetchByte_of_fetch {s t : State} {i : Instr} (h : fetch s = .ok (i, t)) :
    ∃ opc s1, fetchByte s = .ok (opc, s1) ∧ i.opcode = some opc := by
  obtain ⟨opc, s1, hopc, hrest⟩ := chain_eq_ok.1 h
  refine ⟨opc, s1, hopc, ?_⟩
  split at hrest
  · cases hrest
    exact opcode_instrOf ..
  · obtain ⟨b1, s2, -, ⟨⟩⟩ := chain_eq_ok.1 hrest
    exact opcode_instrOf ..
  · obtain ⟨b1, s2, -, hrest⟩ := chain_eq_ok.1 hrest
    obtain ⟨b2, s3, -, ⟨⟩⟩ := chain_eq_ok.1 hrest
    exact opcode_instrOf ..

/-- A step that raises `DecodeError` has nothing pending and fetched the byte without entry that it names. -/
theorem fetch_of_decodeError {s : State} {opc : Byte} (h : step s = .fault (.decodeError opc)) :
    pendingEvent s = none ∧ ∃ t, fetch s = .ok (.unassigned opc, t) := by
  cases he : pendingEvent s with
  | some e =>
    have hbus := serve_busFaultsOnly e s
    rw [← step_of_event he, h] at hbus
    obtain ⟨kind, a, ⟨⟩⟩ := hbus
  | none =>
    rw [step_of_none he] at h
    obtain hfetch | ⟨i, t, hfetch, hexec⟩ := andThen_eq_fault.1 h
    · have hbus := fetch_busErrorsOnly s
      rw [hfetch] at hbus
      obtain ⟨kind, a, ⟨⟩⟩ := hbus
    · cases eq_unassigned_of_decodeError hexec
      exact ⟨rfl, t, hfetch⟩

/-- Settles O7: a byte of R108 is fetched as itself (`fetch_of_unassigned`); conversely the step fetched such a byte
(`fetch_of_decodeError`), and only those have an opcode as `unassigned` (membership is the spec's decision D12). -/
theorem unknownOpcodeRaisesDecodeError : Obligations.UnknownOpcodeRaisesDecodeError := by
  refine ⟨fun _ _ => rfl, ?raises, ?raisedBy⟩
  case raises =>
    intro s s1 opc hnone hfetch hmem
    rw [step_of_none hnone, fetch_of_unassigned hmem hfetch, andThen_ok]
    rfl
  case raisedBy =>
    intro s opc h
    obtain ⟨hnone, t, hfetch⟩ := fetch_of_decodeError h
    obtain ⟨opc', s1, hbyte, hopc⟩ := fetchByte_of_fetch hfetch
    obtain ⟨hmem, ⟨⟩⟩ := Option.ite_none_right_eq_some.1 hopc
    exact ⟨hnone, hmem, s1, hbyte⟩

end Sys2Proof.Proofs
end

section
/-! The rules of 70_reset_and_hazards.md: what the reset sequence leaves (section 1), and the cycle count that a step
returns (section 3): that it is the one of the Opcode Table, and that no step reads the last one. -/

namespace Sys2Proof.Proofs

open Sys2Proof.Machine Sys2Proof.Claims

/-! ## The reset sequence -/

/-- Settles O10: the step is the reset sequence, whose vector is in PRG-ROM and so is read as it stands there. -/
theorem resetSequenceLeaves : Obligations.ResetSequenceLeaves := by
  intro s hreset
  have hlo : classOf 0xFFFC ≠ .device := by decide
  have hhi : classOf 0xFFFD ≠ .device := by decide
  refine ⟨_, _, peek_plain hlo, peek_plain hhi, ?_⟩
  rw [step_of_event (pendingEvent_of_reset hreset), Event.serve, resetSequence_eq]
  rfl

/-! ## Nothing reads the last cycle count -/

/-- The state with another cycle count. -/
def withCycles (n : Nat) (s : State) : State := { s with cycles := n }

theorem withCycles_unseen (n : Nat) : Unseen (withCycles n) where
  x _ := rfl
  y _ := rfl
  mem _ := rfl
  prgSize _ := rfl
  deviceLog _ := rfl
  setMem _ _ := rfl
  setLog _ _ := rfl

/-- An update of the state after an access is lost where the rest of the meaning does not see it. -/
theorem andThen_onState_lost {α : Type} {φ : State → State} {r : Access α} {k : α → State → Out}
    (hk : ∀ v s, k v (φ s) = k v s) : andThen (onState φ r) k = andThen r k := by
  rcases r with f | ⟨v, s⟩
  · rfl
  · exact hk v s

theorem fetchByte_withCycles (n : Nat) (s : State) :
    fetchByte (withCycles n s) = onState (withCycles n) (fetchByte s) := by
  have hread := memRead_unseen (withCycles_unseen n) s.pc s
  rw [fetchByte, show (withCycles n s).pc = s.pc from rfl, hread]
  exact chain_onState fun _ _ => rfl

theorem fetch_withCycles (n : Nat) (s : State) :
    fetch (withCycles n s) = onState (withCycles n) (fetch s) := by
  rw [fetch, fetchByte_withCycles]
  refine chain_onState fun opc s1 => ?_
  split
  · rfl
  · rw [fetchByte_withCycles]
    exact chain_onState fun _ _ => rfl
  · rw [fetchByte_withCycles]
    refine chain_onState fun b1 s2 => ?_
    rw [fetchByte_withCycles]
    exact chain_onState fun _ _ => rfl

theorem readThen_withCycles (n : Nat) (o : Source) {g : Byte → State → State}
    (hg : ∀ v s, g v (withCycles n s) = withCycles n (g v s)) (s : State) :
    readThen o g (withCycles n s) = readThen o g s := by
  rw [readThen, readSource_unseen (withCycles_unseen n)]
  exact andThen_onState_lost fun v s => by rw [hg]; rfl

theorem storeByte_withCycles (n : Nat) (f : MemForm) (v : Byte) (s : State) :
    storeByte f v (withCycles n s) = storeByte f v s := by
  rw [storeByte, storeMem_unseen (withCycles_unseen n)]
  exact andThen_onState_lost fun _ _ => rfl

theorem modifyThen_withCycles (n : Nat) (f : MemForm) {g : Byte → State → Byte × State}
    {k : Byte → State → State} (hg : ∀ v s, g v (withCycles n s) = ((g v s).1, withCycles n (g v s).2))
    (hk : ∀ v s, k v (withCycles n s) = withCycles n (k v s)) (s : State) :
    modifyThen f g k (withCycles n s) = modifyThen f g k s := by
  rw [modifyThen, modifyMem_unseen (withCycles_unseen n) f hg]
  exact andThen_onState_lost fun v s => by rw [hk]; rfl

theorem shiftBy_withCycles (n : Nat) (t : Target) {g : Byte → State → Byte × State}
    (hg : ∀ v s, g v (withCycles n s) = ((g v s).1, withCycles n (g v s).2)) (s : State) :
    shiftBy g t (withCycles n s) = shiftBy g t s := by
  cases t with
  | acc =>
    have ha := hg s.a s
    rw [shiftBy, show (withCycles n s).a = s.a from rfl, ha]
    rfl
  | mem f => exact modifyThen_withCycles n f hg (fun _ _ => by rfl) s

/-- Every meaning ends by putting its own cycle count over the last one. -/
theorem exec_withCycles (n : Nat) (i : Instr) (s : State) : exec i (withCycles n s) = exec i s := by
  cases i with
  | lda | ldx | ldy | lax | adc | sbc | sbcu | and | ora | eor | cmp | cpx | cpy | bit =>
    simp only [exec_lda, exec_ldx, exec_ldy, exec_lax, exec_adc, exec_sbc, exec_sbcu, exec_and, exec_ora,
      exec_eor, exec_cmp, exec_cpx, exec_cpy, exec_bit]
    exact readThen_withCycles n _ (fun _ _ => by rfl) s
  | sta | stx | sty | sax => exact storeByte_withCycles n _ _ s
  | inc | dec | dcp | isc | slo | rla | sre | rra =>
    simp only [exec_inc, exec_dec, exec_dcp, exec_isc, exec_slo, exec_rla, exec_sre, exec_rra]
    exact modifyThen_withCycles n _ (fun _ _ => by rfl) (fun _ _ => by rfl) s
  | asl | lsr | rol | ror => exact shiftBy_withCycles n _ (fun _ _ => by rfl) s
  | bpl | bmi | bvc | bvs | bcc | bcs | bne | beq => exact (branchIf_eq ..).trans (branchIf_eq ..).symm
  | nopu =>
    simp only [exec_nopu, nopCrossed_unseen (withCycles_unseen n)]
    rfl
  | pha | php | pla | plp | jsr | rts =>
    simp only [exec_pha, exec_php, exec_pla, exec_plp, exec_jsr, exec_rts]
    rfl
  | rti => exact (returnFromInterrupt_eq _).trans (returnFromInterrupt_eq s).symm
  | jmpInd p =>
    rw [exec_jmpInd, readPair_unseen (withCycles_unseen n), exec_jmpInd]
    exact andThen_onState_lost fun _ _ => rfl
  | tax | tay | txa | tya | tsx | txs | inx | iny | dex | dey | clc | sec | cli | sei | clv | cld | sed
  | nop | brk | jmp | unassigned => rfl

theorem serve_withCycles (n : Nat) (e : Event) (s : State) : e.serve (withCycles n s) = e.serve s := by
  cases e with
  | reset => exact (resetSequence_eq _).trans (resetSequence_eq s).symm
  | interrupt k => exact (interruptEntry_eq k _).trans (interruptEntry_eq k s).symm

/-- Settles O51: what is pending does not depend on the count, an event and an instruction lose it
(`serve_withCycles`, `exec_withCycles`), and the fetch between carries it along (`fetch_withCycles`). -/
theorem cycleCountIsNeverRead : Obligations.CycleCountIsNeverRead := by
  intro s n
  have hpending : pendingEvent (withCycles n s) = pendingEvent s := rfl
  change step (withCycles n s) = step s
  cases he : pendingEvent s with
  | some e => rw [step_of_event he, step_of_event (hpending.trans he), serve_withCycles]
  | none =>
    rw [step_of_none he, step_of_none (hpending.trans he), fetch_withCycles]
    exact andThen_onState_lost fun i t => exec_withCycles n i t

/-! ## The entry of an instruction -/

/-- The Opcode Table entry as a function of the instruction (R83). -/
def entryOf (i : Instr) : Option Entry :=
  i.mnemonic.map fun m =>
    { mnemonic := m, mode := i.mode, cycles := i.baseCycles, penalty := i.penalty, documented := i.documented }

theorem opcodeTable_eq_entryOf (opc : Byte) : opcodeTable opc = entryOf (instrOf opc 0 0) := rfl

/-- The operand bytes decide no field of an entry: with the cells written out, both sides are one entry (R80, R83). -/
theorem cells_entryOf : ∀ row ∈ opcodeRows, ∀ c ∈ row, ∀ b1 b2, entryOf (c b1 b2) = entryOf (c 0 0) := by
  simp only [opcodeRows, OpMap.row0, OpMap.row1, OpMap.row2, OpMap.row3, OpMap.row4, OpMap.row5, OpMap.row6,
    OpMap.row7, OpMap.row8, OpMap.row9, OpMap.rowA, OpMap.rowB, OpMap.rowC, OpMap.rowD, OpMap.rowE,
    OpMap.rowF, List.forall_mem_cons, List.not_mem_nil, false_imp_iff, implies_true, and_true]
  simp only [OpMap.imp, OpMap.acc, OpMap.imm, OpMap.byte, OpMap.addr, OpMap.zp, OpMap.zpx, OpMap.zpy, OpMap.abs,
    OpMap.abx, OpMap.aby, OpMap.izx, OpMap.izy, OpMap.src, OpMap.tgt, OpMap.nopu, OpMap.nopImp, OpMap.un, entryOf,
    Instr.mnemonic, Instr.mode, Source.mode, Target.mode, NopOperand.mode, MemForm.mode, Instr.baseCycles,
    Source.readCycles, NopOperand.readCycles, Target.modifyCycles, MemForm.readCycles, MemForm.storeCycles,
    MemForm.modifyCycles, Instr.penalty, Instr.documented, implies_true, and_true]

/-- The opcode of an instruction has the instruction's own entry. -/
theorem opcodeTable_of_opcode {i : Instr} {opc : Byte} (h : i.opcode = some opc) :
    opcodeTable opc = entryOf i := by
  have hi : instrOf opc (i.operandBytes.getD 0 0) (i.operandBytes.getD 1 0) = i := givenBy_of_opcode h
  obtain ⟨row, hrow, hmem⟩ := instrOf_mem opc
  rw [opcodeTable_eq_entryOf, ← cells_entryOf row hrow _ hmem, hi]

/-- An instruction that completes has a mnemonic: the bytes without one raise `DecodeError`. -/
theorem exists_mnemonic_of_next {i : Instr} {s t : State} (h : exec i s = .next t) :
    ∃ m, i.mnemonic = some m := by
  cases i with
  | unassigned => cases h
  | _ => exact ⟨_, rfl⟩

/-! ## The cycle count of an instruction -/

/-- The count that a meaning ends with. -/
theorem cycles_of_andThen_done {α : Type} {r : Access α} {n : Nat} {k : α → State → State} {t : State}
    (h : (andThen r fun v s => done n (k v s)) = .next t) : t.cycles = n := by
  obtain ⟨v, s, -, hdone⟩ := andThen_eq_next.1 h
  rw [done_eq_next.1 hdone]

theorem shiftBy_cycles {g : Byte → State → Byte × State} {tg : Target} {s t : State}
    (h : shiftBy g tg s = .next t) : t.cycles = tg.modifyCycles := by
  cases tg with
  | acc => cases h; rfl
  | mem f => exact cycles_of_andThen_done h

/-- Reading an operand delivers whether its address crossed a page. -/
theorem readSource_crossed {o : Source} {s t : State} {m : Operand} (h : readSource o s = .ok (m, t)) :
    m.crossed = nopCrossed (.src o) s := by
  cases o with
  | imm b1 => cases h; rfl
  | mem f =>
    rw [readSource, readMem_eq] at h
    obtain ⟨v, s1, -, ⟨⟩⟩ := chain_eq_ok.1 h
    rfl

theorem readThen_cycles {o : Source} {g : Byte → State → State} {s t : State} (h : readThen o g s = .next t) :
    t.cycles = (NopOperand.src o).readCycles + (nopCrossed (.src o) s).toNat := by
  obtain ⟨m, dl, hread, rfl⟩ := readThen_next h
  rw [← readSource_crossed hread]
  rfl

/-- A form without the penalty never crosses a page (R97, R98). -/
theorem effectiveOf_crossed_of_no_penalty {f : MemForm} (hf : f.mode.penalty = .none) (s : State) :
    (effectiveOf f s).crossed = false := by
  cases f with
  | abx | aby | izy => cases hf
  | zp | zpx | zpy | abs | izx => rfl

/-- From `s` to `t`, the cycle count is what the table says of `i`: its base count with its penalty (R97, R174,
R360). -/
structure TabledCycles (i : Instr) (s t : State) : Prop where
  fixed : i.penalty = .none → t.cycles = i.baseCycles
  pageCross : i.penalty = .pageCross → ∃ f e, i.memForm = some f ∧ resolve f s = .ok (e, s) ∧
    t.cycles = i.baseCycles + e.crossed.toNat
  branchMoved : i.penalty = .branch → t.pc ≠ s.pc →
    t.cycles = i.baseCycles + 1 + (hiByte s.pc != hiByte t.pc).toNat
  branchStayed : i.penalty = .branch → t.pc = s.pc → t.cycles = i.baseCycles ∨ t.cycles = i.baseCycles + 1

theorem TabledCycles.of_fixed {i : Instr} {s t : State} (hp : i.penalty = .none) (h : t.cycles = i.baseCycles) :
    TabledCycles i s t where
  fixed _ := h
  pageCross hp' := nomatch hp.symm.trans hp'
  branchMoved hp' := nomatch hp.symm.trans hp'
  branchStayed hp' := nomatch hp.symm.trans hp'

/-- An operand in memory costs one cycle more where its address crosses a page. -/
theorem TabledCycles.of_memForm {i : Instr} {f : MemForm} {s t : State} (hp : i.penalty = f.mode.penalty)
    (hf : i.memForm = some f) (h : t.cycles = i.baseCycles + (effectiveOf f s).crossed.toNat) :
    TabledCycles i s t where
  fixed hp' := by
    rw [h, effectiveOf_crossed_of_no_penalty (hp.symm.trans hp')]
    rfl
  pageCross _ := ⟨f, _, hf, resolve_eq f s, h⟩
  branchMoved hp' := by cases f <;> cases hp.symm.trans hp'
  branchStayed hp' := by cases f <;> cases hp.symm.trans hp'

/-- An operand that is read, or only resolved by an undocumented `NOP`, costs as its form says. -/
theorem TabledCycles.of_operand {i : Instr} {o : NopOperand} {s t : State} (hp : i.penalty = o.mode.penalty)
    (hf : i.memForm = o.memForm) (hb : i.baseCycles = o.readCycles)
    (h : t.cycles = o.readCycles + (nopCrossed o s).toNat) : TabledCycles i s t := by
  rw [← hb] at h
  match o with
  | .imp | .src (.imm _) => exact .of_fixed hp h
  | .src (.mem f) => exact .of_memForm hp hf h

theorem branchTarget_crossed (off : Byte) (pc : Addr) :
    (branchTarget off pc).crossed = (hiByte pc != hiByte (branchTarget off pc).ea) := rfl

/-- A branch that moves `PC` was taken; a taken one that stays has its target on its own page (R174). -/
theorem TabledCycles.of_branchIf {i : Instr} {cond : Bool} {off : Byte} {s t : State} (hp : i.penalty = .branch)
    (hb : i.baseCycles = 2) (h : branchIf cond off s = .next t) : TabledCycles i s t := by
  cases (branchIf_eq cond off s).symm.trans h
  refine ⟨fun hp' => (nomatch hp.symm.trans hp'), fun hp' => (nomatch hp.symm.trans hp'), fun _ hmoved => ?moved,
    fun _ hstayed => ?stayed⟩
  case moved =>
    cases cond with
    | false => exact absurd rfl hmoved
    | true => rw [hb]; rfl
  case stayed =>
    cases cond with
    | false => exact .inl hb.symm
    | true =>
      have htarget : (branchTarget off s.pc).ea = s.pc := hstayed
      have hcrossed : (branchTarget off s.pc).crossed = false := by
        rw [branchTarget_crossed, htarget, bne_self_eq_false]
      exact .inr (by simp only [hb, hcrossed, if_true]; rfl)

/-- Every instruction that completes takes the cycles of its entry (R360, R361). -/
theorem exec_tabledCycles {i : Instr} {s t : State} (h : exec i s = .next t) : TabledCycles i s t := by
  cases i with
  | lda | ldx | ldy | lax | adc | sbc | sbcu | and | ora | eor | cmp | cpx | cpy | bit =>
    simp only [exec_lda, exec_ldx, exec_ldy, exec_lax, exec_adc, exec_sbc, exec_sbcu, exec_and, exec_ora,
      exec_eor, exec_cmp, exec_cpx, exec_cpy, exec_bit] at h
    exact .of_operand rfl rfl rfl (readThen_cycles h)
  | nopu =>
    cases (exec_nopu ..).symm.trans h
    exact .of_operand rfl rfl rfl rfl
  | bpl | bmi | bvc | bvs | bcc | bcs | bne | beq => exact .of_branchIf rfl rfl h
  | sta | stx | sty | sax | inc | dec | dcp | isc | slo | rla | sre | rra | pha | php | pla | plp | jsr | rts
  | jmpInd => exact .of_fixed rfl (cycles_of_andThen_done h)
  | asl | lsr | rol | ror => exact .of_fixed rfl (shiftBy_cycles h)
  | rti =>
    cases (returnFromInterrupt_eq s).symm.trans h
    exact .of_fixed rfl rfl
  | unassigned => cases h
  | tax | tay | txa | tya | tsx | txs | inx | iny | dex | dey | clc | sec | cli | sei | clv | cld | sed
  | nop | brk | jmp =>
    cases h
    exact .of_fixed rfl rfl

/-- Settles O23: an instruction's entry is that of its opcode (`opcodeTable_of_opcode`), and its count the one there
(`exec_tabledCycles`); the counts of an event are in its closed form (D2, D11). -/
theorem cyclesFollowTheTable : Obligations.CyclesFollowTheTable := by
  refine ⟨?instructions, fun s t h => ⟨?reset, ?interrupt⟩⟩
  case instructions =>
    intro i s t opc hopc h
    obtain ⟨m, hm⟩ := exists_mnemonic_of_next h
    have hentry := opcodeTable_of_opcode hopc
    rw [entryOf, hm, Option.map_some] at hentry
    obtain ⟨hfixed, hcross, hmoved, hstayed⟩ := exec_tabledCycles h
    exact ⟨_, hentry, hfixed, hcross, hmoved, hstayed⟩
  case reset =>
    intro he
    rw [step_of_event he] at h
    cases (resetSequence_eq s).symm.trans h
    rfl
  case interrupt =>
    intro k he
    rw [step_of_event he] at h
    cases (interruptEntry_eq k s).symm.trans h
    cases k with
    | brk | nmi | irq => rfl

end Sys2Proof.Proofs
end
